-- ==== Sys2Proof/Word.lean ====
section
/-! DEFINITION. The word types of OPAL-EC (spec/00_scope.md R8 to R11, spec/10_state.md R20). -/

namespace Sys2Proof

/-- What the 32-bit host bus carries, and one command word (R9, R90). -/
abbrev Word := BitVec 32

/-- The contents of one operand register (R20). -/
abbrev W256 := BitVec 256

/-- The contents of an even-based register pair (R21). -/
abbrev W512 := BitVec 512

/-- The index of one of W0 to W15 (R91). -/
abbrev Reg := Fin 16

/-- A byte offset into the 4096-byte window (R60). -/
abbrev Offset := BitVec 12

end Sys2Proof
end

