-- ==== Sys2Proof/Syntax.lean ====
section
/-! DEFINITION. The commands of OPAL-EC, one constructor for each row of the opcode map
(spec/30_encoding.md R96), with the operand fields in the order RD, RS1, RS2, IMM8 (R95, R100). -/

namespace Sys2Proof

/-- A command. A register field that names a group (R21) holds the group's base register. -/
inductive Instr where
  | nop                              -- R230
  | mov (rd rs1 : Reg)               -- R231
  | ldi (rd : Reg) (imm : BitVec 8)  -- R232
  | ldk (rd : Reg) (imm : BitVec 8)  -- R233
  | ldt (rd : Reg) (imm : BitVec 8)  -- R234
  | add (rd rs1 rs2 : Reg)           -- R120
  | sub (rd rs1 rs2 : Reg)           -- R121
  | addw (rd rs1 rs2 : Reg)          -- R122
  | subw (rd rs1 rs2 : Reg)          -- R123
  | mul (rd rs1 rs2 : Reg)           -- R124
  | sqr (rd rs1 : Reg)               -- R125
  | cmp (rs1 rs2 : Reg)              -- R126
  | bit (rd rs1 : Reg) (imm : BitVec 8)  -- R127
  | msb (rd rs1 : Reg)               -- R128
  | bswap (rd rs1 : Reg)             -- R129
  | redp (rd rs1 : Reg)              -- R160
  | sinv (rd rs1 : Reg)              -- R180
  | pdbl (rd rs1 : Reg)              -- R193
  | paddm (rd rs1 rs2 : Reg)         -- R194
  | pmulg (rd rs1 : Reg)             -- R212
deriving DecidableEq, Repr

end Sys2Proof
end

