-- ==== Sys2Proof/WellFormed.lean ====
section
/-! DEFINITION. The group and immediate constraints a legal command meets (spec/30_encoding.md R93). -/

namespace Sys2Proof

/-- The base of a 512-bit pair WP is even (R21). -/
def Reg.pairBase (r : Reg) : Bool := r.val % 2 == 0

/-- The base of a Jacobian triple WJ is at most 13 (R21). -/
def Reg.jacBase (r : Reg) : Bool := r.val ≤ 13

/-- The base of an affine pair WA is at most 14 (R21). -/
def Reg.affBase (r : Reg) : Bool := r.val ≤ 14

/-- The constraints of R93 (the column "constraint" of R96). -/
def Instr.wf : Instr → Bool
  | .nop => true
  | .mov _ _ => true
  | .ldi _ _ => true
  | .ldk _ imm => imm.toNat ≤ 4
  | .ldt rd imm => 1 ≤ imm.toNat && rd.affBase
  | .add _ _ _ => true
  | .sub _ _ _ => true
  | .addw rd rs1 rs2 => rd.pairBase && rs1.pairBase && rs2.pairBase
  | .subw rd rs1 rs2 => rd.pairBase && rs1.pairBase && rs2.pairBase
  | .mul rd _ _ => rd.pairBase
  | .sqr rd _ => rd.pairBase
  | .cmp _ _ => true
  | .bit _ _ _ => true
  | .msb _ _ => true
  | .bswap _ _ => true
  | .redp _ rs1 => rs1.pairBase
  | .sinv _ _ => true
  | .pdbl rd rs1 => rd.jacBase && rs1.jacBase
  | .paddm rd rs1 rs2 => rd.jacBase && rs1.jacBase && rs2.affBase
  | .pmulg rd _ => rd.jacBase

end Sys2Proof
end

