-- ==== Sys2Proof/Decode.lean ====
section
/-! DEFINITION. Command words: the decoder (spec/30_encoding.md R90 to R98), total on every 32-bit word and
rejecting by name, and after it the encoder. -/

namespace Sys2Proof

/-- Why a word is no command (R97): OPC is not in the opcode map; or OPC is, and a must-be-zero field is set or a
constraint is broken. -/
inductive DecodeError where
  | illegalOpcode
  | illegalField
deriving DecidableEq, Repr

/-! The fields of a command word (R90). -/

/-- OPC, bits 31:24. -/
def opcField (w : Word) : Nat := w.toNat / 2 ^ 24

/-- RD, bits 23:20. -/
def rdField (w : Word) : Reg := Fin.ofNat 16 (w.toNat / 2 ^ 20)

/-- RS1, bits 19:16. -/
def rs1Field (w : Word) : Reg := Fin.ofNat 16 (w.toNat / 2 ^ 16)

/-- RS2, bits 15:12. -/
def rs2Field (w : Word) : Reg := Fin.ofNat 16 (w.toNat / 2 ^ 12)

/-- RSV, bits 11:8. -/
def rsvField (w : Word) : Nat := w.toNat / 2 ^ 8 % 16

/-- IMM8, bits 7:0. -/
def immField (w : Word) : BitVec 8 := BitVec.ofNat 8 w.toNat

/-- A row of the opcode map (R96): the opcode, which fields the command uses (the others must be zero), and the
command that the fields make. -/
structure OpcodeRow where
  opc : Nat
  usesRd : Bool
  usesRs1 : Bool
  usesRs2 : Bool
  usesImm : Bool
  build : Reg → Reg → Reg → BitVec 8 → Instr

/-- The complete opcode map (R96). -/
def opcodeMap : List OpcodeRow := [
  ⟨0x00, false, false, false, false, fun _ _ _ _ => .nop⟩,
  ⟨0x01, true, true, false, false, fun rd rs1 _ _ => .mov rd rs1⟩,
  ⟨0x02, true, false, false, true, fun rd _ _ imm => .ldi rd imm⟩,
  ⟨0x03, true, false, false, true, fun rd _ _ imm => .ldk rd imm⟩,
  ⟨0x04, true, false, false, true, fun rd _ _ imm => .ldt rd imm⟩,
  ⟨0x10, true, true, true, false, fun rd rs1 rs2 _ => .add rd rs1 rs2⟩,
  ⟨0x11, true, true, true, false, fun rd rs1 rs2 _ => .sub rd rs1 rs2⟩,
  ⟨0x12, true, true, true, false, fun rd rs1 rs2 _ => .addw rd rs1 rs2⟩,
  ⟨0x13, true, true, true, false, fun rd rs1 rs2 _ => .subw rd rs1 rs2⟩,
  ⟨0x14, true, true, true, false, fun rd rs1 rs2 _ => .mul rd rs1 rs2⟩,
  ⟨0x15, true, true, false, false, fun rd rs1 _ _ => .sqr rd rs1⟩,
  ⟨0x16, false, true, true, false, fun _ rs1 rs2 _ => .cmp rs1 rs2⟩,
  ⟨0x17, true, true, false, true, fun rd rs1 _ imm => .bit rd rs1 imm⟩,
  ⟨0x18, true, true, false, false, fun rd rs1 _ _ => .msb rd rs1⟩,
  ⟨0x19, true, true, false, false, fun rd rs1 _ _ => .bswap rd rs1⟩,
  ⟨0x20, true, true, false, false, fun rd rs1 _ _ => .redp rd rs1⟩,
  ⟨0x28, true, true, false, false, fun rd rs1 _ _ => .sinv rd rs1⟩,
  ⟨0x30, true, true, false, false, fun rd rs1 _ _ => .pdbl rd rs1⟩,
  ⟨0x31, true, true, true, false, fun rd rs1 rs2 _ => .paddm rd rs1 rs2⟩,
  ⟨0x38, true, true, false, false, fun rd rs1 _ _ => .pmulg rd rs1⟩]

/-- The row of an opcode; none for the 236 unassigned values (R97). -/
def opcodeRow (opc : Nat) : Option OpcodeRow := opcodeMap.find? (fun r => r.opc == opc)

/-- RSV and every field the row does not use are zero (R92). -/
def OpcodeRow.zerosClear (r : OpcodeRow) (w : Word) : Bool :=
  rsvField w == 0 && (r.usesRd || rdField w == 0) && (r.usesRs1 || rs1Field w == 0)
    && (r.usesRs2 || rs2Field w == 0) && (r.usesImm || immField w == 0)

/-- The command that the word's fields make in this row. -/
def OpcodeRow.instr (r : OpcodeRow) (w : Word) : Instr :=
  r.build (rdField w) (rs1Field w) (rs2Field w) (immField w)

/-- The decoder, its tests in the order of R98: the opcode; RSV and the must-be-zero fields; the constraints. -/
def decode (w : Word) : Except DecodeError Instr :=
  match opcodeRow (opcField w) with
  | none => .error .illegalOpcode
  | some r =>
    if r.zerosClear w then
      if (r.instr w).wf then .ok (r.instr w) else .error .illegalField
    else .error .illegalField

/-- `OPC<<24 | RD<<20 | RS1<<16 | RS2<<12 | IMM8` (R90); RSV is zero. -/
def assemble (opc : BitVec 8) (rd rs1 rs2 : Reg) (imm : BitVec 8) : Word :=
  BitVec.ofNat 32 (opc.toNat * 2 ^ 24 + rd.val * 2 ^ 20 + rs1.val * 2 ^ 16 + rs2.val * 2 ^ 12 + imm.toNat)

/-- The encoder: the word of a command, from the columns of R96, the must-be-zero fields zero. -/
def encode : Instr → Word
  | .nop => assemble 0x00 0 0 0 0
  | .mov rd rs1 => assemble 0x01 rd rs1 0 0
  | .ldi rd imm => assemble 0x02 rd 0 0 imm
  | .ldk rd imm => assemble 0x03 rd 0 0 imm
  | .ldt rd imm => assemble 0x04 rd 0 0 imm
  | .add rd rs1 rs2 => assemble 0x10 rd rs1 rs2 0
  | .sub rd rs1 rs2 => assemble 0x11 rd rs1 rs2 0
  | .addw rd rs1 rs2 => assemble 0x12 rd rs1 rs2 0
  | .subw rd rs1 rs2 => assemble 0x13 rd rs1 rs2 0
  | .mul rd rs1 rs2 => assemble 0x14 rd rs1 rs2 0
  | .sqr rd rs1 => assemble 0x15 rd rs1 0 0
  | .cmp rs1 rs2 => assemble 0x16 0 rs1 rs2 0
  | .bit rd rs1 imm => assemble 0x17 rd rs1 0 imm
  | .msb rd rs1 => assemble 0x18 rd rs1 0 0
  | .bswap rd rs1 => assemble 0x19 rd rs1 0 0
  | .redp rd rs1 => assemble 0x20 rd rs1 0 0
  | .sinv rd rs1 => assemble 0x28 rd rs1 0 0
  | .pdbl rd rs1 => assemble 0x30 rd rs1 0 0
  | .paddm rd rs1 rs2 => assemble 0x31 rd rs1 rs2 0
  | .pmulg rd rs1 => assemble 0x38 rd rs1 0 0

/-- The command the decoder reads from the opcode table's numbering of a command's bits (one 32-bit word, R99). -/
def decodeTableWord (nbits w : Nat) : Option Instr :=
  match decode (BitVec.ofNat 32 (w % 2 ^ nbits)) with
  | .ok i => some i
  | .error _ => none

end Sys2Proof
end

