-- ==== Sys2Proof/Machine/State.lean ====
section
/-! DEFINITION. Everything the spec gives the machine (spec/10_state.md), as plain data, with the fields the model
adds so that one deterministic step can show the host, the engine and RESET (spec/00_scope.md R15, log 3). -/

namespace Sys2Proof.Machine

/-- The five flags (R25). -/
structure Flags where
  c : Bool
  lt : Bool
  eq : Bool
  gt : Bool
  z : Bool
deriving DecidableEq, Repr

/-- What a command writes to FLAGS when it completes: nothing, the carry or borrow, the outcome of a compare, or
whether the operand of MSB was zero (R25, R26). -/
inductive FlagWrite where
  | keep
  | carry (c : Bool)
  | compare (lt eq gt : Bool)
  | zero (z : Bool)
deriving DecidableEq, Repr

/-- A command's results: the registers it writes and the flags it writes (R13). -/
structure Result where
  writes : List (Reg × W256)
  flags : FlagWrite
deriving DecidableEq, Repr

/-- What the engine holds while BUSY: the command with its fields, the operand values read at acceptance (R36), and
the pending results, "visible only after completion" (R37, log 5). -/
structure InFlight where
  cmd : Instr
  operands : List W256
  result : Result
deriving DecidableEq, Repr

/-- The engine phase (R36). -/
inductive Engine where
  | idle
  | busy (f : InFlight)
deriving DecidableEq, Repr

/-- ERRCODE.CODE (R30). -/
inductive ErrorCode where
  | noError        -- 0
  | illegalOpcode  -- 1
  | illegalField   -- 2
  | range          -- 3
  | overrun        -- 4
deriving DecidableEq, Repr

/-- A bus access that reaches the window (R60): its byte offset, its width in bytes, and the data of a write. -/
inductive Access where
  | read (off : Offset) (size : Nat)
  | write (off : Offset) (size : Nat) (data : Word)
deriving DecidableEq, Repr

/-- What happens next to the block: an access of the host, the engine's turn, or RESET (R15, R280). -/
inductive Input where
  | host (a : Access)
  | engine
  | reset
deriving DecidableEq, Repr

/-- The block's response to a host access: the data of a read, or the acceptance of a write (R60). -/
inductive Reply where
  | nothing
  | data (v : Word)
  | ack
deriving DecidableEq, Repr

/-- The state of OPAL-EC and of the model's schedule. -/
structure State where
  /-- W0 to W15 (R20). -/
  w : Vector W256 16
  /-- bit j of entry i: word j of W[i] has a value (R40). -/
  valued : Vector (BitVec 8) 16
  /-- FLAGS (R23, R25). -/
  flags : Flags
  /-- CTRL.IE_DONE (R27). -/
  ieDone : Bool
  /-- CTRL.IE_ERR (R27). -/
  ieErr : Bool
  /-- STATUS.DONE (R28). -/
  done : Bool
  /-- STATUS.ERR (R28). -/
  err : Bool
  /-- ERRCODE.CODE (R30). -/
  errCode : ErrorCode
  /-- ERRCODE.REG (R30). -/
  errReg : Reg
  /-- ERRCMD (R32). -/
  errCmd : Word
  /-- The engine phase and what it holds (R36); STATUS.BUSY is read from it. -/
  engine : Engine
  /-- The model's own: the inputs still to come, oldest first (log 3). -/
  inputs : List Input
  /-- The model's own: the response to the host's latest access (log 9). -/
  reply : Reply
  /-- The model's own: how many free draws have been taken (log 6). -/
  draws : Nat
deriving DecidableEq, Repr

/-- Why the machine stops. -/
inductive Fault where
  /-- Raised by the bus for an access that is not 32 bits wide or not 4-byte aligned (R65, R272): the model fault
  HostBusError, the host's own fault. The access has no effect on any state. Safe: the model stops where the bus
  answers with an error response (log 12). -/
  | hostBusError (addr size : Nat)
deriving DecidableEq, Repr

/-- Why a command has no meaning. -/
inductive Refusal where
  /-- Raised by `exec` for a command that has no meaning yet. Safe. No arm of `exec` raises it. -/
  | notModelled (mnemonic : String)
deriving DecidableEq, Repr

/-- The machine right after reset (R39). The spec gives W0 to W15 no reset contents; they are 0 here (log 1), and
`valued` says that none of their words has a value (R40). -/
def State.reset : State where
  w := Vector.replicate 16 0
  valued := Vector.replicate 16 0
  flags := ⟨false, false, false, false, false⟩
  ieDone := false
  ieErr := false
  done := false
  err := false
  errCode := .noError
  errReg := 0
  errCmd := 0
  engine := .idle
  inputs := []
  reply := .nothing
  draws := 0

end Sys2Proof.Machine
end

