-- ==== Sys2Proof/Machine/Flags.lean ====
section
/-! DEFINITION. The flag computations of spec/40_wide_integer.md and the register image of FLAGS
(spec/10_state.md R25, R26). -/

namespace Sys2Proof.Machine

/-- Each flag keeps its value unless the command writes it (R26). -/
def FlagWrite.apply (fw : FlagWrite) (f : Flags) : Flags :=
  match fw with
  | .keep => f
  | .carry c => { f with c := c }
  | .compare lt eq gt => { f with lt := lt, eq := eq, gt := gt }
  | .zero z => { f with z := z }

/-- The carry out of a sum of two `bits`-bit numbers: bit `bits` of the exact sum (R120, R122). -/
def carryOut (bits a b : Nat) : Bool := (a + b).testBit bits

/-- The borrow out of a difference: 1 iff the minuend is less than the subtrahend (R121, R123). -/
def borrowOut (a b : Nat) : Bool := a < b

/-- The flags of an unsigned compare (R126). -/
def compareFlags (a b : Nat) : FlagWrite := .compare (a < b) (a == b) (b < a)

/-- FLAGS as the host reads it: C, LT, EQ, GT, Z in bits 0 to 4, the rest 0 (R25). -/
def Flags.toWord (f : Flags) : Word :=
  BitVec.ofNat 32 (f.c.toNat + 2 * f.lt.toNat + 4 * f.eq.toNat + 8 * f.gt.toNat + 16 * f.z.toNat)

end Sys2Proof.Machine
end

