-- ==== Sys2Proof/Machine/Curve.lean ====
section
/-! DEFINITION. The constants of secp256k1 (spec/00_scope.md R3, R4), the constant ROM (spec/10_state.md R34) and
the two forms of a point (spec/00_scope.md R11, R14). -/

namespace Sys2Proof.Machine

/-- The field prime, 2²⁵⁶ − 2³² − 977 (R3). -/
def p : Nat := 0xFFFFFFFFFFFFFFFFFFFFFFFFFFFFFFFFFFFFFFFFFFFFFFFFFFFFFFFEFFFFFC2F

/-- The group order (R4, log 11). -/
def n : Nat := 0xFFFFFFFFFFFFFFFFFFFFFFFFFFFFFFFEBAAEDCE6AF48A03BBFD25E8CD0364141

/-- The generator's x (R4, log 11). -/
def gx : Nat := 0x79BE667EF9DCBBAC55A06295CE870B07029BFCDB2DCE28D959F2815B16F81798

/-- The generator's y (R4, log 11). -/
def gy : Nat := 0x483ADA7726A3C4655DA4FBFC0E1108A8FD17B448A68554199C47D08FFB10D4B8

/-- ROMK (R34): five entries, and no entry at any other index. -/
def romK (k : Nat) : Option W256 :=
  match k with
  | 0 => some (BitVec.ofNat 256 p)
  | 1 => some (BitVec.ofNat 256 n)
  | 2 => some (BitVec.ofNat 256 gx)
  | 3 => some (BitVec.ofNat 256 gy)
  | 4 => some 7
  | _ => none

/-- A Jacobian triple (R11): Z = 0 denotes the point at infinity, otherwise x = X/Z², y = Y/Z³ (R14). -/
structure Jac where
  x : Nat
  y : Nat
  z : Nat
deriving DecidableEq, Repr

/-- An affine pair (R11). -/
structure Aff where
  x : Nat
  y : Nat
deriving DecidableEq, Repr

/-- The canonical infinity triple (R190). -/
def inf : Jac := ⟨0, 0, 0⟩

/-- The affine generator (R4). -/
def gen : Aff := ⟨gx, gy⟩

end Sys2Proof.Machine
end

