-- ==== Sys2Proof/Machine/Operands.lean ====
section
/-! DEFINITION. The operand forms of spec/30_encoding.md R91 and R95: single registers, 512-bit pairs, Jacobian
triples and affine pairs (spec/10_state.md R21), read and written; and which registers a command names. -/

namespace Sys2Proof.Machine

/-- `W[r]` (R11). -/
def State.reg (s : State) (r : Reg) : W256 := s.w[r.val]

/-- `WP[b] = W[b+1] ‖ W[b]` (R11). -/
def State.pair (s : State) (b : Reg) : W512 := s.reg (b + 1) ++ s.reg b

/-- `WJ[b] = (W[b], W[b+1], W[b+2])` (R11). -/
def State.jac (s : State) (b : Reg) : Jac :=
  ⟨(s.reg b).toNat, (s.reg (b + 1)).toNat, (s.reg (b + 2)).toNat⟩

/-- `WA[b] = (W[b], W[b+1])` (R11). -/
def State.aff (s : State) (b : Reg) : Aff := ⟨(s.reg b).toNat, (s.reg (b + 1)).toNat⟩

/-- The write `W[rd] <- v`. -/
def toReg (rd : Reg) (v : W256) : List (Reg × W256) := [(rd, v)]

/-- The write `WP[b] <- v`: the low half to W[b], the high half to W[b+1] (R11). -/
def toPair (b : Reg) (v : W512) : List (Reg × W256) :=
  [(b, v.extractLsb' 0 256), (b + 1, v.extractLsb' 256 256)]

/-- The write of a triple to WJ[b]. -/
def toJac (b : Reg) (P : Jac) : List (Reg × W256) :=
  [(b, BitVec.ofNat 256 P.x), (b + 1, BitVec.ofNat 256 P.y), (b + 2, BitVec.ofNat 256 P.z)]

/-- The write of an affine pair to WA[b]. -/
def toAff (b : Reg) (Q : Aff) : List (Reg × W256) :=
  [(b, BitVec.ofNat 256 Q.x), (b + 1, BitVec.ofNat 256 Q.y)]

/-- IMM8 as a register value: zero-extended (R91). -/
def immValue (imm : BitVec 8) : W256 := imm.setWidth 256

/-- The registers of a group, in order. -/
def pairRegs (b : Reg) : List Reg := [b, b + 1]
def jacRegs (b : Reg) : List Reg := [b, b + 1, b + 2]
def affRegs (b : Reg) : List Reg := [b, b + 1]

/-- The operand registers a command reads, in the order RS1, RS2 (R95). -/
def sources : Instr → List Reg
  | .nop => []
  | .mov _ rs1 => [rs1]
  | .ldi _ _ => []
  | .ldk _ _ => []
  | .ldt _ _ => []
  | .add _ rs1 rs2 => [rs1, rs2]
  | .sub _ rs1 rs2 => [rs1, rs2]
  | .addw _ rs1 rs2 => pairRegs rs1 ++ pairRegs rs2
  | .subw _ rs1 rs2 => pairRegs rs1 ++ pairRegs rs2
  | .mul _ rs1 rs2 => [rs1, rs2]
  | .sqr _ rs1 => [rs1]
  | .cmp rs1 rs2 => [rs1, rs2]
  | .bit _ rs1 _ => [rs1]
  | .msb _ rs1 => [rs1]
  | .bswap _ rs1 => [rs1]
  | .redp _ rs1 => pairRegs rs1
  | .sinv _ rs1 => [rs1]
  | .pdbl _ rs1 => jacRegs rs1
  | .paddm _ rs1 rs2 => jacRegs rs1 ++ affRegs rs2
  | .pmulg _ rs1 => [rs1]

/-- The registers a command writes when it completes (R95). -/
def dests : Instr → List Reg
  | .nop => []
  | .mov rd _ => [rd]
  | .ldi rd _ => [rd]
  | .ldk rd _ => [rd]
  | .ldt rd _ => affRegs rd
  | .add rd _ _ => [rd]
  | .sub rd _ _ => [rd]
  | .addw rd _ _ => pairRegs rd
  | .subw rd _ _ => pairRegs rd
  | .mul rd _ _ => pairRegs rd
  | .sqr rd _ => pairRegs rd
  | .cmp _ _ => []
  | .bit rd _ _ => [rd]
  | .msb rd _ => [rd]
  | .bswap rd _ => [rd]
  | .redp rd _ => [rd]
  | .sinv rd _ => [rd]
  | .pdbl rd _ => jacRegs rd
  | .paddm rd _ _ => jacRegs rd
  | .pmulg rd _ => jacRegs rd

/-- The first of `rs` whose value is not below `bound` (R256). -/
def State.outOfRange (s : State) (bound : Nat) (rs : List Reg) : Option Reg :=
  rs.find? (fun r => bound ≤ (s.reg r).toNat)

end Sys2Proof.Machine
end

