-- ==== Sys2Proof/Machine/Ops.lean ====
section
/-! DEFINITION. The named operations over the state: register writes, recording and clearing an error, the abort at
acceptance, the start and the completion of a command (spec/60_exceptions.md R250 to R265), and the host's accesses
of one 32-bit word of a register (spec/20_memory.md R61). -/

namespace Sys2Proof.Machine

/-- STATUS.BUSY = 1 exactly when the engine is BUSY (R36). -/
def State.busy (s : State) : Bool :=
  match s.engine with
  | .idle => false
  | .busy _ => true

/-- The interrupt output (R38, R261). -/
def State.irq (s : State) : Bool := (s.done && s.ieDone) || (s.err && s.ieErr)

/-- `W[r] <- v`: the whole register, which then has a value (R40). -/
def State.setReg (s : State) (r : Reg) (v : W256) : State :=
  { s with w := s.w.set r.val v, valued := s.valued.set r.val 0xFF }

/-- All register writes of a command, in one step (R13). -/
def State.setRegs (s : State) (ws : List (Reg × W256)) : State :=
  ws.foldl (fun s x => s.setReg x.1 x.2) s

/-- Every word of W[r] has a value (R40). -/
def State.hasValue (s : State) (r : Reg) : Bool := s.valued[r.val] == 0xFF

/-- Word j of W[r] has a value (R40). -/
def State.hasWord (s : State) (r : Reg) (j : Fin 8) : Bool := (s.valued[r.val]).getLsbD j.val

/-! Errors. -/

/-- Recording an error: the first since the last clear is kept (R257). -/
def State.recordError (s : State) (code : ErrorCode) (reg : Reg) (cmd : Word) : State :=
  if s.err then s else { s with err := true, errCode := code, errReg := reg, errCmd := cmd }

/-- Taking an error at acceptance: DONE is set and the error recorded; nothing else changes (R252, R263). -/
def State.abort (s : State) (code : ErrorCode) (reg : Reg) (cmd : Word) : State :=
  { s.recordError code reg cmd with done := true }

/-- The return from an error, CTRL.CLR_ERR: STATUS.ERR, ERRCODE and ERRCMD become 0 (R27, R264). -/
def State.clearError (s : State) : State :=
  { s with err := false, errCode := .noError, errReg := 0, errCmd := 0 }

/-- CTRL.CLR_DONE (R27). -/
def State.clearDone (s : State) : State := { s with done := false }

/-! The life of a command. -/

/-- The start of a command that passes every check: DONE is cleared and the engine holds the command (R251). -/
def State.start (s : State) (f : InFlight) : State := { s with done := false, engine := .busy f }

/-- The engine's completion step: every register and flag the command writes, BUSY and DONE, in one atomic step
(R259). An IDLE engine has nothing to complete. -/
def State.complete (s : State) : State :=
  match s.engine with
  | .idle => s
  | .busy f =>
    { s.setRegs f.result.writes with
      flags := f.result.flags.apply s.flags
      engine := .idle
      done := true }

/-- The acceptance of a decoded command (R250): `bad` is the first operand register out of range (R256), `result`
what the command computes from the operand values. The word of the command is its encoding (log 13). A command that
breaks its constraints, which the decoder lets through to no one, is aborted as R255 says (log 14). -/
def accept (cmd : Instr) (bad : Option Reg) (result : Result) (s : State) : Host.Outcome State Fault Refusal :=
  if cmd.wf then
    match bad with
    | some r => .next (s.abort .range r (encode cmd))
    | none => .next (s.start ⟨cmd, (sources cmd).map s.reg, result⟩)
  else .next (s.abort .illegalField 0 (encode cmd))

/-! The host's view of a register as eight 32-bit words, word 0 least significant (R61). -/

/-- `v[32j+31 : 32j]`. -/
def getWord (v : W256) (j : Fin 8) : Word := v.extractLsb' (32 * j.val) 32

/-- `v[32j+31 : 32j] <- x`, the other bits unchanged. -/
def putWord (v : W256) (j : Fin 8) (x : Word) : W256 :=
  (v &&& ~~~(0xFFFFFFFF#256 <<< (32 * j.val))) ||| (x.setWidth 256 <<< (32 * j.val))

/-- A host write of word j of W[r], which then has a value (R40, R61). -/
def State.setWord (s : State) (r : Reg) (j : Fin 8) (x : Word) : State :=
  { s with
    w := s.w.set r.val (putWord s.w[r.val] j x)
    valued := s.valued.set r.val (s.valued[r.val] ||| (1#8 <<< j.val)) }

end Sys2Proof.Machine
end

