-- ==== Sys2Proof/Machine/Field.lean ====
section
/-! DEFINITION. The field functions used inside the point units (spec/41_field_reduce.md R163), reduction by folding
(R161, spec/42_scalar_inverse.md R182) and the fixed-pattern exponentiation (R181). -/

namespace Sys2Proof.Machine

/-- `(a + b) mod p` (R163). -/
def fadd (a b : Nat) : Nat := (a + b) % p

/-- `(a − b) mod p`, the least non-negative residue, for b at most p (R163, log 15). -/
def fsub (a b : Nat) : Nat := (a + (p - b)) % p

/-- `(p − a) mod p` (R163). -/
def fneg (a : Nat) : Nat := (p - a) % p

/-- `a ·ₚ b` (R163). -/
def fmul (a b : Nat) : Nat := a * b % p

/-- `fmul(a, a)` (R163). -/
def fsqr (a : Nat) : Nat := fmul a a

/-- `(k·a) mod p` (R163). -/
def fk (k a : Nat) : Nat := k * a % p

/-- One fold of R161 and R182: the bits above 256 go back in with the weight `c`, which is 2²⁵⁶ modulo the modulus. -/
def foldOnce (c x : Nat) : Nat := x % 2 ^ 256 + x / 2 ^ 256 * c

/-- The loop of R161 and R182: fold while bits remain above 256, then one conditional subtraction of `m`. `fuel`
bounds the folds. -/
def foldReduce (c m : Nat) (fuel : Nat) (x : Nat) : Nat :=
  match fuel with
  | 0 => if m ≤ x then x - m else x
  | k + 1 =>
    if 2 ^ 256 ≤ x then foldReduce c m k (foldOnce c x)
    else if m ≤ x then x - m else x

/-- The fold weight of the field reducer, `hi·2³² + hi·977` (R161). -/
def foldP : Nat := 2 ^ 32 + 977

/-- `2²⁵⁶ mod n` (R182). -/
def foldN : Nat := 0x14551231950B75FC4402DA1732FC9BEBF

/-- Square-and-multiply modulo `m` over the bits i−1 down to 0 of the fixed exponent `e`: a square for every bit and
a multiplication by `a` for every bit that is 1 (R181). -/
def fixedPow (m e a : Nat) : Nat → Nat → Nat
  | 0, r => r
  | i + 1, r =>
    let sq := r * r % m
    fixedPow m e a i (if e.testBit i then sq * a % m else sq)

/-- `fixed_pow_n(a)`, the exponent E = n − 2, 256 bits (R181). -/
def scalarInverse (a : Nat) : Nat := fixedPow n (n - 2) a 256 1

/-- `Z^(p−2) mod p`, the inverse that defines ROMT (R211). -/
def fieldInverse (a : Nat) : Nat := fixedPow p (p - 2) a 256 1

end Sys2Proof.Machine
end

