-- ==== Sys2Proof/Machine/Point.lean ====
section
/-! DEFINITION. The doubling and mixed-add functions (spec/43_point.md R191, R192), the table ROM and the windowed
generator multiplier (spec/44_scalar_mult.md R210, R211). -/

namespace Sys2Proof.Machine

/-- `dbl` (R191): the formula "dbl-2009-l". -/
def dbl (P : Jac) : Jac :=
  if P.z = 0 then inf
  else
    let a := fsqr P.x
    let b := fsqr P.y
    let c := fsqr b
    let d := fk 2 (fsub (fsub (fsqr (fadd P.x b)) a) c)
    let e := fk 3 a
    let f := fsqr e
    let x3 := fsub f (fk 2 d)
    let y3 := fsub (fmul e (fsub d x3)) (fk 8 c)
    let z3 := fk 2 (fmul P.y P.z)
    if z3 = 0 then inf else ⟨x3, y3, z3⟩

/-- `H` of R192: zero iff the two affine x-coordinates are equal. -/
def maddH (P : Jac) (Q : Aff) : Nat := fsub (fmul Q.x (fsqr P.z)) P.x

/-- `R` of R192: zero iff the two affine y-coordinates are equal. -/
def maddR (P : Jac) (Q : Aff) : Nat := fsub (fmul (fmul Q.y P.z) (fsqr P.z)) P.y

/-- `madd` (R192): the formula "madd-2004-hmv" with the special cases of the group law. -/
def madd (P : Jac) (Q : Aff) : Jac :=
  if P.z = 0 then ⟨Q.x, Q.y, 1⟩
  else
    let h := maddH P Q
    let r := maddR P Q
    if h = 0 then
      if r = 0 then dbl P else inf
    else
      let hh := fsqr h
      let hhh := fmul hh h
      let v := fmul P.x hh
      let x3 := fsub (fsub (fsqr r) hhh) (fk 2 v)
      let y3 := fsub (fmul r (fsub v x3)) (fmul P.y hhh)
      ⟨x3, y3, fmul P.z h⟩

/-- The affine coordinates of a finite triple, as the procedure of R211 takes them. -/
def toAffine (P : Jac) : Aff :=
  let zi := fieldInverse P.z
  ⟨fmul P.x (fsqr zi), fmul P.y (fmul (fsqr zi) zi)⟩

/-- The accumulator of the procedure of R211 after b additions of the generator. -/
def genMultiple : Nat → Jac
  | 0 => inf
  | b + 1 => madd (genMultiple b) gen

/-- ROMT (R211, R33): slots 1 to 255 hold the affine b·G; slot 0 holds no point. -/
def romT (b : Nat) : Option Aff :=
  if 1 ≤ b ∧ b ≤ 255 then some (toAffine (genMultiple b)) else none

/-- `acc = dbl(acc)`, k times (R210). -/
def dblTimes : Nat → Jac → Jac
  | 0, acc => acc
  | k + 1, acc => dblTimes k (dbl acc)

/-- Byte i of a scalar: bits [8i+7 : 8i] (R210). -/
def scalarByte (k i : Nat) : Nat := k / 256 ^ i % 256

/-- "add the precomputed point for that byte's value (0 is a no-op)" (R210). -/
def addEntry (acc : Jac) (b : Nat) : Jac :=
  match romT b with
  | some Q => madd acc Q
  | none => acc

/-- The loop of R210 over the bytes i−1 down to 0 of k. -/
def mulgLoop (k : Nat) : Nat → Jac → Jac
  | 0, acc => acc
  | i + 1, acc => mulgLoop k i (addEntry (dblTimes 8 acc) (scalarByte k i))

/-- `mulg(k)` (R210). -/
def mulg (k : Nat) : Jac := mulgLoop k 32 inf

end Sys2Proof.Machine
end

