-- ==== Sys2Proof/Machine/Modular.lean ====
section
/-! DEFINITION. The field reducer (spec/41_field_reduce.md R160), the scalar inverter (spec/42_scalar_inverse.md
R180), the point doubler and mixed adder (spec/43_point.md R193, R194) and the generator multiplier
(spec/44_scalar_mult.md R212). None writes a flag. The operand checks are those of spec/60_exceptions.md R256. The
remainders are exact, as the source's folds are (log 19). -/

namespace Sys2Proof.Machine

/-- REDP (R160): `W[rd] <- WP[rs1] mod p`, for every 512-bit value. -/
def execRedp (rd rs1 : Reg) (s : State) : Host.Outcome State Fault Refusal :=
  accept (.redp rd rs1) none ⟨toReg rd (BitVec.ofNat 256 ((s.pair rs1).toNat % p)), .keep⟩ s

/-- SINV (R180): RANGE when W[rs1] ≥ n, else `W[rd] <- fixed_pow_n(W[rs1])`. -/
def execSinv (rd rs1 : Reg) (s : State) : Host.Outcome State Fault Refusal :=
  accept (.sinv rd rs1) (s.outOfRange n [rs1])
    ⟨toReg rd (BitVec.ofNat 256 (scalarInverse (s.reg rs1).toNat)), .keep⟩ s

/-- PDBL (R193): RANGE on the first coordinate that is p or more, else `WJ[rd] <- dbl(WJ[rs1])`. -/
def execPdbl (rd rs1 : Reg) (s : State) : Host.Outcome State Fault Refusal :=
  accept (.pdbl rd rs1) (s.outOfRange p (jacRegs rs1)) ⟨toJac rd (dbl (s.jac rs1)), .keep⟩ s

/-- PADDM (R194): RANGE on the first of the five coordinates that is p or more, else
`WJ[rd] <- madd(WJ[rs1], WA[rs2])`. -/
def execPaddm (rd rs1 rs2 : Reg) (s : State) : Host.Outcome State Fault Refusal :=
  accept (.paddm rd rs1 rs2) (s.outOfRange p (jacRegs rs1 ++ affRegs rs2))
    ⟨toJac rd (madd (s.jac rs1) (s.aff rs2)), .keep⟩ s

/-- PMULG (R212): RANGE when W[rs1] ≥ n, else `WJ[rd] <- mulg(W[rs1])`. -/
def execPmulg (rd rs1 : Reg) (s : State) : Host.Outcome State Fault Refusal :=
  accept (.pmulg rd rs1) (s.outOfRange n [rs1]) ⟨toJac rd (mulg (s.reg rs1).toNat), .keep⟩ s

end Sys2Proof.Machine
end

