-- ==== Sys2Proof/Machine/Move.lean ====
section
/-! DEFINITION. The data-movement commands (spec/45_move.md R230 to R234). None writes a flag or raises RANGE. -/

namespace Sys2Proof.Machine

/-- NOP (R230): accepted and completed like any other, no register or flag changes. -/
def execNop (s : State) : Host.Outcome State Fault Refusal :=
  accept .nop none ⟨[], .keep⟩ s

/-- MOV (R231): `W[rd] <- W[rs1]`. -/
def execMov (rd rs1 : Reg) (s : State) : Host.Outcome State Fault Refusal :=
  accept (.mov rd rs1) none ⟨toReg rd (s.reg rs1), .keep⟩ s

/-- LDI (R232): `W[rd] <- zext_256(IMM8)`. -/
def execLdi (rd : Reg) (imm : BitVec 8) (s : State) : Host.Outcome State Fault Refusal :=
  accept (.ldi rd imm) none ⟨toReg rd (immValue imm), .keep⟩ s

/-- The writes of a ROM read; an index with no entry gives none (LDK and LDT refuse it with ILLEGAL_FIELD). -/
def romWrites {α : Type} (entry : Option α) (write : α → List (Reg × W256)) : List (Reg × W256) :=
  match entry with
  | some v => write v
  | none => []

/-- LDK (R233): `W[rd] <- ROMK[IMM8]`. -/
def execLdk (rd : Reg) (imm : BitVec 8) (s : State) : Host.Outcome State Fault Refusal :=
  accept (.ldk rd imm) none ⟨romWrites (romK imm.toNat) (toReg rd), .keep⟩ s

/-- LDT (R234): `(W[rd], W[rd+1]) <- ROMT[IMM8]`. -/
def execLdt (rd : Reg) (imm : BitVec 8) (s : State) : Host.Outcome State Fault Refusal :=
  accept (.ldt rd imm) none ⟨romWrites (romT imm.toNat) (toAff rd), .keep⟩ s

end Sys2Proof.Machine
end

