-- ==== Sys2Proof/Machine/WideInteger.lean ====
section
/-! DEFINITION. The wide-integer commands (spec/40_wide_integer.md R120 to R129). They never raise RANGE. -/

namespace Sys2Proof.Machine

/-! The values (R130): natural-number arithmetic, narrowed explicitly. -/

/-- A sum modulo 2^bits (R120, R122). -/
def wrapAdd {bits : Nat} (a b : BitVec bits) : BitVec bits := BitVec.ofNat bits (a.toNat + b.toNat)

/-- A difference modulo 2^bits (R121, R123). -/
def wrapSub {bits : Nat} (a b : BitVec bits) : BitVec bits := BitVec.ofNat bits (2 ^ bits + a.toNat - b.toNat)

/-- The exact 512-bit product (R124). -/
def fullMul (a b : W256) : W512 := BitVec.ofNat 512 (a.toNat * b.toNat)

/-- `zext_256(v[k])` (R127). -/
def bitValue (v : W256) (k : Nat) : W256 := BitVec.ofNat 256 (v.getLsbD k).toNat

/-- The index of the most significant set bit, 0 for the operand 0 (R128). -/
def msbIndex (v : W256) : W256 := BitVec.ofNat 256 (Nat.log2 v.toNat)

/-- Byte k of a register: bits [8k+7 : 8k] (R129). -/
def regByte (v : W256) (k : Nat) : BitVec 8 := v.extractLsb' (8 * k) 8

/-- The 32 bytes reversed: byte k is byte 31−k of v (R129). -/
def byteReverse (v : W256) : W256 :=
  (List.range 32).foldl (fun acc k => acc ||| ((regByte v (31 - k)).setWidth 256 <<< (8 * k))) 0

/-- ADD (R120). -/
def execAdd (rd rs1 rs2 : Reg) (s : State) : Host.Outcome State Fault Refusal :=
  let a := s.reg rs1
  let b := s.reg rs2
  accept (.add rd rs1 rs2) none ⟨toReg rd (wrapAdd a b), .carry (carryOut 256 a.toNat b.toNat)⟩ s

/-- SUB (R121). -/
def execSub (rd rs1 rs2 : Reg) (s : State) : Host.Outcome State Fault Refusal :=
  let a := s.reg rs1
  let b := s.reg rs2
  accept (.sub rd rs1 rs2) none ⟨toReg rd (wrapSub a b), .carry (borrowOut a.toNat b.toNat)⟩ s

/-- ADDW (R122). -/
def execAddw (rd rs1 rs2 : Reg) (s : State) : Host.Outcome State Fault Refusal :=
  let a := s.pair rs1
  let b := s.pair rs2
  accept (.addw rd rs1 rs2) none ⟨toPair rd (wrapAdd a b), .carry (carryOut 512 a.toNat b.toNat)⟩ s

/-- SUBW (R123). -/
def execSubw (rd rs1 rs2 : Reg) (s : State) : Host.Outcome State Fault Refusal :=
  let a := s.pair rs1
  let b := s.pair rs2
  accept (.subw rd rs1 rs2) none ⟨toPair rd (wrapSub a b), .carry (borrowOut a.toNat b.toNat)⟩ s

/-- MUL (R124). -/
def execMul (rd rs1 rs2 : Reg) (s : State) : Host.Outcome State Fault Refusal :=
  accept (.mul rd rs1 rs2) none ⟨toPair rd (fullMul (s.reg rs1) (s.reg rs2)), .keep⟩ s

/-- SQR (R125): always the same as MUL rd, rs1, rs1. -/
def execSqr (rd rs1 : Reg) (s : State) : Host.Outcome State Fault Refusal :=
  accept (.sqr rd rs1) none ⟨toPair rd (fullMul (s.reg rs1) (s.reg rs1)), .keep⟩ s

/-- CMP (R126): no register is written. -/
def execCmp (rs1 rs2 : Reg) (s : State) : Host.Outcome State Fault Refusal :=
  accept (.cmp rs1 rs2) none ⟨[], compareFlags (s.reg rs1).toNat (s.reg rs2).toNat⟩ s

/-- BIT (R127). -/
def execBit (rd rs1 : Reg) (imm : BitVec 8) (s : State) : Host.Outcome State Fault Refusal :=
  accept (.bit rd rs1 imm) none ⟨toReg rd (bitValue (s.reg rs1) imm.toNat), .keep⟩ s

/-- MSB (R128). -/
def execMsb (rd rs1 : Reg) (s : State) : Host.Outcome State Fault Refusal :=
  accept (.msb rd rs1) none ⟨toReg rd (msbIndex (s.reg rs1)), .zero (s.reg rs1 == 0)⟩ s

/-- BSWAP (R129). -/
def execBswap (rd rs1 : Reg) (s : State) : Host.Outcome State Fault Refusal :=
  accept (.bswap rd rs1) none ⟨toReg rd (byteReverse (s.reg rs1)), .keep⟩ s

end Sys2Proof.Machine
end

