-- ==== Sys2Proof/Machine/Dispatch.lean ====
section
/-! DEFINITION. The dispatch: the acceptance of a decoded command by an engine that is IDLE and has no error
(spec/60_exceptions.md R250, point 3; log 17). Each arm is the command's own meaning. -/

namespace Sys2Proof.Machine

def exec (i : Instr) (s : State) : Host.Outcome State Fault Refusal :=
  match i with
  | .nop => Sys2Proof.Machine.execNop s
  | .mov rd rs1 => Sys2Proof.Machine.execMov rd rs1 s
  | .ldi rd imm => Sys2Proof.Machine.execLdi rd imm s
  | .ldk rd imm => Sys2Proof.Machine.execLdk rd imm s
  | .ldt rd imm => Sys2Proof.Machine.execLdt rd imm s
  | .add rd rs1 rs2 => Sys2Proof.Machine.execAdd rd rs1 rs2 s
  | .sub rd rs1 rs2 => Sys2Proof.Machine.execSub rd rs1 rs2 s
  | .addw rd rs1 rs2 => Sys2Proof.Machine.execAddw rd rs1 rs2 s
  | .subw rd rs1 rs2 => Sys2Proof.Machine.execSubw rd rs1 rs2 s
  | .mul rd rs1 rs2 => Sys2Proof.Machine.execMul rd rs1 rs2 s
  | .sqr rd rs1 => Sys2Proof.Machine.execSqr rd rs1 s
  | .cmp rs1 rs2 => Sys2Proof.Machine.execCmp rs1 rs2 s
  | .bit rd rs1 imm => Sys2Proof.Machine.execBit rd rs1 imm s
  | .msb rd rs1 => Sys2Proof.Machine.execMsb rd rs1 s
  | .bswap rd rs1 => Sys2Proof.Machine.execBswap rd rs1 s
  | .redp rd rs1 => Sys2Proof.Machine.execRedp rd rs1 s
  | .sinv rd rs1 => Sys2Proof.Machine.execSinv rd rs1 s
  | .pdbl rd rs1 => Sys2Proof.Machine.execPdbl rd rs1 s
  | .paddm rd rs1 rs2 => Sys2Proof.Machine.execPaddm rd rs1 rs2 s
  | .pmulg rd rs1 => Sys2Proof.Machine.execPmulg rd rs1 s

end Sys2Proof.Machine
end

