-- ==== Sys2Proof/Config.lean ====
section
/-! DEFINITION. What the spec leaves open: the window's base (spec/00_scope.md R9, log 8) and the words a host
reads from the register file while the engine is BUSY (spec/20_memory.md R67, log 6). -/

namespace Sys2Proof

/-- BASE in units of 4096 bytes, chosen by the platform (R9): open, so that every claim holds for every base. -/
opaque Config.basePage : Nat

/-- BASE, "4096-byte aligned" (R60). -/
def Config.base : Nat := 4096 * Config.basePage

/-- The draws a host gets when it reads a W word while BUSY (R67, U2), one for each read: a free value. -/
opaque Config.freeWord : Nat → Word

end Sys2Proof
end

