-- ==== Sys2Proof/Machine/Window.lean ====
section
/-! DEFINITION. The host window (spec/20_memory.md R60 to R67): its address map, the image of every register, and
the accesses that concern no command. -/

namespace Sys2Proof.Machine

/-- What stands at an offset of the window (R62). -/
inductive WindowReg where
  | id
  | ctrl
  | status
  | cmd
  | flags
  | errcode
  | errcmd
  | w (i : Reg) (j : Fin 8)
  | reserved
deriving DecidableEq, Repr

/-- The address map (R62); word j of W[i] at 0x100 + 0x20·i + 4·j (R61). -/
def windowReg (off : Offset) : WindowReg :=
  if off = 0x000 then .id
  else if off = 0x004 then .ctrl
  else if off = 0x008 then .status
  else if off = 0x00C then .cmd
  else if off = 0x010 then .flags
  else if off = 0x014 then .errcode
  else if off = 0x018 then .errcmd
  else if 0x100 ≤ off.toNat ∧ off.toNat < 0x300 then
    .w (Fin.ofNat 16 ((off.toNat - 0x100) / 0x20)) (Fin.ofNat 8 (off.toNat % 0x20 / 4))
  else .reserved

/-- The offset of CMD (R29). -/
def cmdOffset : Offset := 0x00C

/-- The offset of word j of W[i] (R61). -/
def wOffset (i : Reg) (j : Fin 8) : Offset := BitVec.ofNat 12 (0x100 + 0x20 * i.val + 4 * j.val)

/-- An access the block serves is 32 bits wide and 4-byte aligned (R65). -/
def legalAccess (off : Offset) (size : Nat) : Bool := size == 4 && off.toNat % 4 == 0

/-- The window offset of a bus address; none outside the window (R60). -/
def windowOffset (addr : Nat) : Option Offset :=
  if Config.base ≤ addr ∧ addr < Config.base + 4096 then some (BitVec.ofNat 12 (addr - Config.base)) else none

/-- `MemRead(addr, size)` as the input it gives the block; none where the address is outside the window (R60). -/
def memRead (addr size : Nat) : Option Input :=
  (windowOffset addr).map (fun off => .host (.read off size))

/-- `MemWrite(addr, size, v)` as the input it gives the block (R60). -/
def memWrite (addr size : Nat) (v : Word) : Option Input :=
  (windowOffset addr).map (fun off => .host (.write off size v))

/-! Register images. -/

/-- The constant of ID (R31). -/
def idWord : Word := 0x4F504501

/-- CTRL reads its two IE bits (R27). -/
def State.ctrlWord (s : State) : Word := BitVec.ofNat 32 (s.ieDone.toNat + 2 * s.ieErr.toNat)

/-- STATUS: BUSY, DONE, ERR, IRQ in bits 0 to 3 (R28). -/
def State.statusWord (s : State) : Word :=
  BitVec.ofNat 32 (s.busy.toNat + 2 * s.done.toNat + 4 * s.err.toNat + 8 * s.irq.toNat)

/-- The number of an error code (R30). -/
def ErrorCode.number : ErrorCode → Nat
  | .noError => 0
  | .illegalOpcode => 1
  | .illegalField => 2
  | .range => 3
  | .overrun => 4

/-- ERRCODE: CODE in bits 3:0, REG in bits 11:8 (R30). -/
def State.errCodeWord (s : State) : Word := BitVec.ofNat 32 (s.errCode.number + 2 ^ 8 * s.errReg.val)

/-- What the window holds at a place, when its W words can be read: CMD and reserved places read 0 (R29, R63). -/
def State.image (s : State) : WindowReg → Word
  | .id => idWord
  | .ctrl => s.ctrlWord
  | .status => s.statusWord
  | .cmd => 0
  | .flags => s.flags.toWord
  | .errcode => s.errCodeWord
  | .errcmd => s.errCmd
  | .w i j => getWord (s.reg i) j
  | .reserved => 0

/-- A host read (R61, R66): no side effect. A W word read while BUSY gives a free draw (R67). -/
def State.serveRead (s : State) (off : Offset) : State :=
  match windowReg off, s.busy with
  | .w _ _, true => { s with reply := .data (Config.freeWord s.draws), draws := s.draws + 1 }
  | place, _ => { s with reply := .data (s.image place) }

/-- A host write to CTRL (R27): the IE bits take bits 1:0; bit 8 clears DONE; bit 9 clears the error. -/
def State.writeCtrl (s : State) (v : Word) : State :=
  let s1 := { s with ieDone := v.getLsbD 0, ieErr := v.getLsbD 1 }
  let s2 := if v.getLsbD 8 then s1.clearDone else s1
  if v.getLsbD 9 then s2.clearError else s2

/-- A host write discarded while BUSY: OVERRUN, ERRCMD the byte offset of the write (R258). -/
def State.overrun (s : State) (off : Offset) : State := s.recordError .overrun 0 (off.setWidth 32)

end Sys2Proof.Machine
end

