-- ==== Sys2Proof/Machine/Bus.lean ====
section
/-! DEFINITION. One host access (spec/20_memory.md R65, R66) and the presentation of a command
(spec/60_exceptions.md R250, R262); the RESET input (spec/70_reset_and_hazards.md R280). -/

namespace Sys2Proof.Machine

/-- The error code of a decode error (R253). -/
def decodeErrorCode : DecodeError → ErrorCode
  | .illegalOpcode => .illegalOpcode
  | .illegalField => .illegalField

/-- A host write of w to CMD does exactly one of these, in this order (R250, R262): OVERRUN while BUSY; silent
discard while in error (R260); the abort of a word that is no command (R254, R255); the acceptance of the command. -/
def presentCommand (w : Word) (s : State) : Host.Outcome State Fault Refusal :=
  if s.busy then .next (s.overrun cmdOffset)
  else if s.err then .next s
  else
    match decode w with
    | .error e => .next (s.abort (decodeErrorCode e) 0 w)
    | .ok i => exec i s

/-- A host write of 32 bits. Writes to read-only and reserved places have no effect (R63). -/
def serveWrite (off : Offset) (v : Word) (s : State) : Host.Outcome State Fault Refusal :=
  match windowReg off with
  | .cmd => presentCommand v s
  | .ctrl => .next (s.writeCtrl v)
  | .w i j => .next (if s.busy then s.overrun off else s.setWord i j v)
  | .id => .next s
  | .status => .next s
  | .flags => .next s
  | .errcode => .next s
  | .errcmd => .next s
  | .reserved => .next s

/-- One host access. One that is not 32 bits wide or not aligned is a HostBusError, with the bus address (R65). -/
def serveAccess (a : Access) (s : State) : Host.Outcome State Fault Refusal :=
  match a with
  | .read off size =>
    if legalAccess off size then .next (s.serveRead off)
    else .fault (.hostBusError (Config.base + off.toNat) size)
  | .write off size v =>
    if legalAccess off size then serveWrite off v { s with reply := .ack }
    else .fault (.hostBusError (Config.base + off.toNat) size)

/-- RESET sets every piece of the spec's state to its reset value, also while BUSY (R280, R281); the model's own
fields go on (log 16). -/
def State.applyReset (s : State) : State :=
  { State.reset with inputs := s.inputs, reply := s.reply, draws := s.draws }

end Sys2Proof.Machine
end

