-- ==== Sys2Proof/Machine/Step.lean ====
section
/-! DEFINITION. One step of the total order of host accesses, engine steps and resets (spec/20_memory.md R69). -/

namespace Sys2Proof.Machine

/-- The next input is taken and served. When none is left the engine, if BUSY, completes: that is the weak fairness
of R294; an IDLE engine waits for the host (R282). -/
def step (s : State) : Host.Outcome State Fault Refusal :=
  match s.inputs with
  | [] => .next s.complete
  | .engine :: rest => .next { s with inputs := rest }.complete
  | .reset :: rest => .next { s with inputs := rest }.applyReset
  | .host a :: rest => serveAccess a { s with inputs := rest }

/-- `s` with the host's next access a write of the command word to CMD, presented to an engine that is IDLE and has
no error, so that the next step runs it (log 7). -/
def State.withFetchWord (s : State) (nbits w : Nat) : State :=
  { s with
    engine := .idle
    err := false
    errCode := .noError
    errReg := 0
    errCmd := 0
    inputs := .host (.write cmdOffset 4 (BitVec.ofNat 32 (w % 2 ^ nbits))) :: s.inputs }

end Sys2Proof.Machine
end

