-- ==== Sys2Proof/Machine/Limbs.lean ====
section
/-! DEFINITION. The source's limb algorithms (spec/40_wide_integer.md R131): 64-bit limbs, least significant first,
ripple-carry add, ripple-borrow subtract, and partial products summed with carry propagation. No meaning uses them;
R131 says that they give the values of R120 to R125, which is stated as obligations. -/

namespace Sys2Proof.Machine

/-- The `k` limbs of a value, least significant first (R8). -/
def toLimbs : Nat → Nat → List Nat
  | 0, _ => []
  | k + 1, v => v % 2 ^ 64 :: toLimbs k (v / 2 ^ 64)

/-- The value of a list of limbs. -/
def ofLimbs : List Nat → Nat
  | [] => 0
  | a :: as => a + 2 ^ 64 * ofLimbs as

/-- Ripple-carry add: the limbs of the sum and the carry out. -/
def rippleAdd (c : Nat) : List Nat → List Nat → List Nat × Nat
  | a :: as, b :: bs =>
    let t := a + b + c
    let rest := rippleAdd (t / 2 ^ 64) as bs
    (t % 2 ^ 64 :: rest.1, rest.2)
  | _, _ => ([], c)

/-- Ripple-borrow subtract: the limbs of the difference and the borrow out, 1 iff the last difference was negative. -/
def rippleSub (c : Nat) : List Nat → List Nat → List Nat × Nat
  | a :: as, b :: bs =>
    let rest := rippleSub (if a < b + c then 1 else 0) as bs
    ((2 ^ 64 + a - b - c) % 2 ^ 64 :: rest.1, rest.2)
  | _, _ => ([], c)

/-- One row of partial products a·b_j added into the accumulator's limbs, with carry propagation. -/
def mulRow (a c : Nat) : List Nat → List Nat → List Nat
  | b :: bs, x :: xs =>
    let t := a * b + x + c
    t % 2 ^ 64 :: mulRow a (t / 2 ^ 64) bs xs
  | [], x :: xs => (x + c) % 2 ^ 64 :: mulRow a ((x + c) / 2 ^ 64) [] xs
  | _, [] => []

/-- The schoolbook product: the row of each limb of the first operand, at its weight, into the accumulator. -/
def mulLimbs : List Nat → List Nat → List Nat → List Nat
  | a :: as, bs, acc =>
    match mulRow a 0 bs acc with
    | x :: xs => x :: mulLimbs as bs xs
    | [] => []
  | [], _, acc => acc

end Sys2Proof.Machine
end

