-- ==== Sys2Proof/Machine/Assembler.lean ====
section
/-! DEFINITION. The assembler's syntax and pseudo-instructions (spec/30_encoding.md R100, R101). The block sees only
the commands; text is a list of characters, so that the kernel can read it (log 18). -/

namespace Sys2Proof.Machine

/-- The pseudo-instructions (R101). -/
inductive Pseudo where
  | clr (d : Reg)
  | ldone (d : Reg)
  | ldg (d : Reg)
  | ldgj (d : Reg)
  | fmul (d a b t : Reg)
  | fsqr (d a t : Reg)
  | frombe (d s : Reg)
deriving DecidableEq, Repr

/-- The bounds that the notes of R101 give: the base of an affine pair, of a Jacobian triple, of an even pair. -/
def Pseudo.wf : Pseudo → Bool
  | .clr _ => true
  | .ldone _ => true
  | .ldg d => d.affBase
  | .ldgj d => d.jacBase
  | .fmul _ _ _ t => t.pairBase
  | .fsqr _ _ t => t.pairBase
  | .frombe _ _ => true

/-- The column "expansion" of R101; `expand` takes it only within the bounds. -/
def Pseudo.commands : Pseudo → List Instr
  | .clr d => [.ldi d 0]
  | .ldone d => [.ldi d 1]
  | .ldg d => [.ldt d 1]
  | .ldgj d => [.ldt d 1, .ldi (d + 2) 1]
  | .fmul d a b t => [.mul t a b, .redp d t]
  | .fsqr d a t => [.sqr t a, .redp d t]
  | .frombe d s => [.bswap d s]

/-- The commands a pseudo-instruction expands to (R101); outside its bounds it has no expansion (log 18). -/
def Pseudo.expand (q : Pseudo) : Option (List Instr) := if q.wf then some q.commands else none

/-- An operand as written (R100): a register or an immediate. -/
inductive Operand where
  | reg (r : Reg)
  | imm (v : BitVec 8)
deriving DecidableEq, Repr

/-- What a line may begin with. -/
inductive Mnemonic where
  | nop | mov | ldi | ldk | ldt | add | sub | addw | subw | mul | sqr | cmp | bit | msb | bswap | redp | sinv
  | pdbl | paddm | pmulg | clr | ldone | ldg | ldgj | fmul | fsqr | frombe
deriving DecidableEq, Repr

/-- The spelling of each mnemonic (R96, R101). -/
def mnemonics : List (List Char × Mnemonic) := [
  (['N', 'O', 'P'], .nop), (['M', 'O', 'V'], .mov), (['L', 'D', 'I'], .ldi), (['L', 'D', 'K'], .ldk),
  (['L', 'D', 'T'], .ldt), (['A', 'D', 'D'], .add), (['S', 'U', 'B'], .sub), (['A', 'D', 'D', 'W'], .addw),
  (['S', 'U', 'B', 'W'], .subw), (['M', 'U', 'L'], .mul), (['S', 'Q', 'R'], .sqr), (['C', 'M', 'P'], .cmp),
  (['B', 'I', 'T'], .bit), (['M', 'S', 'B'], .msb), (['B', 'S', 'W', 'A', 'P'], .bswap),
  (['R', 'E', 'D', 'P'], .redp), (['S', 'I', 'N', 'V'], .sinv), (['P', 'D', 'B', 'L'], .pdbl),
  (['P', 'A', 'D', 'D', 'M'], .paddm), (['P', 'M', 'U', 'L', 'G'], .pmulg), (['C', 'L', 'R'], .clr),
  (['L', 'D', 'O', 'N', 'E'], .ldone), (['L', 'D', 'G'], .ldg), (['L', 'D', 'G', 'J'], .ldgj),
  (['F', 'M', 'U', 'L'], .fmul), (['F', 'S', 'Q', 'R'], .fsqr), (['F', 'R', 'O', 'M', 'B', 'E'], .frombe)]

/-- The commands of a line, its operands in the order RD, RS1, RS2, IMM8 without the unused ones (R95, R100). -/
def lineCommands : Mnemonic → List Operand → Option (List Instr)
  | .nop, [] => some [.nop]
  | .mov, [.reg d, .reg s] => some [.mov d s]
  | .ldi, [.reg d, .imm v] => some [.ldi d v]
  | .ldk, [.reg d, .imm v] => some [.ldk d v]
  | .ldt, [.reg d, .imm v] => some [.ldt d v]
  | .add, [.reg d, .reg s, .reg t] => some [.add d s t]
  | .sub, [.reg d, .reg s, .reg t] => some [.sub d s t]
  | .addw, [.reg d, .reg s, .reg t] => some [.addw d s t]
  | .subw, [.reg d, .reg s, .reg t] => some [.subw d s t]
  | .mul, [.reg d, .reg s, .reg t] => some [.mul d s t]
  | .sqr, [.reg d, .reg s] => some [.sqr d s]
  | .cmp, [.reg s, .reg t] => some [.cmp s t]
  | .bit, [.reg d, .reg s, .imm v] => some [.bit d s v]
  | .msb, [.reg d, .reg s] => some [.msb d s]
  | .bswap, [.reg d, .reg s] => some [.bswap d s]
  | .redp, [.reg d, .reg s] => some [.redp d s]
  | .sinv, [.reg d, .reg s] => some [.sinv d s]
  | .pdbl, [.reg d, .reg s] => some [.pdbl d s]
  | .paddm, [.reg d, .reg s, .reg t] => some [.paddm d s t]
  | .pmulg, [.reg d, .reg s] => some [.pmulg d s]
  | .clr, [.reg d] => (Pseudo.clr d).expand
  | .ldone, [.reg d] => (Pseudo.ldone d).expand
  | .ldg, [.reg d] => (Pseudo.ldg d).expand
  | .ldgj, [.reg d] => (Pseudo.ldgj d).expand
  | .fmul, [.reg d, .reg a, .reg b, .reg t] => (Pseudo.fmul d a b t).expand
  | .fsqr, [.reg d, .reg a, .reg t] => (Pseudo.fsqr d a t).expand
  | .frombe, [.reg d, .reg s] => (Pseudo.frombe d s).expand
  | _, _ => none

/-! Reading the text of a line. -/

/-- The value of a digit of the base. -/
def digit? (base : Nat) (c : Char) : Option Nat :=
  let k := c.toNat
  let v :=
    if 48 ≤ k ∧ k ≤ 57 then k - 48
    else if 65 ≤ k ∧ k ≤ 70 then k - 55
    else if 97 ≤ k ∧ k ≤ 102 then k - 87
    else base
  if v < base then some v else none

/-- A non-empty run of digits, most significant first. -/
def number? (base : Nat) (cs : List Char) : Option Nat :=
  match cs with
  | [] => none
  | _ => cs.foldl (fun acc c => do return base * (← acc) + (← digit? base c)) (some 0)

/-- An operand: `W0` to `W15`, or an immediate 0 to 255, decimal or after `0x` hexadecimal (R100). -/
def operand? (cs : List Char) : Option Operand :=
  match cs with
  | 'W' :: ds => do
    let k ← number? 10 ds
    if k < 16 then some (.reg (Fin.ofNat 16 k)) else none
  | '0' :: 'x' :: ds => do
    let k ← number? 16 ds
    if k < 256 then some (.imm (BitVec.ofNat 8 k)) else none
  | ds => do
    let k ← number? 10 ds
    if k < 256 then some (.imm (BitVec.ofNat 8 k)) else none

/-- The text before a comment, which `;` starts (R100). -/
def dropComment (cs : List Char) : List Char := cs.takeWhile (fun c => !(c == ';'))

/-- The text without the blanks at both ends. -/
def trim (cs : List Char) : List Char :=
  ((cs.dropWhile (fun c => c == ' ')).reverse.dropWhile (fun c => c == ' ')).reverse

/-- The pieces between the commas. -/
def splitCommas : List Char → List (List Char)
  | [] => [[]]
  | c :: cs =>
    if c == ',' then [] :: splitCommas cs
    else
      match splitCommas cs with
      | piece :: rest => (c :: piece) :: rest
      | [] => [[c]]

/-- A list of operands, all of which must be well written. -/
def operands? : List (List Char) → Option (List Operand)
  | [] => some []
  | piece :: rest => do return (← operand? (trim piece)) :: (← operands? rest)

/-- One line: `MNEMONIC operands` (R100). The result is the commands it stands for; a blank line has none. -/
def assembleLine (line : List Char) : Option (List Instr) :=
  let text := trim (dropComment line)
  match text with
  | [] => some []
  | _ => do
    let word := text.takeWhile (fun c => !(c == ' '))
    let rest := trim (text.dropWhile (fun c => !(c == ' ')))
    let (_, m) ← mnemonics.find? (fun e => e.1 == word)
    let ops ← match rest with
      | [] => some []
      | _ => operands? (splitCommas rest)
    lineCommands m ops

end Sys2Proof.Machine
end

