-- ==== Sys2Proof/Safety.lean ====
section
/-! DEFINITION. The terms the claims use: what an uninitialised read is, what a state keeps, the invariant of the
machine, and the opcode map as the spec prints it. -/

namespace Sys2Proof.Machine

/-! Uninitialised reads (spec/10_state.md R40, spec/60_exceptions.md R272). -/

/-- The register whose read in the next step the spec calls `UninitRead`: a command that is accepted, up to its range
checks, reads an operand register that has no value, or the host reads a word that has none (R40, R250). -/
def State.uninitRead (s : State) : Option Reg :=
  match s.inputs with
  | .host (.read off size) :: _ =>
    if legalAccess off size && !s.busy then
      match windowReg off with
      | .w i j => if s.hasWord i j then none else some i
      | _ => none
    else none
  | .host (.write off size v) :: _ =>
    if legalAccess off size && windowReg off == .cmd && !s.busy && !s.err then
      match decode v with
      | .ok i => (sources i).find? (fun r => !s.hasValue r)
      | .error _ => none
    else none
  | _ => none

/-- Two states that agree on everything but the contents of register words that have no value. -/
def AgreeOnValued (s t : State) : Prop :=
  t = { s with w := t.w } ∧
    ∀ (r : Reg) (j : Fin 8), s.hasWord r j = true → getWord (s.reg r) j = getWord (t.reg r) j

/-! What a command keeps. -/

/-- The acceptance step of a command that starts (R251): DONE is cleared and the engine holds the command and the
values of its operand registers; every other part of the state is as before. -/
def Started (i : Instr) (s t : State) : Prop :=
  ∃ r : Result, t = { s with done := false, engine := .busy ⟨i, (sources i).map s.reg, r⟩ }

/-- The frame of a completed command whose destination registers are `rs`: every other register, every control and
error register and the rest of the window are unchanged; the destinations have a value; DONE = 1 and BUSY = 0. STATUS
and FLAGS change only in DONE (and the IRQ that DONE drives) and in the flags the claim names. -/
def KeepsAllBut (rs : List Reg) (s u : State) : Prop :=
  (∀ r, r ∉ rs → u.reg r = s.reg r ∧ ∀ j, u.hasWord r j = s.hasWord r j) ∧
  (∀ r, r ∈ rs → u.hasValue r = true) ∧
  u.ieDone = s.ieDone ∧ u.ieErr = s.ieErr ∧
  u.err = s.err ∧ u.errCode = s.errCode ∧ u.errReg = s.errReg ∧ u.errCmd = s.errCmd ∧
  u.done = true ∧ u.engine = .idle ∧
  u.inputs = s.inputs ∧ u.reply = s.reply ∧ u.draws = s.draws ∧
  ∀ place, (∀ r, r ∈ rs → ∀ j, place ≠ .w r j) → place ≠ .status → place ≠ .flags →
    u.image place = s.image place

/-- The abort of a command at acceptance, from a state with no error (R252, R257): DONE and ERR are set, ERRCODE and
ERRCMD record the error, and nothing else changes. -/
def Aborted (code : ErrorCode) (reg : Reg) (w : Word) (s : State) : State :=
  { s with done := true, err := true, errCode := code, errReg := reg, errCmd := w }

/-- The engine is IDLE and no error is recorded: a CMD write is decoded and checked (R250, point 3). -/
def State.ready (s : State) : Prop := s.engine = .idle ∧ s.err = false

/-- The commands of a list, each issued after the one before it completed (R288). -/
def runCommands : List Instr → State → Option State
  | [], s => some s
  | i :: is, s =>
    match exec i s with
    | .next t => runCommands is t.complete
    | .fault _ => none
    | .refused _ => none

/-- The host's write of 32 bits at an offset. -/
def hostWrite (off : Offset) (v : Word) : Input := .host (.write off 4 v)

/-- The host's read of 32 bits at an offset. -/
def hostRead (off : Offset) : Input := .host (.read off 4)

/-- The host's write of a command word to CMD (R29). -/
def cmdWrite (w : Word) : Input := hostWrite 0x00C w

/-- The host's write to CTRL (R27). -/
def ctrlWrite (v : Word) : Input := hostWrite 0x004 v

/-- The offset of word j of W[i] (R61). -/
def wordAt (i : Reg) (j : Fin 8) : Offset := BitVec.ofNat 12 (0x100 + 0x20 * i.val + 4 * j.val)

/-- The next input is RESET. -/
def State.atReset (s : State) : Prop := ∃ rest, s.inputs = .reset :: rest

/-- The OPC values that no command has (R97). -/
def unassignedOpcode (o : Nat) : Bool :=
  (0x05 ≤ o && o ≤ 0x0F) || (0x1A ≤ o && o ≤ 0x1F) || (0x21 ≤ o && o ≤ 0x27) || (0x29 ≤ o && o ≤ 0x2F)
    || (0x32 ≤ o && o ≤ 0x37) || (0x39 ≤ o && o ≤ 0xFF)

/-- The operands that are checked at acceptance, in order, and their bound (R256); no other command checks values. -/
def rangeTable : Instr → Option (Nat × List Reg)
  | .sinv _ rs1 => some (n, [rs1])
  | .pmulg _ rs1 => some (n, [rs1])
  | .pdbl _ rs1 => some (p, [rs1, rs1 + 1, rs1 + 2])
  | .paddm _ rs1 rs2 => some (p, [rs1, rs1 + 1, rs1 + 2, rs2, rs2 + 1])
  | _ => none

/-- The first register that a command's check finds out of range (R256). -/
def firstOutOfRange (i : Instr) (s : State) : Option Reg :=
  match rangeTable i with
  | none => none
  | some (bound, rs) => rs.find? (fun r => bound ≤ (s.reg r).toNat)

/-! The invariant. -/

/-- The flags a command writes (R25, R26). -/
def flagKind (i : Instr) (fw : FlagWrite) : Prop :=
  match i with
  | .add _ _ _ => ∃ c, fw = .carry c
  | .sub _ _ _ => ∃ c, fw = .carry c
  | .addw _ _ _ => ∃ c, fw = .carry c
  | .subw _ _ _ => ∃ c, fw = .carry c
  | .cmp _ _ => fw = .compare true false false ∨ fw = .compare false true false ∨ fw = .compare false false true
  | .msb _ _ => ∃ z, fw = .zero z
  | _ => fw = .keep

/-- What the engine holds is one accepted command (R36): legal fields, one value for each operand register, and
pending results for exactly its destination registers and flags (R37). -/
def InFlight.legal (f : InFlight) : Prop :=
  f.cmd.wf = true ∧ f.operands.length = (sources f.cmd).length ∧
    f.result.writes.map Prod.fst = dests f.cmd ∧ flagKind f.cmd f.result.flags

/-- LT, EQ and GT: none is 1 before the first CMP, exactly one after it (R25). -/
def Flags.compareLegal (f : Flags) : Prop :=
  (f.lt = false ∨ f.eq = false) ∧ (f.lt = false ∨ f.gt = false) ∧ (f.eq = false ∨ f.gt = false)

/-- What ERRCODE, REG and ERRCMD say of each other (R30, R32, R253 to R258): ERR is 1 iff a code is recorded; REG and
ERRCMD are 0 without an error; the recorded word is one that the code is raised for; an overrun records an offset. -/
def State.errorLegal (s : State) : Prop :=
  match s.errCode with
  | .noError => s.err = false ∧ s.errReg = 0 ∧ s.errCmd = 0
  | .illegalOpcode => s.err = true ∧ s.errReg = 0 ∧ decode s.errCmd = .error .illegalOpcode
  | .illegalField => s.err = true ∧ s.errReg = 0 ∧ decode s.errCmd = .error .illegalField
  | .range => s.err = true ∧ ∃ i, decode s.errCmd = .ok i ∧ s.errReg ∈ sources i
  | .overrun => s.err = true ∧ s.errReg = 0 ∧
      (s.errCmd = cmdOffset.setWidth 32 ∨ ∃ i j, s.errCmd = (wOffset i j).setWidth 32)

/-- What the engine phase says of DONE and of the error (R251, R258, R265): while BUSY, DONE is 0, the command is
legal, and the only error there can be is an overrun. -/
def State.engineLegal (s : State) : Prop :=
  match s.engine with
  | .idle => True
  | .busy f => f.legal ∧ s.done = false ∧ (s.err = true → s.errCode = .overrun)

/-- The invariant of the machine. -/
structure State.Inv (s : State) : Prop where
  flags : s.flags.compareLegal
  error : s.errorLegal
  engine : s.engineLegal

/-- No input is a refused bus access (R65): a run over such inputs never stops. -/
def LegalInputs (l : List Input) : Prop :=
  ∀ x ∈ l, match x with
    | .host (.read off size) => legalAccess off size = true
    | .host (.write off size _) => legalAccess off size = true
    | .engine => True
    | .reset => True

/-! The opcode map as the spec prints it (spec/30_encoding.md R96), with its masks. -/

/-- A row: the columns "match" and "mask", and the command whose fields are the slices of R90. -/
structure MapRow where
  mtch : Word
  mask : Word
  make : Word → Instr

/-- The fields of R90, as slices of the word. -/
def sliceRd (w : Word) : Reg := (w.extractLsb' 20 4).toFin
def sliceRs1 (w : Word) : Reg := (w.extractLsb' 16 4).toFin
def sliceRs2 (w : Word) : Reg := (w.extractLsb' 12 4).toFin
def sliceImm (w : Word) : BitVec 8 := w.extractLsb' 0 8

/-- The 20 rows of R96. -/
def mapRows : List MapRow := [
  ⟨0x00000000, 0xFFFFFFFF, fun _ => .nop⟩,
  ⟨0x01000000, 0xFF00FFFF, fun w => .mov (sliceRd w) (sliceRs1 w)⟩,
  ⟨0x02000000, 0xFF0FFF00, fun w => .ldi (sliceRd w) (sliceImm w)⟩,
  ⟨0x03000000, 0xFF0FFF00, fun w => .ldk (sliceRd w) (sliceImm w)⟩,
  ⟨0x04000000, 0xFF0FFF00, fun w => .ldt (sliceRd w) (sliceImm w)⟩,
  ⟨0x10000000, 0xFF000FFF, fun w => .add (sliceRd w) (sliceRs1 w) (sliceRs2 w)⟩,
  ⟨0x11000000, 0xFF000FFF, fun w => .sub (sliceRd w) (sliceRs1 w) (sliceRs2 w)⟩,
  ⟨0x12000000, 0xFF000FFF, fun w => .addw (sliceRd w) (sliceRs1 w) (sliceRs2 w)⟩,
  ⟨0x13000000, 0xFF000FFF, fun w => .subw (sliceRd w) (sliceRs1 w) (sliceRs2 w)⟩,
  ⟨0x14000000, 0xFF000FFF, fun w => .mul (sliceRd w) (sliceRs1 w) (sliceRs2 w)⟩,
  ⟨0x15000000, 0xFF00FFFF, fun w => .sqr (sliceRd w) (sliceRs1 w)⟩,
  ⟨0x16000000, 0xFFF00FFF, fun w => .cmp (sliceRs1 w) (sliceRs2 w)⟩,
  ⟨0x17000000, 0xFF00FF00, fun w => .bit (sliceRd w) (sliceRs1 w) (sliceImm w)⟩,
  ⟨0x18000000, 0xFF00FFFF, fun w => .msb (sliceRd w) (sliceRs1 w)⟩,
  ⟨0x19000000, 0xFF00FFFF, fun w => .bswap (sliceRd w) (sliceRs1 w)⟩,
  ⟨0x20000000, 0xFF00FFFF, fun w => .redp (sliceRd w) (sliceRs1 w)⟩,
  ⟨0x28000000, 0xFF00FFFF, fun w => .sinv (sliceRd w) (sliceRs1 w)⟩,
  ⟨0x30000000, 0xFF00FFFF, fun w => .pdbl (sliceRd w) (sliceRs1 w)⟩,
  ⟨0x31000000, 0xFF000FFF, fun w => .paddm (sliceRd w) (sliceRs1 w) (sliceRs2 w)⟩,
  ⟨0x38000000, 0xFF00FFFF, fun w => .pmulg (sliceRd w) (sliceRs1 w)⟩]

end Sys2Proof.Machine
end

