-- ==== Sys2Proof/Safety/Group.lean ====
section
/-! DEFINITION. The secp256k1 group (spec/00_scope.md R3) and what it means that a triple or a pair denotes a point
(spec/00_scope.md R14, spec/43_point.md R190, R195). The group is Mathlib's, on the nonsingular points of the curve. -/

namespace Sys2Proof.Machine

/-- y² = x³ + 7 over the integers modulo p: "no curve a term" (R3). -/
def curve : WeierstrassCurve.Affine (ZMod p) := ⟨0, 0, 0, 0, 7⟩

/-- The triple denotes the point: Z = 0 the point at infinity; otherwise x = X/Z², y = Y/Z³ (R14). -/
def Jac.Denotes (P : Jac) (A : curve.Point) : Prop :=
  match A with
  | .zero => P.z = 0
  | .some x y _ => P.z ≠ 0 ∧ (P.x : ZMod p) = x * (P.z : ZMod p) ^ 2 ∧ (P.y : ZMod p) = y * (P.z : ZMod p) ^ 3

/-- The pair denotes the finite point with these coordinates. -/
def Aff.Denotes (Q : Aff) (A : curve.Point) : Prop :=
  match A with
  | .zero => False
  | .some x y _ => (Q.x : ZMod p) = x ∧ (Q.y : ZMod p) = y

/-- The coordinates are field elements (R14, R164). -/
def Jac.reduced (P : Jac) : Prop := P.x < p ∧ P.y < p ∧ P.z < p

/-- The coordinates are field elements. -/
def Aff.reduced (Q : Aff) : Prop := Q.x < p ∧ Q.y < p

/-- The accumulator that `mulg` hands to its addition for byte i, after the eight doublings (R210). -/
def mulgAcc (k : Nat) : Nat → Jac
  | 0 => dblTimes 8 inf
  | i + 1 => dblTimes 8 (addEntry (mulgAcc k i) (scalarByte k (31 - i)))

end Sys2Proof.Machine
end

