-- ==== Sys2Proof/Certificates/Slice0/Obligations.lean ====
section
/-! DEFINITION. The statements about OPAL-EC, one definition each. A statement about a command has three parts:
its encoding with the words that raise ILLEGAL_FIELD, its acceptance (`exec` answers a next state in which the engine
holds the command, R251), and its completion (the results and the frame, R259). -/

open Sys2Proof Sys2Proof.Machine

/-! ## Encoding -/

/-- Decoding the encoding of a legal command gives it back, with every field at every value. -/
def Obligations.DecodeOfEncodeIsTheCommand : Prop :=
  ∀ i : Instr, i.wf = true → decode (encode i) = .ok i

/-- A word that decodes is the encoding of its command, which is legal: each word has one meaning (R92, R99). -/
def Obligations.EncodeOfDecodeIsTheWord : Prop :=
  ∀ (w : Word) (i : Instr), decode w = .ok i → encode i = w ∧ i.wf = true

/-- R96: a word is the named command iff `(word & mask) == match` and the constraint holds, for the 20 rows of the
map as the spec prints it; no word is in two rows. -/
def Obligations.DecodeFollowsTheOpcodeMap : Prop :=
  (∀ (w : Word) (i : Instr),
    decode w = .ok i ↔ ∃ r ∈ mapRows, w &&& r.mask = r.mtch ∧ r.make w = i ∧ i.wf = true) ∧
  mapRows.length = 20 ∧
  mapRows.Pairwise (fun a b => ∀ w : Word, ¬ (w &&& a.mask = a.mtch ∧ w &&& b.mask = b.mtch))

/-- R97: the 236 unassigned opcodes, whatever the other fields hold; a legal opcode whose fields break R92 or R93; and
the only word that is NOP. -/
def Obligations.RejectedWordsAreRejectedByName : Prop :=
  (∀ w : Word, decode w = .error .illegalOpcode ↔ unassignedOpcode (w.extractLsb' 24 8).toNat = true) ∧
  (∀ w : Word, decode w = .error .illegalField ↔
    unassignedOpcode (w.extractLsb' 24 8).toNat = false ∧
      ∀ r ∈ mapRows, ¬ (w &&& r.mask = r.mtch ∧ (r.make w).wf = true)) ∧
  ((List.range 256).filter unassignedOpcode).length = 236 ∧
  (∀ w : Word, decode w = .ok .nop ↔ w = 0)

/-- A word of each family, written out from the spec's encoding, decodes to the command it stands for. -/
def Obligations.SpecWordsDecodeToTheirCommands : Prop :=
  decode 0x00000000 = .ok .nop ∧
  decode 0x04E000FF = .ok (.ldt 14 255) ∧
  decode 0x10201000 = .ok (.add 2 0 1) ∧
  decode 0x170100FF = .ok (.bit 0 1 255) ∧
  decode 0x20420000 = .ok (.redp 4 2) ∧
  decode 0x28100000 = .ok (.sinv 1 0) ∧
  decode 0x31740000 = .ok (.paddm 7 4 0) ∧
  decode 0x38100000 = .ok (.pmulg 1 0)

/-! ## Presenting a command -/

/-- The step of a CMD write to an IDLE engine with no error runs the decoded command: the write is taken from the
inputs and acknowledged, and `exec` does the rest. -/
def Obligations.StepRunsTheDecodedCommand : Prop :=
  ∀ (s : State) (w : Word) (i : Instr) (rest : List Input),
    s.ready → s.inputs = cmdWrite w :: rest → decode w = .ok i →
      step s = exec i { s with inputs := rest, reply := .ack }

/-- R254, R255: ILLEGAL_OPCODE for a word with one of the 236 unassigned opcodes, its other fields not examined;
ILLEGAL_FIELD for a word with a legal opcode that breaks R92 or R93, with the five examples of R255. Both are the abort
of R252: DONE, ERR, ERRCODE and ERRCMD are written, the engine stays IDLE, and nothing else changes. -/
def Obligations.IllegalWordsAreAborted : Prop :=
  ((List.range 256).filter unassignedOpcode).length = 236 ∧
  ∀ (s : State) (w : Word) (rest : List Input), s.ready → s.inputs = cmdWrite w :: rest →
    (unassignedOpcode (w.extractLsb' 24 8).toNat = true →
      step s = .next (Aborted .illegalOpcode 0 w { s with inputs := rest, reply := .ack })) ∧
    ((unassignedOpcode (w.extractLsb' 24 8).toNat = false ∧
          ∀ r ∈ mapRows, ¬ (w &&& r.mask = r.mtch ∧ (r.make w).wf = true)) ∨
        w = 0x10201100 ∨ w = 0x14312000 ∨ w = 0x30E00000 ∨ w = 0x03000005 ∨ w = 0x04000000 →
      step s = .next (Aborted .illegalField 0 w { s with inputs := rest, reply := .ack }))

/-- R256: for a legal command, RANGE with the index of the first register of the table that is not below its bound;
a command with no register out of range starts, and no command outside the table checks a value. -/
def Obligations.RangeNamesTheFirstOperandOutOfBounds : Prop :=
  ∀ (i : Instr) (s : State), i.wf = true → s.err = false →
    match firstOutOfRange i s with
    | some r => exec i s = .next (Aborted .range r (encode i) s)
    | none => ∃ t, exec i s = .next t ∧ Started i s t

/-- R250, R262: a CMD write does exactly one of these, in this order: OVERRUN while BUSY; discarded with no other
effect while in error; an abort whose code is that of the first check that fails; the start of the command. -/
def Obligations.CmdWriteHasOneOutcome : Prop :=
  ∀ (s : State) (w : Word) (rest : List Input), s.inputs = cmdWrite w :: rest →
    let s0 : State := { s with inputs := rest, reply := .ack }
    (s.busy = true → step s = .next (s0.overrun 0x00C)) ∧
    (s.busy = false → s.err = true → step s = .next s0) ∧
    (s.busy = false → s.err = false →
      match decode w with
      | .error .illegalOpcode => step s = .next (Aborted .illegalOpcode 0 w s0)
      | .error .illegalField => step s = .next (Aborted .illegalField 0 w s0)
      | .ok i =>
        match firstOutOfRange i s with
        | some r => step s = .next (Aborted .range r w s0)
        | none => ∃ t, step s = .next t ∧ Started i s0 t)

/-! ## Errors and the status protocol -/

/-- R258: a write to CMD or to the W region while BUSY is discarded; the first error is recorded with the byte offset;
the running command completes normally; DONE is not changed; a read of a W word is no error and returns a draw. -/
def Obligations.OverrunDiscardsTheWrite : Prop :=
  ∀ (s : State) (f : InFlight) (off : Offset) (rest : List Input),
    s.engine = .busy f → off.toNat % 4 = 0 →
    (∀ v : Word, s.inputs = hostWrite off v :: rest →
      (off = 0x00C ∨ (0x100 ≤ off.toNat ∧ off.toNat < 0x300)) →
      ∃ t, step s = .next t ∧
        t = { s with
          inputs := rest
          reply := .ack
          err := true
          errCode := if s.err then s.errCode else .overrun
          errReg := if s.err then s.errReg else 0
          errCmd := if s.err then s.errCmd else off.setWidth 32 } ∧
        t.complete.w = s.complete.w ∧ t.complete.flags = s.complete.flags ∧
        t.complete.done = true ∧ t.complete.busy = false) ∧
    (s.inputs = hostRead off :: rest → 0x100 ≤ off.toNat → off.toNat < 0x300 →
      ∃ t v, step s = .next t ∧ t = { s with inputs := rest, reply := .data v, draws := t.draws })

/-- R260: while in error and IDLE a CMD write changes nothing, and writes to the W window are served normally. -/
def Obligations.CommandsAreDiscardedInError : Prop :=
  ∀ (s : State) (rest : List Input), s.engine = .idle → s.err = true →
    (∀ w : Word, s.inputs = cmdWrite w :: rest → step s = .next { s with inputs := rest, reply := .ack }) ∧
    (∀ (i : Reg) (j : Fin 8) (v : Word), s.inputs = hostWrite (wordAt i j) v :: rest →
      ∃ t, step s = .next t ∧ t = { s with inputs := rest, reply := .ack, w := t.w, valued := t.valued } ∧
        getWord (t.reg i) j = v ∧ t.hasWord i j = true ∧
        (∀ q k, (q ≠ i ∨ k ≠ j) → getWord (t.reg q) k = getWord (s.reg q) k ∧ t.hasWord q k = s.hasWord q k))

/-- R257, R265: the first error since the last clear is kept, whatever the machine does next. -/
def Obligations.FirstErrorIsKept : Prop :=
  ∀ s t : State, step s = .next t → s.err = true → t.err = true →
    t.errCode = s.errCode ∧ t.errReg = s.errReg ∧ t.errCmd = s.errCmd

/-- R28, R263, R264: only CTRL.CLR_ERR and RESET end an error; until then no command starts. -/
def Obligations.OnlyClearOrResetEndsAnError : Prop :=
  ∀ s t : State, step s = .next t → s.err = true →
    (t.err = false → s.atReset ∨ ∃ v rest, s.inputs = ctrlWrite v :: rest ∧ v.getLsbD 9 = true) ∧
    (s.busy = false → t.busy = false)

/-- R27: CTRL's IE bits take bits 1:0 of every write, its CLR bits act, its other bits are ignored, and a read gives
the IE bits and 0 elsewhere; at any time, also while BUSY. A set IE bit asserts the interrupt while its condition
holds. -/
def Obligations.CtrlTakesBitsAndActs : Prop :=
  (State.reset.ieDone = false ∧ State.reset.ieErr = false) ∧
  ∀ (s : State) (rest : List Input),
    (∀ v : Word, s.inputs = ctrlWrite v :: rest →
      step s = .next { s with
        inputs := rest
        reply := .ack
        ieDone := v.getLsbD 0
        ieErr := v.getLsbD 1
        done := s.done && !(v.getLsbD 8)
        err := s.err && !(v.getLsbD 9)
        errCode := if v.getLsbD 9 then .noError else s.errCode
        errReg := if v.getLsbD 9 then 0 else s.errReg
        errCmd := if v.getLsbD 9 then 0 else s.errCmd }) ∧
    (s.inputs = hostRead 0x004 :: rest →
      ∃ v : Word, step s = .next { s with inputs := rest, reply := .data v } ∧
        v.getLsbD 0 = s.ieDone ∧ v.getLsbD 1 = s.ieErr ∧ ∀ k, 2 ≤ k → v.getLsbD k = false) ∧
    (s.ieDone = true → s.done = true → s.irq = true) ∧ (s.ieErr = true → s.err = true → s.irq = true)

/-- R264: CLR_ERR clears ERR, ERRCODE and ERRCMD and nothing else is restored; W and the flags keep their values; the
next CMD write is accepted normally; it also works while BUSY. -/
def Obligations.ClearErrorReturns : Prop :=
  ∀ (s : State) (v : Word) (rest : List Input), s.inputs = ctrlWrite v :: rest → v.getLsbD 9 = true →
    ∃ t, step s = .next t ∧
      t.err = false ∧ t.errCode = .noError ∧ t.errReg = 0 ∧ t.errCmd = 0 ∧
      t.w = s.w ∧ t.valued = s.valued ∧ t.flags = s.flags ∧ t.engine = s.engine ∧ t.inputs = rest ∧
      (s.engine = .idle → ∀ (w : Word) (i : Instr) (rest' : List Input),
        rest = cmdWrite w :: rest' → decode w = .ok i →
          step t = exec i { t with inputs := rest', reply := .ack })

/-- R38: the interrupt output is (DONE & IE_DONE) | (ERR & IE_ERR), mirrored in STATUS.IRQ; it is a function of these
four bits alone. -/
def Obligations.IrqIsTheLevelOfItsCondition : Prop :=
  ∀ (s : State) (rest : List Input), s.inputs = hostRead 0x008 :: rest →
    ∃ v : Word, step s = .next { s with inputs := rest, reply := .data v } ∧
      s.irq = ((s.done && s.ieDone) || (s.err && s.ieErr)) ∧
      v.getLsbD 3 = s.irq ∧
      v.getLsbD 0 = s.busy ∧ v.getLsbD 1 = s.done ∧ v.getLsbD 2 = s.err ∧ ∀ k, 4 ≤ k → v.getLsbD k = false

/-! ## The window -/

/-- R61: word j of W[i] at 0x100 + 0x20·i + 4·j: a read returns it, a write sets its 32 bits and leaves the others;
limb k is the words 2k and 2k+1. -/
def Obligations.WindowWordsAreTheRegisters : Prop :=
  ∀ (s : State) (i : Reg) (j : Fin 8) (rest : List Input), s.engine = .idle →
    let off : Offset := BitVec.ofNat 12 (0x100 + 0x20 * i.val + 4 * j.val)
    (s.inputs = hostRead off :: rest →
      step s = .next { s with inputs := rest, reply := .data ((s.reg i).extractLsb' (32 * j.val) 32) }) ∧
    (∀ v : Word, s.inputs = hostWrite off v :: rest →
      ∃ t, step s = .next t ∧ t = { s with inputs := rest, reply := .ack, w := t.w, valued := t.valued } ∧
        (∀ k, k < 256 → (t.reg i).getLsbD k =
          if 32 * j.val ≤ k ∧ k < 32 * j.val + 32 then v.getLsbD (k - 32 * j.val) else (s.reg i).getLsbD k) ∧
        (∀ q, q ≠ i → t.reg q = s.reg q)) ∧
    (∀ k : Fin 4, (s.reg i).extractLsb' (64 * k.val) 64 =
      getWord (s.reg i) ⟨2 * k.val + 1, by omega⟩ ++ getWord (s.reg i) ⟨2 * k.val, by omega⟩)

/-- R63: a read of a reserved offset returns 0; a write to a reserved offset or a read-only register has no effect. -/
def Obligations.ReservedReadsZeroAndIgnoresWrites : Prop :=
  ∀ (s : State) (off : Offset) (rest : List Input), off.toNat % 4 = 0 →
    let reserved := (0x01C ≤ off.toNat ∧ off.toNat ≤ 0x0FF) ∨ 0x300 ≤ off.toNat
    let readOnly := off = 0x000 ∨ off = 0x008 ∨ off = 0x010 ∨ off = 0x014 ∨ off = 0x018
    (reserved → s.inputs = hostRead off :: rest → step s = .next { s with inputs := rest, reply := .data 0 }) ∧
    (reserved ∨ readOnly → ∀ v : Word, s.inputs = hostWrite off v :: rest →
      step s = .next { s with inputs := rest, reply := .ack })

/-- R67: while BUSY a read of a W word returns a draw (a free value, whatever it is), a read of any other place
behaves as when idle, and FLAGS still shows the flags from before the running command. -/
def Obligations.ReadsWhileBusy : Prop :=
  ∀ (s : State) (f : InFlight) (off : Offset) (rest : List Input),
    s.engine = .busy f → off.toNat % 4 = 0 → s.inputs = hostRead off :: rest →
      (0x100 ≤ off.toNat → off.toNat < 0x300 →
        step s = .next { s with inputs := rest, reply := .data (Config.freeWord s.draws), draws := s.draws + 1 }) ∧
      (off.toNat < 0x100 ∨ 0x300 ≤ off.toNat →
        step s = .next { s with inputs := rest, reply := .data (s.image (windowReg off)) }) ∧
      (off = 0x010 → ∃ v : Word, step s = .next { s with inputs := rest, reply := .data v } ∧
        v.getLsbD 0 = s.flags.c ∧ v.getLsbD 1 = s.flags.lt ∧ v.getLsbD 2 = s.flags.eq ∧
        v.getLsbD 3 = s.flags.gt ∧ v.getLsbD 4 = s.flags.z ∧ ∀ k, 5 ≤ k → v.getLsbD k = false)

/-- R29, R30, R31, R32: what a read of ID, CMD, ERRCODE and ERRCMD returns, in every state. -/
def Obligations.IdCmdAndErrorRegistersRead : Prop :=
  ∀ (s : State) (rest : List Input),
    (s.inputs = hostRead 0x000 :: rest →
      step s = .next { s with inputs := rest, reply := .data 0x4F504501 }) ∧
    (s.inputs = hostRead 0x00C :: rest → step s = .next { s with inputs := rest, reply := .data 0 }) ∧
    (s.inputs = hostRead 0x018 :: rest → step s = .next { s with inputs := rest, reply := .data s.errCmd }) ∧
    (s.inputs = hostRead 0x014 :: rest →
      ∃ v : Word, step s = .next { s with inputs := rest, reply := .data v } ∧
        (v.extractLsb' 0 4).toNat = s.errCode.number ∧ (v.extractLsb' 8 4).toNat = s.errReg.val ∧
        v.extractLsb' 4 4 = 0 ∧ v.extractLsb' 12 20 = 0)

/-- R66: a read changes nothing but the reply (and the count of draws); of all writes only those to CMD, CTRL and the
W words change anything. -/
def Obligations.AccessesHaveNoOtherSideEffects : Prop :=
  ∀ (s t : State) (off : Offset) (size : Nat) (rest : List Input), step s = .next t →
    (s.inputs = .host (.read off size) :: rest →
      t = { s with inputs := rest, reply := t.reply, draws := t.draws }) ∧
    (∀ v : Word, s.inputs = .host (.write off size v) :: rest →
      off ≠ 0x00C → off ≠ 0x004 → ¬ (0x100 ≤ off.toNat ∧ off.toNat < 0x300) →
        t = { s with inputs := rest, reply := .ack })

/-- R65, R272: an access that is not 32 bits wide or not aligned is the fault HostBusError with its bus address;
nothing else stops the machine, and no command is refused. That nothing else stops it is the model's choice (log 2):
R40 and R272 name a second model fault, UninitRead, which this model does not raise. -/
def Obligations.OnlyBusErrorsStopTheMachine : Prop :=
  (∀ (s : State) (off : Offset) (size : Nat) (v : Word) (rest : List Input),
    size ≠ 4 ∨ off.toNat % 4 ≠ 0 →
      s.inputs = .host (.read off size) :: rest ∨ s.inputs = .host (.write off size v) :: rest →
        step s = .fault (.hostBusError (Config.base + off.toNat) size)) ∧
  (∀ s : State, (∃ t, step s = .next t) ∨
    ∃ off size rest, (size ≠ 4 ∨ off.toNat % 4 ≠ 0) ∧
      (s.inputs = .host (.read off size) :: rest ∨ ∃ v, s.inputs = .host (.write off size v) :: rest))

/-- R60: an address of the window reaches the block at its offset from BASE, and no other address reaches it. -/
def Obligations.WindowStandsAtBase : Prop :=
  Config.base % 4096 = 0 ∧
  (∀ (off : Offset) (size : Nat) (v : Word),
    memRead (Config.base + off.toNat) size = some (.host (.read off size)) ∧
    memWrite (Config.base + off.toNat) size v = some (.host (.write off size v))) ∧
  (∀ (addr size : Nat) (v : Word), addr < Config.base ∨ Config.base + 4096 ≤ addr →
    memRead addr size = none ∧ memWrite addr size v = none)

/-! ## Reset and the life of a command -/

/-- R39: the state right after reset. That the contents of W are 0 is the model's choice (log 1) and is not stated. -/
def Obligations.ResetLeavesTheStatedValues : Prop :=
  State.reset.flags = ⟨false, false, false, false, false⟩ ∧
  State.reset.ieDone = false ∧ State.reset.ieErr = false ∧
  State.reset.busy = false ∧ State.reset.done = false ∧ State.reset.err = false ∧ State.reset.irq = false ∧
  State.reset.errCode = .noError ∧ State.reset.errReg = 0 ∧ State.reset.errCmd = 0 ∧
  State.reset.engine = .idle ∧
  (∀ r j, State.reset.hasWord r j = false) ∧
  [romK 0, romK 1, romK 2, romK 3, romK 4] =
    [2 ^ 256 - 2 ^ 32 - 977, n, gx, gy, 7].map (fun v => some (BitVec.ofNat 256 v)) ∧
  (∀ b, romT b = if 1 ≤ b ∧ b ≤ 255 then some (toAffine (genMultiple b)) else none) ∧
  State.reset.image .id = 0x4F504501

/-- R281: RESET abandons the in-flight command, whatever it is; none of its results is written, no completion follows,
and every piece of state has its reset value, the W registers no value. -/
def Obligations.ResetAbandonsTheCommand : Prop :=
  ∀ (s : State) (rest : List Input), s.inputs = .reset :: rest →
    ∃ t, step s = .next t ∧
      t.flags = ⟨false, false, false, false, false⟩ ∧ t.ieDone = false ∧ t.ieErr = false ∧
      t.busy = false ∧ t.done = false ∧ t.err = false ∧ t.irq = false ∧
      t.errCode = .noError ∧ t.errReg = 0 ∧ t.errCmd = 0 ∧ t.engine = .idle ∧
      (∀ r j, t.hasWord r j = false) ∧ t.complete = t

/-- R259, R292: the completion of a legal in-flight command is one step, taken on the engine's turn or when no input is
left: BUSY becomes 0 and DONE 1, only the command's destinations and flags are written, and no error is raised. That
the engine completes when no input is left is the model's choice (log 3), its form of the fairness of R294. -/
def Obligations.CompletionIsOneStep : Prop :=
  ∀ (s : State) (f : InFlight) (rest : List Input), s.engine = .busy f → f.legal →
    (s.inputs = .engine :: rest ∨ (s.inputs = [] ∧ rest = [])) →
      ∃ t, step s = .next t ∧ KeepsAllBut (dests f.cmd) { s with inputs := rest } t ∧
        (∀ r v, (r, v) ∈ f.result.writes → (f.result.writes.map Prod.fst).Nodup → t.reg r = v) ∧
        t.flags = f.result.flags.apply s.flags

/-- R294: every accepted command completes after finitely many steps: over inputs with no refused access the machine
runs to the end of its inputs, and then the engine is IDLE. That an empty list of inputs lets the engine complete is
the model's choice (log 3), its form of R294; that no uninitialised read stops the run is the model's choice (log 2). -/
def Obligations.EveryRunEndsIdle : Prop :=
  ∀ s : State, LegalInputs s.inputs →
    ∃ t, core.run (s.inputs.length + 1) s = .next t ∧ t.engine = .idle ∧ t.inputs = []

/-- The invariant holds right after reset. -/
def Obligations.InvariantHoldsAtReset : Prop := State.reset.Inv

/-- Every step keeps the invariant: compare flags, the error registers' agreement with each other and with the word
they record, and what the engine phase says of DONE, of the error and of the command it holds. -/
def Obligations.StepKeepsTheInvariant : Prop :=
  ∀ s t : State, s.Inv → step s = .next t → t.Inv

/-- R284, R40: a step that reads no word without a value does not depend on what the unvalued words hold: from states
that agree on the valued words it gives states that agree on them. So the value the model gives W at reset (log 1)
cannot be seen by a program that meets R284. -/
def Obligations.UnvaluedWordsAreNotSeen : Prop :=
  ∀ s t s' : State, AgreeOnValued s t → s.uninitRead = none → step s = .next s' →
    ∃ t', step t = .next t' ∧ AgreeOnValued s' t'

/-- R26: each flag changes only at the completion of a command that writes it (or at reset), and no command reads one. -/
def Obligations.FlagsChangeOnlyAtTheirCompletion : Prop :=
  (∀ s t : State, s.Inv → step s = .next t → ¬ s.atReset →
    (t.flags.c ≠ s.flags.c → ∃ f rd a b, s.engine = .busy f ∧ t.engine = .idle ∧
      (f.cmd = .add rd a b ∨ f.cmd = .sub rd a b ∨ f.cmd = .addw rd a b ∨ f.cmd = .subw rd a b)) ∧
    ((t.flags.lt, t.flags.eq, t.flags.gt) ≠ (s.flags.lt, s.flags.eq, s.flags.gt) →
      ∃ f a b, s.engine = .busy f ∧ t.engine = .idle ∧ f.cmd = .cmp a b) ∧
    (t.flags.z ≠ s.flags.z → ∃ f rd a, s.engine = .busy f ∧ t.engine = .idle ∧ f.cmd = .msb rd a)) ∧
  (∀ (i : Instr) (s t : State) (fl : Flags), exec i s = .next t →
    exec i { s with flags := fl } = .next { t with flags := fl })

/-- R20, R66, R252, R259: a W register changes only at the completion of a command that names it as a destination, by
a host write to one of its words while IDLE, or at reset. -/
def Obligations.RegistersChangeOnlyByTheirWriters : Prop :=
  ∀ s t : State, s.Inv → step s = .next t → ¬ s.atReset → ∀ r, t.reg r ≠ s.reg r →
    (∃ f, s.engine = .busy f ∧ t.engine = .idle ∧ r ∈ dests f.cmd) ∨
    (s.engine = .idle ∧ ∃ j v rest, s.inputs = hostWrite (wordAt r j) v :: rest)

/-- R28, R36: the engine becomes BUSY only by the acceptance of the command of a CMD write, and IDLE only by its
completion or reset; while it stays BUSY it holds the same command. That it may complete when no input is left is the
model's choice (log 3). -/
def Obligations.EngineChangesOnlyByStartAndCompletion : Prop :=
  ∀ s t : State, step s = .next t → t.engine ≠ s.engine →
    (s.engine = .idle ∧ ∃ w i rest, s.inputs = cmdWrite w :: rest ∧ decode w = .ok i ∧ s.err = false ∧
      Started i { s with inputs := rest, reply := .ack } t) ∨
    (∃ f, s.engine = .busy f ∧ t.engine = .idle ∧
      (s.atReset ∨ s.inputs = [] ∨ ∃ rest, s.inputs = .engine :: rest))

/-! ## Data movement -/

/-- R230, R231, R232: NOP, MOV and LDI. A MOV of a register without a value is an uninitialised read. -/
def Obligations.NopMovLdi : Prop :=
  (∀ w : Word, w.extractLsb' 24 8 = 0x00 →
    decode w = if w.extractLsb' 0 24 = 0 then .ok .nop else .error .illegalField) ∧
  (∀ s : State, ∃ t u, exec .nop s = .next t ∧ Started .nop s t ∧ t.complete = u ∧
    KeepsAllBut [] s u ∧ u.flags = s.flags) ∧
  (∀ w : Word, w.extractLsb' 24 8 = 0x01 →
    decode w = if w.extractLsb' 0 16 = 0 then .ok (.mov (sliceRd w) (sliceRs1 w)) else .error .illegalField) ∧
  (∀ (rd rs1 : Reg) (s : State), ∃ t u, exec (.mov rd rs1) s = .next t ∧ Started (.mov rd rs1) s t ∧
    t.complete = u ∧ KeepsAllBut [rd] s u ∧ u.flags = s.flags ∧ u.reg rd = s.reg rs1) ∧
  (∀ (rd rs1 : Reg) (s : State) (rest : List Input), s.ready → s.inputs = cmdWrite (encode (.mov rd rs1)) :: rest →
    s.hasValue rs1 = false → s.uninitRead = some rs1) ∧
  (∀ w : Word, w.extractLsb' 24 8 = 0x02 →
    decode w = if w.extractLsb' 8 12 = 0 then .ok (.ldi (sliceRd w) (sliceImm w)) else .error .illegalField) ∧
  (∀ (rd : Reg) (imm : BitVec 8) (s : State), ∃ t u, exec (.ldi rd imm) s = .next t ∧
    Started (.ldi rd imm) s t ∧ t.complete = u ∧ KeepsAllBut [rd] s u ∧ u.flags = s.flags ∧
    (u.reg rd).toNat = imm.toNat)

/-- R233, R234: LDK loads p, n, Gx, Gy or 7 and LDT the affine coordinates of a table entry; an index with no entry is
ILLEGAL_FIELD. -/
def Obligations.LdkLdt : Prop :=
  (∀ w : Word, w.extractLsb' 24 8 = 0x03 →
    decode w = if w.extractLsb' 8 12 = 0 ∧ (sliceImm w).toNat ≤ 4 then .ok (.ldk (sliceRd w) (sliceImm w))
      else .error .illegalField) ∧
  (∀ (rd : Reg) (imm : BitVec 8) (s : State), imm.toNat ≤ 4 →
    ∃ t u, exec (.ldk rd imm) s = .next t ∧ Started (.ldk rd imm) s t ∧ t.complete = u ∧
      KeepsAllBut [rd] s u ∧ u.flags = s.flags ∧
      some (u.reg rd).toNat = [2 ^ 256 - 2 ^ 32 - 977, n, gx, gy, 7][imm.toNat]?) ∧
  (∀ w : Word, w.extractLsb' 24 8 = 0x04 →
    decode w = if w.extractLsb' 8 12 = 0 ∧ 1 ≤ (sliceImm w).toNat ∧ (sliceRd w).val ≤ 14
      then .ok (.ldt (sliceRd w) (sliceImm w)) else .error .illegalField) ∧
  (∀ (rd : Reg) (imm : BitVec 8) (s : State), 1 ≤ imm.toNat → rd.val ≤ 14 →
    ∃ t u, exec (.ldt rd imm) s = .next t ∧ Started (.ldt rd imm) s t ∧ t.complete = u ∧
      KeepsAllBut [rd, rd + 1] s u ∧ u.flags = s.flags ∧
      romT imm.toNat = some ⟨(u.reg rd).toNat, (u.reg (rd + 1)).toNat⟩)

/-! ## Wide integers -/

/-- R120, R121: ADD gives the 257-bit sum in C and W[rd]; SUB the difference modulo 2²⁵⁶ and the borrow in C. -/
def Obligations.AddSub : Prop :=
  (∀ w : Word, w.extractLsb' 24 8 = 0x10 →
    decode w = if w.extractLsb' 0 12 = 0 then .ok (.add (sliceRd w) (sliceRs1 w) (sliceRs2 w))
      else .error .illegalField) ∧
  (∀ (rd rs1 rs2 : Reg) (s : State), ∃ t u, exec (.add rd rs1 rs2) s = .next t ∧ Started (.add rd rs1 rs2) s t ∧
    t.complete = u ∧ KeepsAllBut [rd] s u ∧ u.flags = { s.flags with c := u.flags.c } ∧
    (u.reg rd).toNat + 2 ^ 256 * u.flags.c.toNat = (s.reg rs1).toNat + (s.reg rs2).toNat) ∧
  (∀ w : Word, w.extractLsb' 24 8 = 0x11 →
    decode w = if w.extractLsb' 0 12 = 0 then .ok (.sub (sliceRd w) (sliceRs1 w) (sliceRs2 w))
      else .error .illegalField) ∧
  (∀ (rd rs1 rs2 : Reg) (s : State), ∃ t u, exec (.sub rd rs1 rs2) s = .next t ∧ Started (.sub rd rs1 rs2) s t ∧
    t.complete = u ∧ KeepsAllBut [rd] s u ∧
    u.flags = { s.flags with c := decide ((s.reg rs1).toNat < (s.reg rs2).toNat) } ∧
    ((u.reg rd).toNat : Int) = ((s.reg rs1).toNat - (s.reg rs2).toNat : Int) % 2 ^ 256)

/-- R122, R123: ADDW and SUBW on even-based pairs, the carry and borrow crossing from the low to the high register. -/
def Obligations.AddwSubw : Prop :=
  (∀ w : Word, w.extractLsb' 24 8 = 0x12 →
    decode w = if w.extractLsb' 0 12 = 0 ∧ (sliceRd w).val % 2 = 0 ∧ (sliceRs1 w).val % 2 = 0 ∧
        (sliceRs2 w).val % 2 = 0 then .ok (.addw (sliceRd w) (sliceRs1 w) (sliceRs2 w))
      else .error .illegalField) ∧
  (∀ w : Word, w.extractLsb' 24 8 = 0x13 →
    decode w = if w.extractLsb' 0 12 = 0 ∧ (sliceRd w).val % 2 = 0 ∧ (sliceRs1 w).val % 2 = 0 ∧
        (sliceRs2 w).val % 2 = 0 then .ok (.subw (sliceRd w) (sliceRs1 w) (sliceRs2 w))
      else .error .illegalField) ∧
  (∀ (rd rs1 rs2 : Reg) (s : State), rd.val % 2 = 0 → rs1.val % 2 = 0 → rs2.val % 2 = 0 →
    let wide := fun (x : State) (b : Reg) => (x.reg b).toNat + 2 ^ 256 * (x.reg (b + 1)).toNat
    (∃ t u, exec (.addw rd rs1 rs2) s = .next t ∧ Started (.addw rd rs1 rs2) s t ∧ t.complete = u ∧
      KeepsAllBut [rd, rd + 1] s u ∧ u.flags = { s.flags with c := u.flags.c } ∧
      wide u rd + 2 ^ 512 * u.flags.c.toNat = wide s rs1 + wide s rs2) ∧
    (∃ t u, exec (.subw rd rs1 rs2) s = .next t ∧ Started (.subw rd rs1 rs2) s t ∧ t.complete = u ∧
      KeepsAllBut [rd, rd + 1] s u ∧ u.flags = { s.flags with c := decide (wide s rs1 < wide s rs2) } ∧
      (wide u rd : Int) = (wide s rs1 - wide s rs2 : Int) % 2 ^ 512))

/-- R124, R125: MUL gives the exact product in an even-based pair, SQR the same as MUL of the register by itself;
neither writes a flag. -/
def Obligations.MulSqr : Prop :=
  (∀ w : Word, w.extractLsb' 24 8 = 0x14 →
    decode w = if w.extractLsb' 0 12 = 0 ∧ (sliceRd w).val % 2 = 0
      then .ok (.mul (sliceRd w) (sliceRs1 w) (sliceRs2 w)) else .error .illegalField) ∧
  (∀ (rd rs1 rs2 : Reg) (s : State), rd.val % 2 = 0 →
    ∃ t u, exec (.mul rd rs1 rs2) s = .next t ∧ Started (.mul rd rs1 rs2) s t ∧ t.complete = u ∧
      KeepsAllBut [rd, rd + 1] s u ∧ u.flags = s.flags ∧
      (u.reg rd).toNat + 2 ^ 256 * (u.reg (rd + 1)).toNat = (s.reg rs1).toNat * (s.reg rs2).toNat) ∧
  (∀ w : Word, w.extractLsb' 24 8 = 0x15 →
    decode w = if w.extractLsb' 0 16 = 0 ∧ (sliceRd w).val % 2 = 0
      then .ok (.sqr (sliceRd w) (sliceRs1 w)) else .error .illegalField) ∧
  (∀ (rd rs1 : Reg) (s : State), rd.val % 2 = 0 →
    ∃ t t' u, exec (.sqr rd rs1) s = .next t ∧ Started (.sqr rd rs1) s t ∧ t.complete = u ∧
      KeepsAllBut [rd, rd + 1] s u ∧ u.flags = s.flags ∧
      (u.reg rd).toNat + 2 ^ 256 * (u.reg (rd + 1)).toNat = (s.reg rs1).toNat * (s.reg rs1).toNat ∧
      exec (.mul rd rs1 rs1) s = .next t' ∧ t'.complete = u)

/-- R126: CMP writes LT, EQ and GT, exactly one of them 1, and no register. -/
def Obligations.CmpSetsExactlyOneFlag : Prop :=
  (∀ w : Word, w.extractLsb' 24 8 = 0x16 →
    decode w = if sliceRd w = 0 ∧ w.extractLsb' 0 12 = 0 then .ok (.cmp (sliceRs1 w) (sliceRs2 w))
      else .error .illegalField) ∧
  (∀ (rs1 rs2 : Reg) (s : State), ∃ t u, exec (.cmp rs1 rs2) s = .next t ∧ Started (.cmp rs1 rs2) s t ∧
    t.complete = u ∧ KeepsAllBut [] s u ∧ u.flags.c = s.flags.c ∧ u.flags.z = s.flags.z ∧
    (u.flags.lt = true ↔ (s.reg rs1).toNat < (s.reg rs2).toNat) ∧
    (u.flags.eq = true ↔ s.reg rs1 = s.reg rs2) ∧
    (u.flags.gt = true ↔ (s.reg rs2).toNat < (s.reg rs1).toNat) ∧
    u.flags.lt.toNat + u.flags.eq.toNat + u.flags.gt.toNat = 1)

/-- R127, R128: BIT reads bit IMM8, any of the 256; MSB gives the index of the most significant set bit with Z = 0, or
0 with Z = 1 for the operand 0. -/
def Obligations.BitMsb : Prop :=
  (∀ w : Word, w.extractLsb' 24 8 = 0x17 →
    decode w = if w.extractLsb' 8 8 = 0 then .ok (.bit (sliceRd w) (sliceRs1 w) (sliceImm w))
      else .error .illegalField) ∧
  (∀ (rd rs1 : Reg) (imm : BitVec 8) (s : State), ∃ t u, exec (.bit rd rs1 imm) s = .next t ∧
    Started (.bit rd rs1 imm) s t ∧ t.complete = u ∧ KeepsAllBut [rd] s u ∧ u.flags = s.flags ∧
    (u.reg rd).toNat = ((s.reg rs1).getLsbD imm.toNat).toNat) ∧
  (∀ w : Word, w.extractLsb' 24 8 = 0x18 →
    decode w = if w.extractLsb' 0 16 = 0 then .ok (.msb (sliceRd w) (sliceRs1 w)) else .error .illegalField) ∧
  (∀ (rd rs1 : Reg) (s : State), ∃ t u, exec (.msb rd rs1) s = .next t ∧ Started (.msb rd rs1) s t ∧
    t.complete = u ∧ KeepsAllBut [rd] s u ∧ u.flags = { s.flags with z := decide (s.reg rs1 = 0) } ∧
    (s.reg rs1 = 0 → u.reg rd = 0) ∧
    (s.reg rs1 ≠ 0 → (s.reg rs1).getLsbD (u.reg rd).toNat = true ∧
      ∀ k, (u.reg rd).toNat < k → (s.reg rs1).getLsbD k = false))

/-- R129: BSWAP reverses the 32 bytes, and is its own inverse. -/
def Obligations.BswapReversesTheBytes : Prop :=
  (∀ w : Word, w.extractLsb' 24 8 = 0x19 →
    decode w = if w.extractLsb' 0 16 = 0 then .ok (.bswap (sliceRd w) (sliceRs1 w)) else .error .illegalField) ∧
  (∀ (rd rs1 : Reg) (s : State), ∃ t u, exec (.bswap rd rs1) s = .next t ∧ Started (.bswap rd rs1) s t ∧
    t.complete = u ∧ KeepsAllBut [rd] s u ∧ u.flags = s.flags ∧
    ∀ k, k < 32 → (u.reg rd).extractLsb' (8 * k) 8 = (s.reg rs1).extractLsb' (8 * (31 - k)) 8) ∧
  (∀ (rd rs1 : Reg) (s : State), ∃ u, runCommands [.bswap rd rs1, .bswap rd rd] s = some u ∧
    u.reg rd = s.reg rs1)

/-- R131: the source's limb algorithms give, for operands of any number of limbs, the sum with its carry and the
difference with its borrow; and for two 256-bit operands the full product. -/
def Obligations.LimbAlgorithmsAreExact : Prop :=
  (∀ k a b : Nat, a < 2 ^ (64 * k) → b < 2 ^ (64 * k) →
    (let r := rippleAdd 0 (toLimbs k a) (toLimbs k b)
     ofLimbs r.1 = (a + b) % 2 ^ (64 * k) ∧ r.2 = (a + b) / 2 ^ (64 * k) ∧ r.1.length = k ∧ ∀ x ∈ r.1, x < 2 ^ 64) ∧
    (let r := rippleSub 0 (toLimbs k a) (toLimbs k b)
     (ofLimbs r.1 : Int) = ((a : Int) - b) % 2 ^ (64 * k) ∧ r.2 = (if a < b then 1 else 0) ∧ r.1.length = k ∧
       ∀ x ∈ r.1, x < 2 ^ 64)) ∧
  (∀ a b : Nat, a < 2 ^ 256 → b < 2 ^ 256 →
    ofLimbs (mulLimbs (toLimbs 4 a) (toLimbs 4 b) (List.replicate 8 0)) = a * b)

/-! ## Modular units -/

/-- R160: REDP gives WP[rs1] modulo p for every 512-bit value, in [0, p), and never raises RANGE. -/
def Obligations.RedpReducesModP : Prop :=
  (∀ w : Word, w.extractLsb' 24 8 = 0x20 →
    decode w = if w.extractLsb' 0 16 = 0 ∧ (sliceRs1 w).val % 2 = 0 then .ok (.redp (sliceRd w) (sliceRs1 w))
      else .error .illegalField) ∧
  (∀ (rd rs1 : Reg) (s : State), rs1.val % 2 = 0 →
    ∃ t u, exec (.redp rd rs1) s = .next t ∧ Started (.redp rd rs1) s t ∧ t.complete = u ∧
      KeepsAllBut [rd] s u ∧ u.flags = s.flags ∧ (u.reg rd).toNat < 2 ^ 256 - 2 ^ 32 - 977 ∧
      (u.reg rd).toNat =
        ((s.reg rs1).toNat + 2 ^ 256 * (s.reg (rs1 + 1)).toNat) % (2 ^ 256 - 2 ^ 32 - 977))

/-- R161, R162: the source's folding loop gives X mod p for every 512-bit X; after one fold the value is below 2²⁸⁹,
after two below 2²⁵⁶ + 2⁶⁶, and after three below 2²⁵⁶, which 2⁵¹² − 1 needs. -/
def Obligations.FoldingIsTheRemainder : Prop :=
  (∀ x : Nat, x < 2 ^ 512 →
    (∀ fuel, 3 ≤ fuel → foldReduce foldP p fuel x = x % p) ∧
    foldOnce foldP x < 2 ^ 289 ∧
    foldOnce foldP (foldOnce foldP x) < 2 ^ 256 + 2 ^ 66 ∧
    (2 ^ 256 ≤ foldOnce foldP (foldOnce foldP x) →
      foldOnce foldP (foldOnce foldP (foldOnce foldP x)) < 2 ^ 256)) ∧
  2 ^ 256 ≤ foldOnce foldP (foldOnce foldP (2 ^ 512 - 1))

/-- R182: the fold with 2²⁵⁶ mod n gives the exact remainder mod n of every product of two scalars. -/
def Obligations.ScalarFoldIsTheRemainder : Prop :=
  foldN = 2 ^ 256 % n ∧ foldN = 0x14551231950B75FC4402DA1732FC9BEBF ∧
  ∀ a b : Nat, a < n → b < n → ∃ k, ∀ fuel, k ≤ fuel → foldReduce foldN n fuel (a * b) = a * b % n

/-- R163: the field functions on operands in [0, p): their values, which lie in [0, p), and the source's single
conditional subtraction or addition; the product is MUL and then the folding reduction. -/
def Obligations.FieldFunctionsAreExact : Prop :=
  ∀ a b : Nat, a < p → b < p →
    fadd a b = (a + b) % p ∧ fadd a b = (if p ≤ a + b then a + b - p else a + b) ∧
    (fsub a b : Int) = ((a : Int) - b) % p ∧ fsub a b = (if a < b then a + p - b else a - b) ∧
    (fneg a : Int) = (-(a : Int)) % p ∧
    fmul a b = a * b % p ∧ fmul a b = foldReduce foldP p 3 (a * b) ∧ fsqr a = a * a % p ∧
    (∀ k, k = 2 ∨ k = 3 ∨ k = 8 → fk k a = k * a % p) ∧
    fadd a b < p ∧ fsub a b < p ∧ fneg a < p ∧ fmul a b < p

/-- R180: SINV gives W[rs1]^(n−2) mod n, and RANGE with REG = rs1 when W[rs1] ≥ n, with nothing written. -/
def Obligations.SinvRaisesToNMinusTwo : Prop :=
  (∀ w : Word, w.extractLsb' 24 8 = 0x28 →
    decode w = if w.extractLsb' 0 16 = 0 then .ok (.sinv (sliceRd w) (sliceRs1 w)) else .error .illegalField) ∧
  (∀ (rd rs1 : Reg) (s : State), (s.reg rs1).toNat < n →
    ∃ t u, exec (.sinv rd rs1) s = .next t ∧ Started (.sinv rd rs1) s t ∧ t.complete = u ∧
      KeepsAllBut [rd] s u ∧ u.flags = s.flags ∧ (u.reg rd).toNat = (s.reg rs1).toNat ^ (n - 2) % n) ∧
  (∀ (rd rs1 : Reg) (s : State), n ≤ (s.reg rs1).toNat → s.err = false →
    exec (.sinv rd rs1) s = .next (Aborted .range rs1 (encode (.sinv rd rs1)) s))

/-- R181: the fixed pattern is E = n − 2, 256 bits of which 196 are 1, and the loop gives a^E mod n. -/
def Obligations.FixedPatternIsThePower : Prop :=
  n - 2 = 0xFFFFFFFFFFFFFFFFFFFFFFFFFFFFFFFEBAAEDCE6AF48A03BBFD25E8CD036413F ∧
  Nat.log2 (n - 2) = 255 ∧ ((List.range 256).filter (fun k => (n - 2).testBit k)).length = 196 ∧
  ∀ a : Nat, a < n → scalarInverse a = a ^ (n - 2) % n

/-- R183: for 0 < a < n, SINV gives the unique r in [1, n) with a·r mod n = 1. -/
def Obligations.SinvGivesTheUniqueInverse : Prop :=
  ∀ (rd rs1 : Reg) (s : State), 0 < (s.reg rs1).toNat → (s.reg rs1).toNat < n →
    ∃ t, exec (.sinv rd rs1) s = .next t ∧
      (let r := (t.complete.reg rd).toNat
       1 ≤ r ∧ r < n ∧ (s.reg rs1).toNat * r % n = 1 ∧
         ∀ r', 1 ≤ r' → r' < n → (s.reg rs1).toNat * r' % n = 1 → r' = r)

/-! ## Points -/

/-- R193: PDBL writes dbl(WJ[rs1]), reduced, to WJ[rd], and no flag; RANGE on the first of X, Y, Z that is p or
more. -/
def Obligations.PdblDoublesThePoint : Prop :=
  (∀ w : Word, w.extractLsb' 24 8 = 0x30 →
    decode w = if w.extractLsb' 0 16 = 0 ∧ (sliceRd w).val ≤ 13 ∧ (sliceRs1 w).val ≤ 13
      then .ok (.pdbl (sliceRd w) (sliceRs1 w)) else .error .illegalField) ∧
  (∀ (rd rs1 : Reg) (s : State), rd.val ≤ 13 → rs1.val ≤ 13 → (s.jac rs1).reduced →
    ∃ t u, exec (.pdbl rd rs1) s = .next t ∧ Started (.pdbl rd rs1) s t ∧ t.complete = u ∧
      KeepsAllBut [rd, rd + 1, rd + 2] s u ∧ u.flags = s.flags ∧ u.jac rd = dbl (s.jac rs1) ∧
      (u.jac rd).reduced) ∧
  (∀ (rd rs1 r : Reg) (s : State), rd.val ≤ 13 → rs1.val ≤ 13 → s.err = false →
    [rs1, rs1 + 1, rs1 + 2].find? (fun q => p ≤ (s.reg q).toNat) = some r →
    exec (.pdbl rd rs1) s = .next (Aborted .range r (encode (.pdbl rd rs1)) s))

/-- R194: PADDM writes madd(WJ[rs1], WA[rs2]), reduced, to WJ[rd], and no flag; RANGE on the first of the five
coordinates that is p or more. -/
def Obligations.PaddmAddsThePoint : Prop :=
  (∀ w : Word, w.extractLsb' 24 8 = 0x31 →
    decode w = if w.extractLsb' 0 12 = 0 ∧ (sliceRd w).val ≤ 13 ∧ (sliceRs1 w).val ≤ 13 ∧ (sliceRs2 w).val ≤ 14
      then .ok (.paddm (sliceRd w) (sliceRs1 w) (sliceRs2 w)) else .error .illegalField) ∧
  (∀ (rd rs1 rs2 : Reg) (s : State), rd.val ≤ 13 → rs1.val ≤ 13 → rs2.val ≤ 14 → (s.jac rs1).reduced →
    (s.aff rs2).reduced →
    ∃ t u, exec (.paddm rd rs1 rs2) s = .next t ∧ Started (.paddm rd rs1 rs2) s t ∧ t.complete = u ∧
      KeepsAllBut [rd, rd + 1, rd + 2] s u ∧ u.flags = s.flags ∧ u.jac rd = madd (s.jac rs1) (s.aff rs2) ∧
      (u.jac rd).reduced) ∧
  (∀ (rd rs1 rs2 r : Reg) (s : State), rd.val ≤ 13 → rs1.val ≤ 13 → rs2.val ≤ 14 → s.err = false →
    [rs1, rs1 + 1, rs1 + 2, rs2, rs2 + 1].find? (fun q => p ≤ (s.reg q).toNat) = some r →
    exec (.paddm rd rs1 rs2) s = .next (Aborted .range r (encode (.paddm rd rs1 rs2)) s))

/-- R212: PMULG writes mulg(W[rs1]), reduced, to WJ[rd], and no flag: infinity for 0, the table entry with Z = 1 for 1
to 255; RANGE with REG = rs1 when W[rs1] ≥ n. -/
def Obligations.PmulgMultipliesTheGenerator : Prop :=
  (∀ w : Word, w.extractLsb' 24 8 = 0x38 →
    decode w = if w.extractLsb' 0 16 = 0 ∧ (sliceRd w).val ≤ 13 then .ok (.pmulg (sliceRd w) (sliceRs1 w))
      else .error .illegalField) ∧
  (∀ (rd rs1 : Reg) (s : State), rd.val ≤ 13 → (s.reg rs1).toNat < n →
    ∃ t u, exec (.pmulg rd rs1) s = .next t ∧ Started (.pmulg rd rs1) s t ∧ t.complete = u ∧
      KeepsAllBut [rd, rd + 1, rd + 2] s u ∧ u.flags = s.flags ∧ u.jac rd = mulg (s.reg rs1).toNat ∧
      (u.jac rd).reduced ∧
      ((s.reg rs1).toNat = 0 → u.jac rd = ⟨0, 0, 0⟩) ∧
      (1 ≤ (s.reg rs1).toNat → (s.reg rs1).toNat ≤ 255 →
        ∃ Q, romT (s.reg rs1).toNat = some Q ∧ u.jac rd = ⟨Q.x, Q.y, 1⟩)) ∧
  (∀ (rd rs1 : Reg) (s : State), rd.val ≤ 13 → n ≤ (s.reg rs1).toNat → s.err = false →
    exec (.pmulg rd rs1) s = .next (Aborted .range rs1 (encode (.pmulg rd rs1)) s))

/-- R191: on every triple of field elements, on the curve or not, `dbl` gives infinity (0, 0, 0) exactly when
Z = 0 or Y = 0, and otherwise the triple of the formula "dbl-2009-l", here written out in the integers modulo p. -/
def Obligations.DblIsItsFormula : Prop :=
  ∀ P : Jac, P.reduced →
    ((dbl P).z = 0 ↔ P.z = 0 ∨ P.y = 0) ∧ (P.z = 0 ∨ P.y = 0 → dbl P = ⟨0, 0, 0⟩) ∧ (dbl P).reduced ∧
    (P.z ≠ 0 → P.y ≠ 0 →
      let X : ZMod p := P.x
      let Y : ZMod p := P.y
      let Z : ZMod p := P.z
      let D : ZMod p := 2 * ((X + Y ^ 2) ^ 2 - X ^ 2 - Y ^ 4)
      ((dbl P).x : ZMod p) = (3 * X ^ 2) ^ 2 - 2 * D ∧
      ((dbl P).y : ZMod p) = 3 * X ^ 2 * (D - ((3 * X ^ 2) ^ 2 - 2 * D)) - 8 * Y ^ 4 ∧
      ((dbl P).z : ZMod p) = 2 * Y * Z)

/-- R192: `madd` on field elements, in the integers modulo p: an infinite P gives (x2, y2, 1); equal x with equal y
doubles; equal x with different y gives infinity; otherwise the formula "madd-2004-hmv", whose Z3 is not 0. A result
at infinity is the triple (0, 0, 0). -/
def Obligations.MaddIsItsFormula : Prop :=
  ∀ (P : Jac) (Q : Aff), P.reduced → Q.reduced →
    let X : ZMod p := P.x
    let Y : ZMod p := P.y
    let Z : ZMod p := P.z
    let H : ZMod p := Q.x * Z ^ 2 - X
    let R : ZMod p := Q.y * Z ^ 3 - Y
    (P.z = 0 → madd P Q = ⟨Q.x, Q.y, 1⟩) ∧
    (P.z ≠ 0 → H = 0 → R = 0 → madd P Q = dbl P) ∧
    (P.z ≠ 0 → H = 0 → R ≠ 0 → madd P Q = ⟨0, 0, 0⟩) ∧
    (P.z ≠ 0 → H ≠ 0 →
      ((madd P Q).x : ZMod p) = R ^ 2 - H ^ 3 - 2 * (X * H ^ 2) ∧
      ((madd P Q).y : ZMod p) = R * (X * H ^ 2 - (R ^ 2 - H ^ 3 - 2 * (X * H ^ 2))) - Y * H ^ 3 ∧
      ((madd P Q).z : ZMod p) = Z * H ∧ (madd P Q).z ≠ 0) ∧
    ((madd P Q).z = 0 → madd P Q = ⟨0, 0, 0⟩) ∧
    (madd P Q).reduced

/-- R195: for points on the curve, `dbl` doubles and `madd` adds in the secp256k1 group, with infinity the identity,
and doubling through `madd` gives the same triple. -/
def Obligations.PointFunctionsAreTheGroupLaw : Prop :=
  ∀ [Fact (Nat.Prime p)],
    (∀ (P : Jac) (A : curve.Point), P.reduced → P.Denotes A → (dbl P).Denotes (A + A)) ∧
    (∀ (P : Jac) (Q : Aff) (A B : curve.Point), P.reduced → Q.reduced → P.Denotes A → Q.Denotes B →
      (madd P Q).Denotes (A + B)) ∧
    (∀ (P : Jac) (Q : Aff) (A : curve.Point), P.reduced → Q.reduced → P.Denotes A → Q.Denotes A → madd P Q = dbl P)

/-- R197: no finite point of the curve has y = 0, so doubling one is not infinity; `madd` of a finite triple reaches infinity only for P = −Q, and its
doubling branch only for P = Q. -/
def Obligations.DegenerateResultsOnTheCurve : Prop :=
  ∀ [Fact (Nat.Prime p)],
    (∀ (Q : Aff) (B : curve.Point), Q.reduced → Q.Denotes B → Q.y ≠ 0) ∧
    (∀ (P : Jac) (A : curve.Point), P.reduced → P.Denotes A → P.z ≠ 0 → P.y ≠ 0 ∧ (dbl P).z ≠ 0) ∧
    (∀ (P : Jac) (Q : Aff) (A B : curve.Point), P.reduced → Q.reduced → P.Denotes A → Q.Denotes B → P.z ≠ 0 →
      ((madd P Q).z = 0 → A = -B) ∧ (maddH P Q = 0 → maddR P Q = 0 → A = B))

/-- R211: the slots 1 to 255 of ROMT hold the affine coordinates of b·G, below p; slot 0 holds no point. -/
def Obligations.TableHoldsTheMultiplesOfG : Prop :=
  romT 0 = none ∧
  ∀ [Fact (Nat.Prime p)] (G : curve.Point), gen.Denotes G → ∀ b, 1 ≤ b → b ≤ 255 →
    ∃ Q, romT b = some Q ∧ Q.reduced ∧ Q.Denotes (b • G)

/-- R214: for every 0 ≤ k < n, the point that mulg(k) denotes is k·G. -/
def Obligations.MulgIsTheScalarMultiple : Prop :=
  ∀ [Fact (Nat.Prime p)] (G : curve.Point), gen.Denotes G → ∀ k, k < n → (mulg k).Denotes (k • G)

/-- R213: in mulg(k) with k < n every addition has an infinite accumulator or H ≠ 0. `mulgAcc k i` is the accumulator
handed to the addition of round i, whose byte is byte 31 − i; the last round gives mulg(k). -/
def Obligations.NoExceptionalAdditionInMulg : Prop :=
  (∀ k, mulg k = addEntry (mulgAcc k 31) (scalarByte k 0)) ∧
  ∀ k i, k < n → i < 32 → ∀ Q, romT (scalarByte k (31 - i)) = some Q →
    (mulgAcc k i).z = 0 ∨ maddH (mulgAcc k i) Q ≠ 0

/-- R101: FMUL and FSQR give (Wa·Wb) mod p for any 256-bit operands and any even scratch pair, also when the
destination or the operands are in it. -/
def Obligations.FmulFsqrGiveTheFieldProduct : Prop :=
  ∀ (d a b t : Reg) (s : State), t.val % 2 = 0 →
    (∃ u, (Pseudo.fmul d a b t).expand.bind (fun is => runCommands is s) = some u ∧
      (u.reg d).toNat = (s.reg a).toNat * (s.reg b).toNat % p) ∧
    (∃ u, (Pseudo.fsqr d a t).expand.bind (fun is => runCommands is s) = some u ∧
      (u.reg d).toNat = (s.reg a).toNat ^ 2 % p)
end

