-- ==== Sys2Proof/Laws/Arith.lean ====
section
/-! SUPPORT. What the arithmetic of the modular units computes: the field functions as operations of `ZMod p`, the
fixed-pattern exponentiation as a power, and the bounds of the results (spec/41_field_reduce.md R163, R181). -/

namespace Sys2Proof.Machine

theorem p_eq : p = 2 ^ 256 - 2 ^ 32 - 977 := by decide +kernel

theorem p_pos : 0 < p := by decide +kernel

theorem n_pos : 0 < n := by decide +kernel

theorem p_lt : p < 2 ^ 256 := by decide +kernel

theorem n_lt : n < 2 ^ 256 := by decide +kernel

/-! Every field function gives a reduced value (R163). -/

@[simp] theorem fadd_lt (a b : Nat) : fadd a b < p := Nat.mod_lt _ p_pos
@[simp] theorem fsub_lt (a b : Nat) : fsub a b < p := Nat.mod_lt _ p_pos
@[simp] theorem fneg_lt (a : Nat) : fneg a < p := Nat.mod_lt _ p_pos
@[simp] theorem fmul_lt (a b : Nat) : fmul a b < p := Nat.mod_lt _ p_pos
@[simp] theorem fsqr_lt (a : Nat) : fsqr a < p := fmul_lt a a
@[simp] theorem fk_lt (k a : Nat) : fk k a < p := Nat.mod_lt _ p_pos

/-! The field functions in `ZMod p`. -/

@[simp] theorem cast_fadd (a b : Nat) : (fadd a b : ZMod p) = a + b := by simp [fadd]
@[simp] theorem cast_fmul (a b : Nat) : (fmul a b : ZMod p) = a * b := by simp [fmul]
@[simp] theorem cast_fsqr (a : Nat) : (fsqr a : ZMod p) = a ^ 2 := by simp [fsqr, sq]
@[simp] theorem cast_fk (k a : Nat) : (fk k a : ZMod p) = k * a := by simp [fk]

theorem cast_fsub {a b : Nat} (hb : b ≤ p) : (fsub a b : ZMod p) = a - b := by
  simp [fsub, Nat.cast_sub hb, sub_eq_add_neg]

theorem cast_fneg {a : Nat} (ha : a ≤ p) : (fneg a : ZMod p) = -a := by
  simp [fneg, Nat.cast_sub ha]

/-- Two reduced values with the same residue are equal. -/
theorem eq_of_cast_eq {a b : Nat} (ha : a < p) (hb : b < p) (h : (a : ZMod p) = b) : a = b := by
  rw [ZMod.natCast_eq_natCast_iff] at h
  exact Nat.ModEq.eq_of_lt_of_lt h ha hb

/-- A reduced value is 0 iff its residue is. -/
theorem cast_eq_zero_iff {a : Nat} (ha : a < p) : (a : ZMod p) = 0 ↔ a = 0 := by
  rw [ZMod.natCast_eq_zero_iff]
  exact ⟨fun h => Nat.eq_zero_of_dvd_of_lt h ha, fun h => h ▸ dvd_zero p⟩

/-! The fixed-pattern exponentiation (R181). -/

/-- After the bits below i, the accumulator r has become r^(2^i) · a^(e mod 2^i), modulo m. -/
theorem cast_fixedPow (m e a i : Nat) : ∀ r, (fixedPow m e a i r : ZMod m) = r ^ 2 ^ i * a ^ (e % 2 ^ i) := by
  induction i with
  | zero => intro r; simp [fixedPow, Nat.mod_one]
  | succ i ih =>
    intro r
    have hbit : e % 2 ^ (i + 1) = e % 2 ^ i + 2 ^ i * (e.testBit i).toNat := by
      rw [Nat.mod_pow_succ, Nat.testBit_eq_decide_div_mod_eq]
      rcases Nat.mod_two_eq_zero_or_one (e / 2 ^ i) with h | h <;> simp [h]
    rw [fixedPow, ih, hbit]
    cases e.testBit i
    · simp [pow_succ, pow_mul, mul_pow]
    · simp [pow_succ, pow_mul, pow_add, mul_pow]; ring

theorem fixedPow_lt {m : Nat} (hm : 1 < m) (e a i : Nat) : ∀ r, r < m → fixedPow m e a i r < m := by
  induction i with
  | zero => intro r h; simpa [fixedPow] using h
  | succ i ih =>
    intro r _
    rw [fixedPow]
    apply ih
    split <;> exact Nat.mod_lt _ (by omega)

/-- The exponentiation from 1 over enough bits is the power modulo m. -/
theorem fixedPow_one {m e k : Nat} (hm : 1 < m) (he : e < 2 ^ k) (a : Nat) :
    fixedPow m e a k 1 = a ^ e % m := by
  have h : (fixedPow m e a k 1 : ZMod m) = (a ^ e : Nat) := by
    rw [cast_fixedPow, Nat.mod_eq_of_lt he]; simp
  rw [ZMod.natCast_eq_natCast_iff] at h
  rw [← h, Nat.mod_eq_of_lt (fixedPow_lt hm e a k 1 (by omega))]

/-- The Lucas certificate of a prime q: the prime factors `fs` of q − 1 and a primitive root `a`. -/
theorem prime_of_root {q : Nat} (a k : Nat) (fs : List Nat) (hprime : ∀ f ∈ fs, f.Prime) (hq : 1 < q)
    (hprod : fs.prod = q - 1) (hk : q - 1 < 2 ^ k) (hroot : fixedPow q (q - 1) a k 1 = 1)
    (hord : ∀ f ∈ fs, fixedPow q ((q - 1) / f) a k 1 ≠ 1) : q.Prime := by
  have hpow : ∀ e, e < 2 ^ k → ((a : ZMod q) ^ e = 1 ↔ fixedPow q e a k 1 = 1) := by
    intro e he
    rw [fixedPow_one hq he, ← Nat.cast_pow, ← Nat.cast_one (R := ZMod q), ZMod.natCast_eq_natCast_iff,
      Nat.ModEq, Nat.mod_eq_of_lt hq]
  refine lucas_primality q a ((hpow _ hk).mpr hroot) fun f hf hdvd => ?_
  rw [Ne, hpow _ (lt_of_le_of_lt (Nat.div_le_self _ _) hk)]
  rw [← hprod] at hdvd
  obtain ⟨g, hg, hfg⟩ := (Prime.dvd_prod_iff hf.prime).mp hdvd
  rw [(Nat.prime_dvd_prime_iff_eq hf (hprime g hg)).mp hfg]
  exact hord g hg

end Sys2Proof.Machine
end

