-- ==== Sys2Proof/Laws/Assembler.lean ====
section
/-! SUPPORT. What an expansion of a pseudo-instruction can be (spec/30_encoding.md R101). -/

namespace Sys2Proof.Machine

@[simp] theorem Pseudo.expand_of_wf {q : Pseudo} (h : q.wf = true) : q.expand = some q.commands := if_pos h

@[simp] theorem Pseudo.expand_of_not_wf {q : Pseudo} (h : q.wf = false) : q.expand = none := by
  simp [Pseudo.expand, h]

/-- Every command of an expansion is legal, so the decoder takes its word. -/
theorem Pseudo.expand_legal {q : Pseudo} {is : List Instr} (h : q.expand = some is) : ∀ i ∈ is, i.wf = true := by
  cases hq : q.wf with
  | false => rw [Pseudo.expand_of_not_wf hq] at h; cases h
  | true =>
    rw [Pseudo.expand_of_wf hq] at h
    cases h
    cases q
    case ldgj d =>
      have hd : d.val ≤ 13 := by simpa [Pseudo.wf, Reg.jacBase] using hq
      have : d.val ≤ 14 := by omega
      simp [Pseudo.commands, Instr.wf, Reg.affBase, this]
    all_goals simp_all [Pseudo.commands, Pseudo.wf, Instr.wf]

end Sys2Proof.Machine
end

