-- ==== Sys2Proof/Laws/State.lean ====
section
/-! SUPPORT. One lemma for each field of the state and each named update, so that no proof unfolds a record update. -/

namespace Sys2Proof.Machine

/-! A register write changes W and which words have a value. -/

@[simp] theorem State.setReg_w (s : State) (r : Reg) (v : W256) : (s.setReg r v).w = s.w.set r.val v := rfl
@[simp] theorem State.setReg_valued (s : State) (r : Reg) (v : W256) :
    (s.setReg r v).valued = s.valued.set r.val 0xFF := rfl
@[simp] theorem State.setReg_flags (s : State) (r : Reg) (v : W256) : (s.setReg r v).flags = s.flags := rfl
@[simp] theorem State.setReg_ieDone (s : State) (r : Reg) (v : W256) : (s.setReg r v).ieDone = s.ieDone := rfl
@[simp] theorem State.setReg_ieErr (s : State) (r : Reg) (v : W256) : (s.setReg r v).ieErr = s.ieErr := rfl
@[simp] theorem State.setReg_done (s : State) (r : Reg) (v : W256) : (s.setReg r v).done = s.done := rfl
@[simp] theorem State.setReg_err (s : State) (r : Reg) (v : W256) : (s.setReg r v).err = s.err := rfl
@[simp] theorem State.setReg_errCode (s : State) (r : Reg) (v : W256) :
    (s.setReg r v).errCode = s.errCode := rfl
@[simp] theorem State.setReg_errReg (s : State) (r : Reg) (v : W256) : (s.setReg r v).errReg = s.errReg := rfl
@[simp] theorem State.setReg_errCmd (s : State) (r : Reg) (v : W256) : (s.setReg r v).errCmd = s.errCmd := rfl
@[simp] theorem State.setReg_engine (s : State) (r : Reg) (v : W256) : (s.setReg r v).engine = s.engine := rfl
@[simp] theorem State.setReg_inputs (s : State) (r : Reg) (v : W256) : (s.setReg r v).inputs = s.inputs := rfl
@[simp] theorem State.setReg_reply (s : State) (r : Reg) (v : W256) : (s.setReg r v).reply = s.reply := rfl
@[simp] theorem State.setReg_draws (s : State) (r : Reg) (v : W256) : (s.setReg r v).draws = s.draws := rfl

/-! All register writes of a command. -/

@[simp] theorem State.setRegs_nil (s : State) : s.setRegs [] = s := rfl
@[simp] theorem State.setRegs_cons (s : State) (x : Reg × W256) (ws : List (Reg × W256)) :
    s.setRegs (x :: ws) = (s.setReg x.1 x.2).setRegs ws := rfl

/-- Register writes change nothing but W and `valued`. -/
theorem State.setRegs_frame (ws : List (Reg × W256)) : ∀ s : State,
    s.setRegs ws = { s with w := (s.setRegs ws).w, valued := (s.setRegs ws).valued } := by
  induction ws with
  | nil => intro s; rfl
  | cons x ws ih => intro s; rw [State.setRegs_cons, ih]; rfl

@[simp] theorem State.setRegs_flags (s : State) (ws : List (Reg × W256)) :
    (s.setRegs ws).flags = s.flags := by
  rw [State.setRegs_frame]
@[simp] theorem State.setRegs_ieDone (s : State) (ws : List (Reg × W256)) :
    (s.setRegs ws).ieDone = s.ieDone := by
  rw [State.setRegs_frame]
@[simp] theorem State.setRegs_ieErr (s : State) (ws : List (Reg × W256)) :
    (s.setRegs ws).ieErr = s.ieErr := by
  rw [State.setRegs_frame]
@[simp] theorem State.setRegs_done (s : State) (ws : List (Reg × W256)) : (s.setRegs ws).done = s.done := by
  rw [State.setRegs_frame]
@[simp] theorem State.setRegs_err (s : State) (ws : List (Reg × W256)) : (s.setRegs ws).err = s.err := by
  rw [State.setRegs_frame]
@[simp] theorem State.setRegs_errCode (s : State) (ws : List (Reg × W256)) :
    (s.setRegs ws).errCode = s.errCode := by
  rw [State.setRegs_frame]
@[simp] theorem State.setRegs_errReg (s : State) (ws : List (Reg × W256)) :
    (s.setRegs ws).errReg = s.errReg := by
  rw [State.setRegs_frame]
@[simp] theorem State.setRegs_errCmd (s : State) (ws : List (Reg × W256)) :
    (s.setRegs ws).errCmd = s.errCmd := by
  rw [State.setRegs_frame]
@[simp] theorem State.setRegs_engine (s : State) (ws : List (Reg × W256)) :
    (s.setRegs ws).engine = s.engine := by
  rw [State.setRegs_frame]
@[simp] theorem State.setRegs_inputs (s : State) (ws : List (Reg × W256)) :
    (s.setRegs ws).inputs = s.inputs := by
  rw [State.setRegs_frame]
@[simp] theorem State.setRegs_reply (s : State) (ws : List (Reg × W256)) :
    (s.setRegs ws).reply = s.reply := by
  rw [State.setRegs_frame]
@[simp] theorem State.setRegs_draws (s : State) (ws : List (Reg × W256)) :
    (s.setRegs ws).draws = s.draws := by
  rw [State.setRegs_frame]

/-! A host write of one word. -/

@[simp] theorem State.setWord_w (s : State) (r : Reg) (j : Fin 8) (x : Word) :
    (s.setWord r j x).w = s.w.set r.val (putWord s.w[r.val] j x) := rfl
@[simp] theorem State.setWord_valued (s : State) (r : Reg) (j : Fin 8) (x : Word) :
    (s.setWord r j x).valued = s.valued.set r.val (s.valued[r.val] ||| (1#8 <<< j.val)) := rfl
@[simp] theorem State.setWord_flags (s : State) (r : Reg) (j : Fin 8) (x : Word) :
    (s.setWord r j x).flags = s.flags := rfl
@[simp] theorem State.setWord_ieDone (s : State) (r : Reg) (j : Fin 8) (x : Word) :
    (s.setWord r j x).ieDone = s.ieDone := rfl
@[simp] theorem State.setWord_ieErr (s : State) (r : Reg) (j : Fin 8) (x : Word) :
    (s.setWord r j x).ieErr = s.ieErr := rfl
@[simp] theorem State.setWord_done (s : State) (r : Reg) (j : Fin 8) (x : Word) :
    (s.setWord r j x).done = s.done := rfl
@[simp] theorem State.setWord_err (s : State) (r : Reg) (j : Fin 8) (x : Word) :
    (s.setWord r j x).err = s.err := rfl
@[simp] theorem State.setWord_errCode (s : State) (r : Reg) (j : Fin 8) (x : Word) :
    (s.setWord r j x).errCode = s.errCode := rfl
@[simp] theorem State.setWord_errReg (s : State) (r : Reg) (j : Fin 8) (x : Word) :
    (s.setWord r j x).errReg = s.errReg := rfl
@[simp] theorem State.setWord_errCmd (s : State) (r : Reg) (j : Fin 8) (x : Word) :
    (s.setWord r j x).errCmd = s.errCmd := rfl
@[simp] theorem State.setWord_engine (s : State) (r : Reg) (j : Fin 8) (x : Word) :
    (s.setWord r j x).engine = s.engine := rfl
@[simp] theorem State.setWord_inputs (s : State) (r : Reg) (j : Fin 8) (x : Word) :
    (s.setWord r j x).inputs = s.inputs := rfl
@[simp] theorem State.setWord_reply (s : State) (r : Reg) (j : Fin 8) (x : Word) :
    (s.setWord r j x).reply = s.reply := rfl
@[simp] theorem State.setWord_draws (s : State) (r : Reg) (j : Fin 8) (x : Word) :
    (s.setWord r j x).draws = s.draws := rfl

/-! Clearing the error and DONE. -/

@[simp] theorem State.clearError_w (s : State) : (s.clearError).w = s.w := rfl
@[simp] theorem State.clearError_valued (s : State) : (s.clearError).valued = s.valued := rfl
@[simp] theorem State.clearError_flags (s : State) : (s.clearError).flags = s.flags := rfl
@[simp] theorem State.clearError_ieDone (s : State) : (s.clearError).ieDone = s.ieDone := rfl
@[simp] theorem State.clearError_ieErr (s : State) : (s.clearError).ieErr = s.ieErr := rfl
@[simp] theorem State.clearError_done (s : State) : (s.clearError).done = s.done := rfl
@[simp] theorem State.clearError_err (s : State) : (s.clearError).err = false := rfl
@[simp] theorem State.clearError_errCode (s : State) : (s.clearError).errCode = .noError := rfl
@[simp] theorem State.clearError_errReg (s : State) : (s.clearError).errReg = 0 := rfl
@[simp] theorem State.clearError_errCmd (s : State) : (s.clearError).errCmd = 0 := rfl
@[simp] theorem State.clearError_engine (s : State) : (s.clearError).engine = s.engine := rfl
@[simp] theorem State.clearError_inputs (s : State) : (s.clearError).inputs = s.inputs := rfl
@[simp] theorem State.clearError_reply (s : State) : (s.clearError).reply = s.reply := rfl
@[simp] theorem State.clearError_draws (s : State) : (s.clearError).draws = s.draws := rfl

@[simp] theorem State.clearDone_w (s : State) : (s.clearDone).w = s.w := rfl
@[simp] theorem State.clearDone_valued (s : State) : (s.clearDone).valued = s.valued := rfl
@[simp] theorem State.clearDone_flags (s : State) : (s.clearDone).flags = s.flags := rfl
@[simp] theorem State.clearDone_ieDone (s : State) : (s.clearDone).ieDone = s.ieDone := rfl
@[simp] theorem State.clearDone_ieErr (s : State) : (s.clearDone).ieErr = s.ieErr := rfl
@[simp] theorem State.clearDone_done (s : State) : (s.clearDone).done = false := rfl
@[simp] theorem State.clearDone_err (s : State) : (s.clearDone).err = s.err := rfl
@[simp] theorem State.clearDone_errCode (s : State) : (s.clearDone).errCode = s.errCode := rfl
@[simp] theorem State.clearDone_errReg (s : State) : (s.clearDone).errReg = s.errReg := rfl
@[simp] theorem State.clearDone_errCmd (s : State) : (s.clearDone).errCmd = s.errCmd := rfl
@[simp] theorem State.clearDone_engine (s : State) : (s.clearDone).engine = s.engine := rfl
@[simp] theorem State.clearDone_inputs (s : State) : (s.clearDone).inputs = s.inputs := rfl
@[simp] theorem State.clearDone_reply (s : State) : (s.clearDone).reply = s.reply := rfl
@[simp] theorem State.clearDone_draws (s : State) : (s.clearDone).draws = s.draws := rfl

/-! The start of a command. -/

@[simp] theorem State.start_w (s : State) (f : InFlight) : (s.start f).w = s.w := rfl
@[simp] theorem State.start_valued (s : State) (f : InFlight) : (s.start f).valued = s.valued := rfl
@[simp] theorem State.start_flags (s : State) (f : InFlight) : (s.start f).flags = s.flags := rfl
@[simp] theorem State.start_ieDone (s : State) (f : InFlight) : (s.start f).ieDone = s.ieDone := rfl
@[simp] theorem State.start_ieErr (s : State) (f : InFlight) : (s.start f).ieErr = s.ieErr := rfl
@[simp] theorem State.start_done (s : State) (f : InFlight) : (s.start f).done = false := rfl
@[simp] theorem State.start_err (s : State) (f : InFlight) : (s.start f).err = s.err := rfl
@[simp] theorem State.start_errCode (s : State) (f : InFlight) : (s.start f).errCode = s.errCode := rfl
@[simp] theorem State.start_errReg (s : State) (f : InFlight) : (s.start f).errReg = s.errReg := rfl
@[simp] theorem State.start_errCmd (s : State) (f : InFlight) : (s.start f).errCmd = s.errCmd := rfl
@[simp] theorem State.start_engine (s : State) (f : InFlight) : (s.start f).engine = .busy f := rfl
@[simp] theorem State.start_inputs (s : State) (f : InFlight) : (s.start f).inputs = s.inputs := rfl
@[simp] theorem State.start_reply (s : State) (f : InFlight) : (s.start f).reply = s.reply := rfl
@[simp] theorem State.start_draws (s : State) (f : InFlight) : (s.start f).draws = s.draws := rfl

/-! RESET. -/

@[simp] theorem State.applyReset_w (s : State) : s.applyReset.w = State.reset.w := rfl
@[simp] theorem State.applyReset_valued (s : State) : s.applyReset.valued = State.reset.valued := rfl
@[simp] theorem State.applyReset_flags (s : State) : s.applyReset.flags = State.reset.flags := rfl
@[simp] theorem State.applyReset_ieDone (s : State) : s.applyReset.ieDone = State.reset.ieDone := rfl
@[simp] theorem State.applyReset_ieErr (s : State) : s.applyReset.ieErr = State.reset.ieErr := rfl
@[simp] theorem State.applyReset_done (s : State) : s.applyReset.done = State.reset.done := rfl
@[simp] theorem State.applyReset_err (s : State) : s.applyReset.err = State.reset.err := rfl
@[simp] theorem State.applyReset_errCode (s : State) : s.applyReset.errCode = State.reset.errCode := rfl
@[simp] theorem State.applyReset_errReg (s : State) : s.applyReset.errReg = State.reset.errReg := rfl
@[simp] theorem State.applyReset_errCmd (s : State) : s.applyReset.errCmd = State.reset.errCmd := rfl
@[simp] theorem State.applyReset_engine (s : State) : s.applyReset.engine = State.reset.engine := rfl
@[simp] theorem State.applyReset_inputs (s : State) : s.applyReset.inputs = s.inputs := rfl
@[simp] theorem State.applyReset_reply (s : State) : s.applyReset.reply = s.reply := rfl
@[simp] theorem State.applyReset_draws (s : State) : s.applyReset.draws = s.draws := rfl

/-! Recording an error and the abort. -/

@[simp] theorem State.recordError_of_err {s : State} (h : s.err = true) (c : ErrorCode) (r : Reg) (x : Word) :
    s.recordError c r x = s := by
  simp [State.recordError, h]

@[simp] theorem State.recordError_of_not_err {s : State} (h : s.err = false) (c : ErrorCode) (r : Reg) (x : Word) :
    s.recordError c r x = { s with err := true, errCode := c, errReg := r, errCmd := x } := by
  simp [State.recordError, h]

@[simp] theorem State.recordError_w (s : State) (c : ErrorCode) (r : Reg) (x : Word) :
    (s.recordError c r x).w = s.w := by simp only [State.recordError]; split <;> rfl
@[simp] theorem State.recordError_valued (s : State) (c : ErrorCode) (r : Reg) (x : Word) :
    (s.recordError c r x).valued = s.valued := by simp only [State.recordError]; split <;> rfl
@[simp] theorem State.recordError_flags (s : State) (c : ErrorCode) (r : Reg) (x : Word) :
    (s.recordError c r x).flags = s.flags := by simp only [State.recordError]; split <;> rfl
@[simp] theorem State.recordError_ieDone (s : State) (c : ErrorCode) (r : Reg) (x : Word) :
    (s.recordError c r x).ieDone = s.ieDone := by simp only [State.recordError]; split <;> rfl
@[simp] theorem State.recordError_ieErr (s : State) (c : ErrorCode) (r : Reg) (x : Word) :
    (s.recordError c r x).ieErr = s.ieErr := by simp only [State.recordError]; split <;> rfl
@[simp] theorem State.recordError_done (s : State) (c : ErrorCode) (r : Reg) (x : Word) :
    (s.recordError c r x).done = s.done := by simp only [State.recordError]; split <;> rfl
@[simp] theorem State.recordError_engine (s : State) (c : ErrorCode) (r : Reg) (x : Word) :
    (s.recordError c r x).engine = s.engine := by simp only [State.recordError]; split <;> rfl
@[simp] theorem State.recordError_inputs (s : State) (c : ErrorCode) (r : Reg) (x : Word) :
    (s.recordError c r x).inputs = s.inputs := by simp only [State.recordError]; split <;> rfl
@[simp] theorem State.recordError_reply (s : State) (c : ErrorCode) (r : Reg) (x : Word) :
    (s.recordError c r x).reply = s.reply := by simp only [State.recordError]; split <;> rfl
@[simp] theorem State.recordError_draws (s : State) (c : ErrorCode) (r : Reg) (x : Word) :
    (s.recordError c r x).draws = s.draws := by simp only [State.recordError]; split <;> rfl
@[simp] theorem State.abort_w (s : State) (c : ErrorCode) (r : Reg) (x : Word) :
    (s.abort c r x).w = s.w := by simp [State.abort]
@[simp] theorem State.abort_valued (s : State) (c : ErrorCode) (r : Reg) (x : Word) :
    (s.abort c r x).valued = s.valued := by simp [State.abort]
@[simp] theorem State.abort_flags (s : State) (c : ErrorCode) (r : Reg) (x : Word) :
    (s.abort c r x).flags = s.flags := by simp [State.abort]
@[simp] theorem State.abort_ieDone (s : State) (c : ErrorCode) (r : Reg) (x : Word) :
    (s.abort c r x).ieDone = s.ieDone := by simp [State.abort]
@[simp] theorem State.abort_ieErr (s : State) (c : ErrorCode) (r : Reg) (x : Word) :
    (s.abort c r x).ieErr = s.ieErr := by simp [State.abort]
@[simp] theorem State.abort_engine (s : State) (c : ErrorCode) (r : Reg) (x : Word) :
    (s.abort c r x).engine = s.engine := by simp [State.abort]
@[simp] theorem State.abort_inputs (s : State) (c : ErrorCode) (r : Reg) (x : Word) :
    (s.abort c r x).inputs = s.inputs := by simp [State.abort]
@[simp] theorem State.abort_reply (s : State) (c : ErrorCode) (r : Reg) (x : Word) :
    (s.abort c r x).reply = s.reply := by simp [State.abort]
@[simp] theorem State.abort_draws (s : State) (c : ErrorCode) (r : Reg) (x : Word) :
    (s.abort c r x).draws = s.draws := by simp [State.abort]
@[simp] theorem State.abort_done (s : State) (c : ErrorCode) (r : Reg) (x : Word) :
    (s.abort c r x).done = true := rfl

/-! BUSY is read from the engine. -/

@[simp] theorem State.busy_of_idle {s : State} (h : s.engine = .idle) : s.busy = false := by
  simp [State.busy, h]

@[simp] theorem State.busy_of_busy {s : State} {f : InFlight} (h : s.engine = .busy f) : s.busy = true := by
  simp [State.busy, h]

theorem State.busy_eq_false_iff (s : State) : s.busy = false ↔ s.engine = .idle := by
  cases h : s.engine <;> simp [State.busy, h]

theorem State.busy_eq_true_iff (s : State) : s.busy = true ↔ ∃ f, s.engine = .busy f := by
  cases h : s.engine <;> simp [State.busy, h]

end Sys2Proof.Machine
end

