-- ==== Sys2Proof/Laws/Ops.lean ====
section
/-! SUPPORT. What each shared operation does: register and word writes read back, the completion of a started command,
the outcomes of `accept`, and the address map of the window. -/

namespace Sys2Proof.Machine

/-! Registers (R20): a write is read back, every other register is as before. -/

theorem State.reg_setReg (s : State) (r q : Reg) (v : W256) :
    (s.setReg r v).reg q = if q = r then v else s.reg q := by
  simp [State.reg, State.setReg, Vector.getElem_set, Fin.val_inj, eq_comm]

@[simp] theorem State.reg_setReg_self (s : State) (r : Reg) (v : W256) : (s.setReg r v).reg r = v := by
  simp [State.reg_setReg]

@[simp] theorem State.reg_setReg_ne (s : State) {r q : Reg} (v : W256) (h : q ≠ r) :
    (s.setReg r v).reg q = s.reg q := by
  simp [State.reg_setReg, h]

theorem State.valued_setReg (s : State) (r q : Reg) (v : W256) :
    (s.setReg r v).valued[q.val] = if q = r then 0xFF else s.valued[q.val] := by
  simp [State.setReg, Vector.getElem_set, Fin.val_inj, eq_comm]

@[simp] theorem State.hasValue_setReg_self (s : State) (r : Reg) (v : W256) : (s.setReg r v).hasValue r = true := by
  simp [State.hasValue]

@[simp] theorem State.hasWord_setReg_ne (s : State) {r q : Reg} (v : W256) (j : Fin 8) (h : q ≠ r) :
    (s.setReg r v).hasWord q j = s.hasWord q j := by
  unfold State.hasWord
  rw [State.valued_setReg, if_neg h]

@[simp] theorem State.hasValue_setReg_ne (s : State) {r q : Reg} (v : W256) (h : q ≠ r) :
    (s.setReg r v).hasValue q = s.hasValue q := by
  unfold State.hasValue
  rw [State.valued_setReg, if_neg h]

/-- A register that a list of writes does not name keeps its contents. -/
theorem State.reg_setRegs_of_not_mem (ws : List (Reg × W256)) (q : Reg) : ∀ s : State,
    q ∉ ws.map Prod.fst → (s.setRegs ws).reg q = s.reg q := by
  induction ws with
  | nil => intro s _; rfl
  | cons x ws ih =>
    intro s h
    simp only [List.map_cons, List.mem_cons, not_or] at h
    rw [State.setRegs_cons, ih _ h.2, State.reg_setReg_ne _ _ h.1]

/-- A register that a list of writes does not name keeps its record of which words have a value. -/
theorem State.hasWord_setRegs_of_not_mem (ws : List (Reg × W256)) (q : Reg) (j : Fin 8) : ∀ s : State,
    q ∉ ws.map Prod.fst → (s.setRegs ws).hasWord q j = s.hasWord q j := by
  induction ws with
  | nil => intro s _; rfl
  | cons x ws ih =>
    intro s h
    simp only [List.map_cons, List.mem_cons, not_or] at h
    rw [State.setRegs_cons, ih _ h.2, State.hasWord_setReg_ne _ _ _ h.1]

theorem State.hasValue_setRegs_of_hasValue (ws : List (Reg × W256)) (q : Reg) : ∀ s : State,
    s.hasValue q = true → (s.setRegs ws).hasValue q = true := by
  induction ws with
  | nil => intro s h; exact h
  | cons x ws ih =>
    intro s h
    rw [State.setRegs_cons]
    apply ih
    by_cases hq : q = x.1
    · subst hq; simp
    · simpa [hq] using h

/-- Every register that a list of writes names has a value after it (R40). -/
theorem State.hasValue_setRegs_of_mem (ws : List (Reg × W256)) (q : Reg) : ∀ s : State,
    q ∈ ws.map Prod.fst → (s.setRegs ws).hasValue q = true := by
  induction ws with
  | nil => intro s h; simp at h
  | cons x ws ih =>
    intro s h
    rw [State.setRegs_cons]
    rw [List.map_cons, List.mem_cons] at h
    rcases h with h | h
    · apply State.hasValue_setRegs_of_hasValue; subst h; simp
    · exact ih _ h

/-- Register writes depend on nothing but W and `valued`. -/
theorem State.setRegs_congr (s t : State) (ws : List (Reg × W256)) (hw : s.w = t.w) (hv : s.valued = t.valued) :
    (s.setRegs ws).w = (t.setRegs ws).w ∧ (s.setRegs ws).valued = (t.setRegs ws).valued := by
  induction ws generalizing s t with
  | nil => exact ⟨hw, hv⟩
  | cons x ws ih => exact ih _ _ (by simp [hw]) (by simp [hv])

/-! The registers of a group are distinct (R21). -/

@[simp] theorem Reg.add_one_ne (b : Reg) : b + 1 ≠ b := by revert b; decide
@[simp] theorem Reg.add_two_ne (b : Reg) : b + 2 ≠ b := by revert b; decide
@[simp] theorem Reg.add_two_ne_add_one (b : Reg) : b + 2 ≠ b + 1 := by revert b; decide

/-! Words of a register (R61). -/

@[simp] theorem getWord_putWord_self (v : W256) (j : Fin 8) (x : Word) : getWord (putWord v j x) j = x := by
  apply BitVec.eq_of_getLsbD_eq
  intro k hk
  have hj := j.isLt
  simp only [getWord, putWord, BitVec.getLsbD_extractLsb', BitVec.getLsbD_or, BitVec.getLsbD_and, BitVec.getLsbD_not,
    BitVec.getLsbD_shiftLeft, BitVec.getLsbD_setWidth]
  have h1 : 32 * j.val + k < 256 := by omega
  have h2 : ¬ 32 * j.val + k < 32 * j.val := by omega
  have h3 : 32 * j.val + k - 32 * j.val = k := by omega
  have h4 : (0xFFFFFFFF#256).getLsbD k = true := by
    interval_cases k <;> rfl
  simp [hk, h1, h2, h3, h4, Nat.lt_trans hk]

theorem getWord_putWord_ne (v : W256) {i j : Fin 8} (x : Word) (h : i ≠ j) :
    getWord (putWord v j x) i = getWord v i := by
  apply BitVec.eq_of_getLsbD_eq
  intro k hk
  have hj := j.isLt
  have hi := i.isLt
  have hne : i.val ≠ j.val := fun e => h (Fin.ext e)
  simp only [getWord, putWord, BitVec.getLsbD_extractLsb', BitVec.getLsbD_or, BitVec.getLsbD_and, BitVec.getLsbD_not,
    BitVec.getLsbD_shiftLeft, BitVec.getLsbD_setWidth]
  rcases Nat.lt_or_gt_of_ne hne with hlt | hgt
  · have h2 : 32 * i.val + k < 32 * j.val := by omega
    have h7 : 32 * i.val + k < 256 := by omega
    simp [h2, hk, h7]
  · have h2 : ¬ 32 * i.val + k < 32 * j.val := by omega
    have h5 : 32 ≤ 32 * i.val + k - 32 * j.val := by omega
    have h6 : (0xFFFFFFFF#256).getLsbD (32 * i.val + k - 32 * j.val) = false := by
      have : (0xFFFFFFFF#256) = (0xFFFFFFFF#32).setWidth 256 := by decide
      rw [this, BitVec.getLsbD_setWidth, BitVec.getLsbD_of_ge _ _ h5, Bool.and_false]
    have h7 : 32 * i.val + k < 256 := by omega
    simp [h2, h5, h6, hk, h7, BitVec.getLsbD_of_ge]

/-- A register is its eight words. -/
theorem eq_of_getWord_eq {v u : W256} (h : ∀ j, getWord v j = getWord u j) : v = u := by
  apply BitVec.eq_of_getLsbD_eq
  intro k hk
  have hj : k / 32 < 8 := by omega
  have := congrArg (fun x => x.getLsbD (k % 32)) (h ⟨k / 32, hj⟩)
  simpa [getWord, Nat.div_add_mod, Nat.mod_lt] using this

theorem State.reg_setWord (s : State) (r q : Reg) (j : Fin 8) (x : Word) :
    (s.setWord r j x).reg q = if q = r then putWord (s.reg r) j x else s.reg q := by
  simp [State.reg, State.setWord, Vector.getElem_set, Fin.val_inj, eq_comm]

theorem State.hasWord_setWord (s : State) (r q : Reg) (i j : Fin 8) (x : Word) :
    (s.setWord r j x).hasWord q i = if q = r ∧ i = j then true else s.hasWord q i := by
  unfold State.hasWord
  simp only [State.setWord, Vector.getElem_set, Fin.val_inj]
  by_cases h : r = q
  · subst h
    by_cases hij : i = j
    · subst hij; simp
    · have hne : i.val ≠ j.val := fun e => hij (Fin.ext e)
      have : (1#8 <<< j.val).getLsbD i.val = false := by
        revert hij; revert i j; decide
      rw [if_pos rfl, BitVec.getLsbD_or, this, Bool.or_false, if_neg (fun e => hij e.2)]
  · simp [h, Ne.symm h]

/-- A register has a value iff its eight words have (R40). -/
theorem State.hasValue_iff (s : State) (r : Reg) : s.hasValue r = true ↔ ∀ j, s.hasWord r j = true := by
  unfold State.hasValue State.hasWord
  generalize s.valued[r.val] = v
  simp only [beq_iff_eq]
  constructor
  · intro h; subst h; decide
  · intro h
    apply BitVec.eq_of_getLsbD_eq
    intro k hk
    have := h ⟨k, hk⟩
    simp only at this
    rw [this]
    interval_cases k <;> rfl

/-! The life of a command. -/

/-- `accept` answers a next state: a start, or an abort with RANGE or ILLEGAL_FIELD (R250). -/
theorem accept_cases (cmd : Instr) (bad : Option Reg) (res : Result) (s : State) :
    (cmd.wf = true ∧ bad = none ∧
        accept cmd bad res s = .next (s.start ⟨cmd, (sources cmd).map s.reg, res⟩)) ∨
      (cmd.wf = true ∧ ∃ r, bad = some r ∧ accept cmd bad res s = .next (s.abort .range r (encode cmd))) ∨
      (cmd.wf = false ∧ accept cmd bad res s = .next (s.abort .illegalField 0 (encode cmd))) := by
  unfold accept
  cases h : cmd.wf <;> cases bad <;> simp

@[simp] theorem accept_start {cmd : Instr} (h : cmd.wf = true) (res : Result) (s : State) :
    accept cmd none res s = .next (s.start ⟨cmd, (sources cmd).map s.reg, res⟩) := by
  simp [accept, h]

@[simp] theorem accept_range {cmd : Instr} (h : cmd.wf = true) (r : Reg) (res : Result) (s : State) :
    accept cmd (some r) res s = .next (s.abort .range r (encode cmd)) := by
  simp [accept, h]

@[simp] theorem State.complete_idle {s : State} (h : s.engine = .idle) : s.complete = s := by
  simp [State.complete, h]

theorem State.complete_busy {s : State} {f : InFlight} (h : s.engine = .busy f) :
    s.complete = { s.setRegs f.result.writes with
      flags := f.result.flags.apply s.flags
      engine := .idle
      done := true } := by
  simp [State.complete, h]

@[simp] theorem State.complete_start (s : State) (f : InFlight) :
    (s.start f).complete = { s.setRegs f.result.writes with
      flags := f.result.flags.apply s.flags
      engine := .idle
      done := true } := by
  rw [State.complete_busy (State.start_engine s f)]
  have h := State.setRegs_congr (s.start f) s f.result.writes rfl rfl
  rw [State.setRegs_frame _ (s.start f), State.setRegs_frame _ s, h.1, h.2]
  rfl

/-- No command leaves the set of operands without a value: `outOfRange` names one of the registers it was given. -/
theorem State.outOfRange_eq_some {s : State} {b : Nat} {rs : List Reg} {r : Reg} (h : s.outOfRange b rs = some r) :
    r ∈ rs ∧ b ≤ (s.reg r).toNat := by
  have h1 := List.find?_some h
  exact ⟨List.mem_of_find?_eq_some h, by simpa using h1⟩

theorem State.outOfRange_eq_none {s : State} {b : Nat} {rs : List Reg} :
    s.outOfRange b rs = none ↔ ∀ r ∈ rs, (s.reg r).toNat < b := by
  simp [State.outOfRange, List.find?_eq_none]

/-! The address map (R61, R62). -/

@[simp] theorem windowReg_wOffset (i : Reg) (j : Fin 8) : windowReg (wOffset i j) = .w i j := by
  revert i j; decide +kernel

@[simp] theorem windowReg_cmdOffset : windowReg cmdOffset = .cmd := by decide

@[simp] theorem legalAccess_wOffset (i : Reg) (j : Fin 8) : legalAccess (wOffset i j) 4 = true := by
  revert i j; decide +kernel

@[simp] theorem legalAccess_cmdOffset : legalAccess cmdOffset 4 = true := by decide

/-- An aligned offset of a W word is the offset R61 gives that word. -/
theorem eq_wOffset {off : Offset} {i : Reg} {j : Fin 8} (ha : off.toNat % 4 = 0) (h : windowReg off = .w i j) :
    off = wOffset i j := by
  have hi : 0x100 ≤ off.toNat ∧ off.toNat < 0x300 ∧
      Fin.ofNat 16 ((off.toNat - 0x100) / 0x20) = i ∧ Fin.ofNat 8 (off.toNat % 0x20 / 4) = j := by
    unfold windowReg at h
    repeat' split at h
    all_goals first
      | (cases h; done)
      | (rename_i hr; exact ⟨hr.1, hr.2, by simpa using h⟩)
  obtain ⟨h1, h2, rfl, rfl⟩ := hi
  apply BitVec.eq_of_toNat_eq
  simp only [wOffset, Fin.ofNat, BitVec.toNat_ofNat]
  omega

/-- CMD stands at one offset (R62). -/
theorem windowReg_eq_cmd {off : Offset} (h : windowReg off = .cmd) : off = cmdOffset := by
  unfold windowReg at h
  repeat' split at h
  all_goals first
    | (cases h; done)
    | assumption

/-- The window is where BASE says (R60). -/
@[simp] theorem windowOffset_base (off : Offset) : windowOffset (Config.base + off.toNat) = some off := by
  have := off.isLt
  simp [windowOffset, this]

end Sys2Proof.Machine
end

