-- ==== Sys2Proof/Laws/Exec.lean ====
section
/-! SUPPORT. What `exec` can do, said once: every command goes through `accept`, with the check of its operands
(spec/60_exceptions.md R256) and results for exactly the registers and flags it writes. -/

namespace Sys2Proof.Machine

/-- A ROM entry that LDK may name gives one register write. -/
theorem romWrites_romK_map (rd : Reg) {k : Nat} (h : k ≤ 4) :
    (romWrites (romK k) (toReg rd)).map Prod.fst = [rd] := by
  interval_cases k <;> rfl

/-- A table entry that LDT may name gives the two writes of an affine pair. -/
theorem romWrites_romT_map (rd : Reg) {b : Nat} (h1 : 1 ≤ b) (h2 : b ≤ 255) :
    (romWrites (romT b) (toAff rd)).map Prod.fst = affRegs rd := by
  simp [romT, h1, h2, romWrites, toAff, affRegs]

/-- A compare writes exactly one 1 (R126). -/
theorem compareFlags_cases (a b : Nat) :
    compareFlags a b = .compare true false false ∨ compareFlags a b = .compare false true false ∨
      compareFlags a b = .compare false false true := by
  unfold compareFlags
  rcases Nat.lt_trichotomy a b with h | h | h
  · left; simp [h, Nat.ne_of_lt h, Nat.le_of_lt h]
  · right; left; simp [h]
  · right; right; simp [h, Nat.ne_of_gt h, Nat.le_of_lt h]

/-- Every command is an acceptance: its check is that of R256, and for a legal command its results are writes of its
destination registers and of its flags. -/
theorem exec_form (i : Instr) (s : State) :
    ∃ res : Result, exec i s = accept i (firstOutOfRange i s) res s ∧
      (i.wf = true → res.writes.map Prod.fst = dests i ∧ flagKind i res.flags) := by
  cases i
  case ldk rd imm =>
    refine ⟨_, rfl, fun h => ⟨romWrites_romK_map rd ?_, rfl⟩⟩
    simpa [Instr.wf] using h
  case ldt rd imm =>
    have := imm.isLt
    refine ⟨_, rfl, fun h => ⟨romWrites_romT_map rd ?_ (by omega), rfl⟩⟩
    simp only [Instr.wf, Bool.and_eq_true, decide_eq_true_eq] at h
    exact h.1
  case cmp a b => exact ⟨_, rfl, fun _ => ⟨rfl, compareFlags_cases _ _⟩⟩
  case add => exact ⟨_, rfl, fun _ => ⟨rfl, _, rfl⟩⟩
  case sub => exact ⟨_, rfl, fun _ => ⟨rfl, _, rfl⟩⟩
  case addw => exact ⟨_, rfl, fun _ => ⟨rfl, _, rfl⟩⟩
  case subw => exact ⟨_, rfl, fun _ => ⟨rfl, _, rfl⟩⟩
  case msb => exact ⟨_, rfl, fun _ => ⟨rfl, _, rfl⟩⟩
  all_goals exact ⟨_, rfl, fun _ => ⟨rfl, rfl⟩⟩

/-- The register a check names is an operand register of the command. -/
theorem firstOutOfRange_mem {i : Instr} {s : State} {r : Reg} (h : firstOutOfRange i s = some r) : r ∈ sources i := by
  unfold firstOutOfRange at h
  cases i <;> simp only [rangeTable] at h
  case sinv => exact List.mem_of_find?_eq_some h
  case pmulg => exact List.mem_of_find?_eq_some h
  case pdbl => exact List.mem_of_find?_eq_some h
  case paddm => exact List.mem_of_find?_eq_some h
  all_goals cases h

/-- What a legal command does from a state with no error: it starts, or it is aborted with RANGE. -/
theorem exec_cases {i : Instr} (hw : i.wf = true) (s : State) :
    (∃ res : Result, firstOutOfRange i s = none ∧ res.writes.map Prod.fst = dests i ∧ flagKind i res.flags ∧
        exec i s = .next (s.start ⟨i, (sources i).map s.reg, res⟩)) ∨
      (∃ r, firstOutOfRange i s = some r ∧ exec i s = .next (s.abort .range r (encode i))) := by
  obtain ⟨res, hx, hr⟩ := exec_form i s
  rw [hx]
  cases h : firstOutOfRange i s with
  | none => exact .inl ⟨res, rfl, (hr hw).1, (hr hw).2, accept_start hw res s⟩
  | some r => exact .inr ⟨r, rfl, accept_range hw r res s⟩

/-- `exec` always answers a next state. -/
theorem exec_answers (i : Instr) (s : State) : ∃ t, exec i s = .next t := by
  obtain ⟨res, hx, -⟩ := exec_form i s
  rw [hx]
  rcases accept_cases i (firstOutOfRange i s) res s with ⟨_, _, h⟩ | ⟨_, r, _, h⟩ | ⟨_, h⟩ <;> exact ⟨_, h⟩

end Sys2Proof.Machine
end

