-- ==== Sys2Proof/Laws/Completion.lean ====
section
/-! SUPPORT. What the completion of a command leaves, said once: the frame, the destination registers, and the run of a
command whose check passes from acceptance to completion. -/

namespace Sys2Proof.Machine

/-- The state a completed command leaves, from the state it was accepted in (R259). -/
def State.finished (s : State) (res : Result) : State :=
  { s.setRegs res.writes with flags := res.flags.apply s.flags, engine := .idle, done := true }

@[simp] theorem State.finished_flags (s : State) (res : Result) :
    (s.finished res).flags = res.flags.apply s.flags := rfl

@[simp] theorem State.finished_reg (s : State) (res : Result) (r : Reg) :
    (s.finished res).reg r = (s.setRegs res.writes).reg r := rfl

/-- The frame of a completed command. -/
theorem keepsAllBut_finished {rs : List Reg} (s : State) (res : Result) (h : res.writes.map Prod.fst = rs) :
    KeepsAllBut rs s (s.finished res) := by
  subst h
  refine ⟨fun r hr => ⟨State.reg_setRegs_of_not_mem _ r s hr, fun j => State.hasWord_setRegs_of_not_mem _ r j s hr⟩,
    fun r hr => State.hasValue_setRegs_of_mem _ r s hr, ?_, ?_, ?_, ?_, ?_, ?_, rfl, rfl, ?_, ?_, ?_, ?_⟩
  case refine_10 =>
    intro place h1 h2 h3
    cases place with
    | status => exact absurd rfl h2
    | flags => exact absurd rfl h3
    | w i j =>
      have hi : i ∉ res.writes.map Prod.fst := fun hm => h1 i hm j rfl
      show getWord ((s.setRegs res.writes).reg i) j = getWord (s.reg i) j
      rw [State.reg_setRegs_of_not_mem _ i s hi]
    | id => rfl
    | cmd => rfl
    | reserved => rfl
    | ctrl => simp [State.image, State.ctrlWord, State.finished]
    | errcode => simp [State.image, State.errCodeWord, State.finished]
    | errcmd => simp [State.image, State.finished]
  all_goals simp [State.finished]

/-- A register written once holds what was written. -/
theorem State.reg_setRegs_of_mem (ws : List (Reg × W256)) : ∀ (s : State) {r : Reg} {v : W256}, (r, v) ∈ ws →
    (ws.map Prod.fst).Nodup → (s.setRegs ws).reg r = v := by
  induction ws with
  | nil => intro s r v h; cases h
  | cons x ws ih =>
    intro s r v h hn
    rw [List.map_cons, List.nodup_cons] at hn
    show ((s.setReg x.1 x.2).setRegs ws).reg r = v
    rcases List.mem_cons.1 h with rfl | h
    · rw [State.reg_setRegs_of_not_mem ws r _ hn.1, State.reg_setReg_self]
    · exact ih _ h hn.2

/-- A legal command whose check passes starts, and its completion leaves its results. -/
theorem exec_runs {i : Instr} {res : Result} {s : State} (hx : exec i s = accept i none res s) (hw : i.wf = true) :
    ∃ t, exec i s = .next t ∧ Started i s t ∧ t.complete = s.finished res :=
  ⟨_, hx.trans (accept_start hw res s), ⟨res, rfl⟩, State.complete_start _ _⟩

end Sys2Proof.Machine
end

