-- ==== Sys2Proof/Laws/Decode.lean ====
section
/-! SUPPORT. The fields of an assembled word are the fields it was assembled from (spec/30_encoding.md R90), a word is
the assembly of its fields, and the rows of the opcode map by their opcodes. -/

namespace Sys2Proof

/-- An assembled word as a number: nothing is lost. -/
theorem assemble_toNat (opc : BitVec 8) (rd rs1 rs2 : Reg) (imm : BitVec 8) :
    (assemble opc rd rs1 rs2 imm).toNat =
      opc.toNat * 2 ^ 24 + rd.val * 2 ^ 20 + rs1.val * 2 ^ 16 + rs2.val * 2 ^ 12 + imm.toNat := by
  have := opc.isLt
  have := imm.isLt
  have := rd.isLt
  have := rs1.isLt
  have := rs2.isLt
  rw [assemble, BitVec.toNat_ofNat, Nat.mod_eq_of_lt]
  omega

@[simp] theorem opcField_assemble (opc : BitVec 8) (rd rs1 rs2 : Reg) (imm : BitVec 8) :
    opcField (assemble opc rd rs1 rs2 imm) = opc.toNat := by
  rw [opcField, assemble_toNat]
  have := imm.isLt
  omega

@[simp] theorem rdField_assemble (opc : BitVec 8) (rd rs1 rs2 : Reg) (imm : BitVec 8) :
    rdField (assemble opc rd rs1 rs2 imm) = rd := by
  apply Fin.ext
  simp only [rdField, Fin.ofNat, assemble_toNat]
  have := imm.isLt
  omega

@[simp] theorem rs1Field_assemble (opc : BitVec 8) (rd rs1 rs2 : Reg) (imm : BitVec 8) :
    rs1Field (assemble opc rd rs1 rs2 imm) = rs1 := by
  apply Fin.ext
  simp only [rs1Field, Fin.ofNat, assemble_toNat]
  have := imm.isLt
  omega

@[simp] theorem rs2Field_assemble (opc : BitVec 8) (rd rs1 rs2 : Reg) (imm : BitVec 8) :
    rs2Field (assemble opc rd rs1 rs2 imm) = rs2 := by
  apply Fin.ext
  simp only [rs2Field, Fin.ofNat, assemble_toNat]
  have := imm.isLt
  omega

@[simp] theorem rsvField_assemble (opc : BitVec 8) (rd rs1 rs2 : Reg) (imm : BitVec 8) :
    rsvField (assemble opc rd rs1 rs2 imm) = 0 := by
  rw [rsvField, assemble_toNat]
  have := imm.isLt
  omega

@[simp] theorem immField_assemble (opc : BitVec 8) (rd rs1 rs2 : Reg) (imm : BitVec 8) :
    immField (assemble opc rd rs1 rs2 imm) = imm := by
  apply BitVec.eq_of_toNat_eq
  rw [immField, assemble_toNat, BitVec.toNat_ofNat]
  have := imm.isLt
  omega

/-- A word whose RSV field is zero is the assembly of its fields. -/
theorem assemble_fields {w : Word} (h : rsvField w = 0) :
    assemble (BitVec.ofNat 8 (opcField w)) (rdField w) (rs1Field w) (rs2Field w) (immField w) = w := by
  apply BitVec.eq_of_toNat_eq
  rw [assemble_toNat]
  simp only [opcField, rdField, rs1Field, rs2Field, rsvField, immField, Fin.ofNat, BitVec.toNat_ofNat] at h ⊢
  have := w.isLt
  omega

/-- The opcode field has 8 bits. -/
theorem opcField_lt (w : Word) : opcField w < 256 := by
  have := w.isLt
  rw [opcField]
  omega

/-- The row the map gives an opcode is a row of the map, with that opcode. -/
theorem opcodeRow_some {opc : Nat} {r : OpcodeRow} (h : opcodeRow opc = some r) : r ∈ opcodeMap ∧ r.opc = opc :=
  ⟨List.mem_of_find?_eq_some h, by simpa using List.find?_some h⟩

/-- What the decoder answers, in terms of the row (R98). -/
theorem decode_eq_ok {w : Word} {i : Instr} :
    decode w = .ok i ↔
      ∃ r, opcodeRow (opcField w) = some r ∧ r.zerosClear w = true ∧ r.instr w = i ∧ i.wf = true := by
  unfold decode
  cases opcodeRow (opcField w) with
  | none => simp
  | some r =>
    simp only [Option.some.injEq, exists_eq_left']
    by_cases hz : r.zerosClear w <;> by_cases hw : (r.instr w).wf <;> simp [hz, hw]
    · intro h; exact h ▸ hw
    · intro h; rw [← h]; simpa using hw

theorem decode_eq_illegalOpcode {w : Word} : decode w = .error .illegalOpcode ↔ opcodeRow (opcField w) = none := by
  unfold decode
  cases opcodeRow (opcField w) with
  | none => simp
  | some r => by_cases hz : r.zerosClear w <;> by_cases hw : (r.instr w).wf <;> simp [hz, hw]

end Sys2Proof
end

