-- ==== Sys2Proof/Laws/PerInstr.lean ====
section
/-! SUPPORT. Facts about every command as syntax, one lemma for each constructor. -/

namespace Sys2Proof.Laws

/-- The opcode of each command (spec/30_encoding.md R96, column OPC). -/
def opcodeOf : Instr → Nat
  | .nop => 0x00
  | .mov _ _ => 0x01
  | .ldi _ _ => 0x02
  | .ldk _ _ => 0x03
  | .ldt _ _ => 0x04
  | .add _ _ _ => 0x10
  | .sub _ _ _ => 0x11
  | .addw _ _ _ => 0x12
  | .subw _ _ _ => 0x13
  | .mul _ _ _ => 0x14
  | .sqr _ _ => 0x15
  | .cmp _ _ => 0x16
  | .bit _ _ _ => 0x17
  | .msb _ _ => 0x18
  | .bswap _ _ => 0x19
  | .redp _ _ => 0x20
  | .sinv _ _ => 0x28
  | .pdbl _ _ => 0x30
  | .paddm _ _ _ => 0x31
  | .pmulg _ _ => 0x38

/-- The encoded word carries the command's opcode in bits 31:24 and zero in RSV. -/
def EncodeOpcode.Statement (i : Instr) : Prop := opcField (encode i) = opcodeOf i ∧ rsvField (encode i) = 0

theorem EncodeOpcode.nop : EncodeOpcode.Statement .nop := by
  simp [EncodeOpcode.Statement, encode, opcodeOf]

theorem EncodeOpcode.mov (rd : Reg) (rs1 : Reg) : EncodeOpcode.Statement (.mov rd rs1) := by
  simp [EncodeOpcode.Statement, encode, opcodeOf]

theorem EncodeOpcode.ldi (rd : Reg) (imm : BitVec 8) : EncodeOpcode.Statement (.ldi rd imm) := by
  simp [EncodeOpcode.Statement, encode, opcodeOf]

theorem EncodeOpcode.ldk (rd : Reg) (imm : BitVec 8) : EncodeOpcode.Statement (.ldk rd imm) := by
  simp [EncodeOpcode.Statement, encode, opcodeOf]

theorem EncodeOpcode.ldt (rd : Reg) (imm : BitVec 8) : EncodeOpcode.Statement (.ldt rd imm) := by
  simp [EncodeOpcode.Statement, encode, opcodeOf]

theorem EncodeOpcode.add (rd : Reg) (rs1 : Reg) (rs2 : Reg) : EncodeOpcode.Statement (.add rd rs1 rs2) := by
  simp [EncodeOpcode.Statement, encode, opcodeOf]

theorem EncodeOpcode.sub (rd : Reg) (rs1 : Reg) (rs2 : Reg) : EncodeOpcode.Statement (.sub rd rs1 rs2) := by
  simp [EncodeOpcode.Statement, encode, opcodeOf]

theorem EncodeOpcode.addw (rd : Reg) (rs1 : Reg) (rs2 : Reg) : EncodeOpcode.Statement (.addw rd rs1 rs2) := by
  simp [EncodeOpcode.Statement, encode, opcodeOf]

theorem EncodeOpcode.subw (rd : Reg) (rs1 : Reg) (rs2 : Reg) : EncodeOpcode.Statement (.subw rd rs1 rs2) := by
  simp [EncodeOpcode.Statement, encode, opcodeOf]

theorem EncodeOpcode.mul (rd : Reg) (rs1 : Reg) (rs2 : Reg) : EncodeOpcode.Statement (.mul rd rs1 rs2) := by
  simp [EncodeOpcode.Statement, encode, opcodeOf]

theorem EncodeOpcode.sqr (rd : Reg) (rs1 : Reg) : EncodeOpcode.Statement (.sqr rd rs1) := by
  simp [EncodeOpcode.Statement, encode, opcodeOf]

theorem EncodeOpcode.cmp (rs1 : Reg) (rs2 : Reg) : EncodeOpcode.Statement (.cmp rs1 rs2) := by
  simp [EncodeOpcode.Statement, encode, opcodeOf]

theorem EncodeOpcode.bit (rd : Reg) (rs1 : Reg) (imm : BitVec 8) : EncodeOpcode.Statement (.bit rd rs1 imm) := by
  simp [EncodeOpcode.Statement, encode, opcodeOf]

theorem EncodeOpcode.msb (rd : Reg) (rs1 : Reg) : EncodeOpcode.Statement (.msb rd rs1) := by
  simp [EncodeOpcode.Statement, encode, opcodeOf]

theorem EncodeOpcode.bswap (rd : Reg) (rs1 : Reg) : EncodeOpcode.Statement (.bswap rd rs1) := by
  simp [EncodeOpcode.Statement, encode, opcodeOf]

theorem EncodeOpcode.redp (rd : Reg) (rs1 : Reg) : EncodeOpcode.Statement (.redp rd rs1) := by
  simp [EncodeOpcode.Statement, encode, opcodeOf]

theorem EncodeOpcode.sinv (rd : Reg) (rs1 : Reg) : EncodeOpcode.Statement (.sinv rd rs1) := by
  simp [EncodeOpcode.Statement, encode, opcodeOf]

theorem EncodeOpcode.pdbl (rd : Reg) (rs1 : Reg) : EncodeOpcode.Statement (.pdbl rd rs1) := by
  simp [EncodeOpcode.Statement, encode, opcodeOf]

theorem EncodeOpcode.paddm (rd : Reg) (rs1 : Reg) (rs2 : Reg) : EncodeOpcode.Statement (.paddm rd rs1 rs2) := by
  simp [EncodeOpcode.Statement, encode, opcodeOf]

theorem EncodeOpcode.pmulg (rd : Reg) (rs1 : Reg) : EncodeOpcode.Statement (.pmulg rd rs1) := by
  simp [EncodeOpcode.Statement, encode, opcodeOf]

end Sys2Proof.Laws
end

