-- ==== Sys2Proof/Laws/Primality.lean ====
section
/-! SUPPORT. The moduli are prime: `p` (spec/00_scope.md R3) and the group order `n` (spec/42_scalar_inverse.md R183,
K8), each by a chain of Lucas certificates, the factors of q − 1 with a primitive root. -/

namespace Sys2Proof.Machine

theorem prime_1206781 : Nat.Prime 1206781 := by
  refine prime_of_root 10 21 [2, 2, 3, 5, 20113] ?_ (by decide +kernel) (by decide +kernel)
    (by decide +kernel) (by decide +kernel) (by decide +kernel)
  simp only [List.forall_mem_cons]
  exact ⟨by norm_num, by norm_num, by norm_num, by norm_num, by norm_num, by simp⟩

theorem prime_7240687 : Nat.Prime 7240687 := by
  refine prime_of_root 3 23 [2, 3, 1206781] ?_ (by decide +kernel) (by decide +kernel)
    (by decide +kernel) (by decide +kernel) (by decide +kernel)
  simp only [List.forall_mem_cons]
  exact ⟨by norm_num, by norm_num, prime_1206781, by simp⟩

theorem prime_107590001 : Nat.Prime 107590001 := by
  refine prime_of_root 3 27 [2, 2, 2, 2, 5, 5, 5, 5, 7, 29, 53] ?_ (by decide +kernel) (by decide +kernel)
    (by decide +kernel) (by decide +kernel) (by decide +kernel)
  simp only [List.forall_mem_cons]
  exact ⟨by norm_num, by norm_num, by norm_num, by norm_num, by norm_num, by norm_num, by norm_num, 
    by norm_num, by norm_num, by norm_num, by norm_num, by simp⟩

theorem prime_255515944373312847190720520512484175977 : Nat.Prime 255515944373312847190720520512484175977 := by
  refine prime_of_root 3 128 [2, 2, 2, 7, 7, 11, 1627, 2657, 4423, 41201, 96557, 7240687, 107590001] ?_ (by decide +kernel) (by decide +kernel)
    (by decide +kernel) (by decide +kernel) (by decide +kernel)
  simp only [List.forall_mem_cons]
  exact ⟨by norm_num, by norm_num, by norm_num, by norm_num, by norm_num, by norm_num, by norm_num, 
    by norm_num, by norm_num, by norm_num, by norm_num, prime_7240687, prime_107590001, by simp⟩

theorem prime_13331831 : Nat.Prime 13331831 := by
  refine prime_of_root 13 24 [2, 5, 971, 1373] ?_ (by decide +kernel) (by decide +kernel)
    (by decide +kernel) (by decide +kernel) (by decide +kernel)
  simp only [List.forall_mem_cons]
  exact ⟨by norm_num, by norm_num, by norm_num, by norm_num, by simp⟩

theorem prime_173378833005251801 : Nat.Prime 173378833005251801 := by
  refine prime_of_root 6 58 [2, 2, 2, 5, 5, 2621, 24809, 13331831] ?_ (by decide +kernel) (by decide +kernel)
    (by decide +kernel) (by decide +kernel) (by decide +kernel)
  simp only [List.forall_mem_cons]
  exact ⟨by norm_num, by norm_num, by norm_num, by norm_num, by norm_num, by norm_num, by norm_num, 
    prime_13331831, by simp⟩

theorem prime_22149492674086928081353 : Nat.Prime 22149492674086928081353 := by
  refine prime_of_root 5 75 [2, 2, 2, 3, 5323, 173378833005251801] ?_ (by decide +kernel) (by decide +kernel)
    (by decide +kernel) (by decide +kernel) (by decide +kernel)
  simp only [List.forall_mem_cons]
  exact ⟨by norm_num, by norm_num, by norm_num, by norm_num, by norm_num, prime_173378833005251801, by simp⟩

theorem prime_132896956044521568488119 : Nat.Prime 132896956044521568488119 := by
  refine prime_of_root 6 77 [2, 3, 22149492674086928081353] ?_ (by decide +kernel) (by decide +kernel)
    (by decide +kernel) (by decide +kernel) (by decide +kernel)
  simp only [List.forall_mem_cons]
  exact ⟨by norm_num, by norm_num, prime_22149492674086928081353, by simp⟩

theorem prime_205115282021455665897114700593932402728804164701536103180137503955397371 : Nat.Prime 205115282021455665897114700593932402728804164701536103180137503955397371 := by
  refine prime_of_root 10 237 [2, 3, 5, 29, 29, 31, 7723, 132896956044521568488119, 255515944373312847190720520512484175977] ?_ (by decide +kernel) (by decide +kernel)
    (by decide +kernel) (by decide +kernel) (by decide +kernel)
  simp only [List.forall_mem_cons]
  exact ⟨by norm_num, by norm_num, by norm_num, by norm_num, by norm_num, by norm_num, by norm_num, 
    prime_132896956044521568488119, prime_255515944373312847190720520512484175977, by simp⟩

theorem p_prime : Nat.Prime p := by
  refine prime_of_root 3 256 [2, 3, 7, 13441, 205115282021455665897114700593932402728804164701536103180137503955397371] ?_ (by decide +kernel) (by decide +kernel)
    (by decide +kernel) (by decide +kernel) (by decide +kernel)
  simp only [List.forall_mem_cons]
  exact ⟨by norm_num, by norm_num, by norm_num, by norm_num, 
    prime_205115282021455665897114700593932402728804164701536103180137503955397371, by simp⟩

theorem prime_44706919 : Nat.Prime 44706919 := by
  refine prime_of_root 6 26 [2, 3, 797, 9349] ?_ (by decide +kernel) (by decide +kernel)
    (by decide +kernel) (by decide +kernel) (by decide +kernel)
  simp only [List.forall_mem_cons]
  exact ⟨by norm_num, by norm_num, by norm_num, by norm_num, by simp⟩

theorem prime_120233 : Nat.Prime 120233 := by
  refine prime_of_root 3 17 [2, 2, 2, 7, 19, 113] ?_ (by decide +kernel) (by decide +kernel)
    (by decide +kernel) (by decide +kernel) (by decide +kernel)
  simp only [List.forall_mem_cons]
  exact ⟨by norm_num, by norm_num, by norm_num, by norm_num, by norm_num, by norm_num, by simp⟩

theorem prime_174723607534414371449 : Nat.Prime 174723607534414371449 := by
  refine prime_of_root 3 68 [2, 2, 2, 17, 59, 4051, 120233, 44706919] ?_ (by decide +kernel) (by decide +kernel)
    (by decide +kernel) (by decide +kernel) (by decide +kernel)
  simp only [List.forall_mem_cons]
  exact ⟨by norm_num, by norm_num, by norm_num, by norm_num, by norm_num, by norm_num, prime_120233, 
    prime_44706919, by simp⟩

theorem prime_4681609 : Nat.Prime 4681609 := by
  refine prime_of_root 23 23 [2, 2, 2, 3, 97, 2011] ?_ (by decide +kernel) (by decide +kernel)
    (by decide +kernel) (by decide +kernel) (by decide +kernel)
  simp only [List.forall_mem_cons]
  exact ⟨by norm_num, by norm_num, by norm_num, by norm_num, by norm_num, by norm_num, by simp⟩

theorem prime_107361793816595537 : Nat.Prime 107361793816595537 := by
  refine prime_of_root 3 57 [2, 2, 2, 2, 16699, 85831, 4681609] ?_ (by decide +kernel) (by decide +kernel)
    (by decide +kernel) (by decide +kernel) (by decide +kernel)
  simp only [List.forall_mem_cons]
  exact ⟨by norm_num, by norm_num, by norm_num, by norm_num, by norm_num, by norm_num, prime_4681609, 
    by simp⟩

theorem prime_305873 : Nat.Prime 305873 := by
  refine prime_of_root 3 19 [2, 2, 2, 2, 7, 2731] ?_ (by decide +kernel) (by decide +kernel)
    (by decide +kernel) (by decide +kernel) (by decide +kernel)
  simp only [List.forall_mem_cons]
  exact ⟨by norm_num, by norm_num, by norm_num, by norm_num, by norm_num, by norm_num, by simp⟩

theorem prime_1627771 : Nat.Prime 1627771 := by
  refine prime_of_root 3 21 [2, 3, 5, 29, 1871] ?_ (by decide +kernel) (by decide +kernel)
    (by decide +kernel) (by decide +kernel) (by decide +kernel)
  simp only [List.forall_mem_cons]
  exact ⟨by norm_num, by norm_num, by norm_num, by norm_num, by norm_num, by simp⟩

theorem prime_297159362677 : Nat.Prime 297159362677 := by
  refine prime_of_root 2 39 [2, 2, 3, 3, 11, 461, 1627771] ?_ (by decide +kernel) (by decide +kernel)
    (by decide +kernel) (by decide +kernel) (by decide +kernel)
  simp only [List.forall_mem_cons]
  exact ⟨by norm_num, by norm_num, by norm_num, by norm_num, by norm_num, by norm_num, prime_1627771, 
    by simp⟩

theorem prime_545358713 : Nat.Prime 545358713 := by
  refine prime_of_root 5 30 [2, 2, 2, 41, 59, 28181] ?_ (by decide +kernel) (by decide +kernel)
    (by decide +kernel) (by decide +kernel) (by decide +kernel)
  simp only [List.forall_mem_cons]
  exact ⟨by norm_num, by norm_num, by norm_num, by norm_num, by norm_num, by norm_num, by simp⟩

theorem prime_29047611873442575647497758179 : Nat.Prime 29047611873442575647497758179 := by
  refine prime_of_root 2 95 [2, 293, 305873, 545358713, 297159362677] ?_ (by decide +kernel) (by decide +kernel)
    (by decide +kernel) (by decide +kernel) (by decide +kernel)
  simp only [List.forall_mem_cons]
  exact ⟨by norm_num, by norm_num, prime_305873, prime_545358713, prime_297159362677, by simp⟩

theorem prime_341948486974166000522343609283189 : Nat.Prime 341948486974166000522343609283189 := by
  refine prime_of_root 2 109 [2, 2, 3, 3, 3, 109, 29047611873442575647497758179] ?_ (by decide +kernel) (by decide +kernel)
    (by decide +kernel) (by decide +kernel) (by decide +kernel)
  simp only [List.forall_mem_cons]
  exact ⟨by norm_num, by norm_num, by norm_num, by norm_num, by norm_num, by norm_num, 
    prime_29047611873442575647497758179, by simp⟩

theorem n_prime : Nat.Prime n := by
  refine prime_of_root 7 256 [2, 2, 2, 2, 2, 2, 3, 149, 631, 107361793816595537, 174723607534414371449, 341948486974166000522343609283189] ?_ (by decide +kernel) (by decide +kernel)
    (by decide +kernel) (by decide +kernel) (by decide +kernel)
  simp only [List.forall_mem_cons]
  exact ⟨by norm_num, by norm_num, by norm_num, by norm_num, by norm_num, by norm_num, by norm_num, 
    by norm_num, by norm_num, prime_107361793816595537, prime_174723607534414371449, 
    prime_341948486974166000522343609283189, by simp⟩

end Sys2Proof.Machine
end

