-- ==== Sys2Proof/Laws/Step.lean ====
section
/-! SUPPORT. What one step can do, said once: if it answers a next state, one of the cases of `StepCase` holds. -/

namespace Sys2Proof.Machine

/-- CTRL stands at one offset (R62). -/
theorem windowReg_eq_ctrl {off : Offset} (h : windowReg off = .ctrl) : off = 0x004 := by
  unfold windowReg at h
  repeat' split at h
  all_goals first
    | (cases h; done)
    | assumption

theorem wordAt_eq (i : Reg) (j : Fin 8) : wordAt i j = wOffset i j := rfl

/-- The state a write is served in: taken from the inputs and acknowledged. -/
def State.acked (s : State) (rest : List Input) : State := { s with inputs := rest, reply := .ack }

@[simp] theorem State.acked_busy (s : State) (rest : List Input) : (s.acked rest).busy = s.busy := rfl
@[simp] theorem State.acked_w (s : State) (rest : List Input) : (s.acked rest).w = s.w := rfl
@[simp] theorem State.acked_valued (s : State) (rest : List Input) : (s.acked rest).valued = s.valued := rfl
@[simp] theorem State.acked_flags (s : State) (rest : List Input) : (s.acked rest).flags = s.flags := rfl
@[simp] theorem State.acked_ieDone (s : State) (rest : List Input) : (s.acked rest).ieDone = s.ieDone := rfl
@[simp] theorem State.acked_ieErr (s : State) (rest : List Input) : (s.acked rest).ieErr = s.ieErr := rfl
@[simp] theorem State.acked_done (s : State) (rest : List Input) : (s.acked rest).done = s.done := rfl
@[simp] theorem State.acked_err (s : State) (rest : List Input) : (s.acked rest).err = s.err := rfl
@[simp] theorem State.acked_errCode (s : State) (rest : List Input) : (s.acked rest).errCode = s.errCode := rfl
@[simp] theorem State.acked_errReg (s : State) (rest : List Input) : (s.acked rest).errReg = s.errReg := rfl
@[simp] theorem State.acked_errCmd (s : State) (rest : List Input) : (s.acked rest).errCmd = s.errCmd := rfl
@[simp] theorem State.acked_engine (s : State) (rest : List Input) : (s.acked rest).engine = s.engine := rfl
@[simp] theorem State.acked_draws (s : State) (rest : List Input) : (s.acked rest).draws = s.draws := rfl
@[simp] theorem State.acked_inputs (s : State) (rest : List Input) : (s.acked rest).inputs = rest := rfl
@[simp] theorem State.acked_reply (s : State) (rest : List Input) : (s.acked rest).reply = .ack := rfl

/-- A read changes the reply and the count of draws, and nothing else (R66). -/
theorem State.serveRead_frame (s : State) (off : Offset) :
    s.serveRead off = { s with reply := (s.serveRead off).reply, draws := (s.serveRead off).draws } := by
  unfold State.serveRead
  split <;> rfl

/-- An aligned write of 32 bits is served. -/
theorem step_hostWrite {s : State} {off : Offset} {v : Word} {rest : List Input} (ha : off.toNat % 4 = 0)
    (h : s.inputs = hostWrite off v :: rest) : step s = serveWrite off v (s.acked rest) := by
  simp [step, h, hostWrite, serveAccess, legalAccess, ha, State.acked]

/-- An aligned read of 32 bits is served. -/
theorem step_hostRead {s : State} {off : Offset} {rest : List Input} (ha : off.toNat % 4 = 0)
    (h : s.inputs = hostRead off :: rest) : step s = .next ({ s with inputs := rest }.serveRead off) := by
  simp [step, h, hostRead, serveAccess, legalAccess, ha]

/-- A CMD write presents its word as a command (R29). -/
theorem step_cmdWrite {s : State} {w : Word} {rest : List Input} (h : s.inputs = cmdWrite w :: rest) :
    step s = presentCommand w (s.acked rest) :=
  step_hostWrite (by decide) h

/-- The cases of a step that answers a next state. -/
inductive StepCase (s t : State) : Prop
  | idleOrDrain (h : s.inputs = []) (ht : t = s.complete)
  | engineTurn (rest : List Input) (h : s.inputs = .engine :: rest) (ht : t = { s with inputs := rest }.complete)
  | reset (rest : List Input) (h : s.inputs = .reset :: rest) (ht : t = { s with inputs := rest }.applyReset)
  | read (off : Offset) (rest : List Input) (h : s.inputs = hostRead off :: rest) (ha : off.toNat % 4 = 0)
      (ht : t = { s with inputs := rest }.serveRead off)
  | ctrlWrite (v : Word) (rest : List Input) (h : s.inputs = ctrlWrite v :: rest) (ht : t = (s.acked rest).writeCtrl v)
  | ignoredWrite (off : Offset) (v : Word) (rest : List Input) (h : s.inputs = hostWrite off v :: rest)
      (ha : off.toNat % 4 = 0) (hc : windowReg off ≠ .cmd) (hr : windowReg off ≠ .ctrl)
      (hw : ∀ i j, windowReg off ≠ .w i j) (ht : t = s.acked rest)
  | wordOverrun (i : Reg) (j : Fin 8) (v : Word) (rest : List Input) (h : s.inputs = hostWrite (wOffset i j) v :: rest)
      (hb : s.busy = true) (ht : t = (s.acked rest).overrun (wOffset i j))
  | wordWrite (i : Reg) (j : Fin 8) (v : Word) (rest : List Input) (h : s.inputs = hostWrite (wOffset i j) v :: rest)
      (hb : s.busy = false) (ht : t = (s.acked rest).setWord i j v)
  | cmdOverrun (w : Word) (rest : List Input) (h : s.inputs = cmdWrite w :: rest) (hb : s.busy = true)
      (ht : t = (s.acked rest).overrun cmdOffset)
  | cmdDiscarded (w : Word) (rest : List Input) (h : s.inputs = cmdWrite w :: rest) (hb : s.busy = false)
      (he : s.err = true) (ht : t = s.acked rest)
  | cmdAborted (w : Word) (rest : List Input) (e : DecodeError) (h : s.inputs = cmdWrite w :: rest)
      (hb : s.busy = false) (he : s.err = false) (hd : decode w = .error e)
      (ht : t = (s.acked rest).abort (decodeErrorCode e) 0 w)
  | cmdAccepted (w : Word) (rest : List Input) (i : Instr) (h : s.inputs = cmdWrite w :: rest)
      (hb : s.busy = false) (he : s.err = false) (hd : decode w = .ok i) (ht : exec i (s.acked rest) = .next t)

theorem stepCase_of_present {s t : State} {w : Word} {rest : List Input} (hin : s.inputs = cmdWrite w :: rest)
    (h : presentCommand w (s.acked rest) = .next t) : StepCase s t := by
  unfold presentCommand at h
  rw [State.acked_busy, State.acked_err] at h
  split at h
  · cases h; exact .cmdOverrun w rest hin ‹_› rfl
  · rename_i hb
    split at h
    · cases h; exact .cmdDiscarded w rest hin (by simpa using hb) ‹_› rfl
    · rename_i he
      split at h
      · rename_i e hd
        cases h
        exact .cmdAborted w rest e hin (by simpa using hb) (by simpa using he) hd rfl
      · rename_i i hd
        exact .cmdAccepted w rest i hin (by simpa using hb) (by simpa using he) hd h

theorem step_cases {s t : State} (h : step s = .next t) : StepCase s t := by
  rcases hin : s.inputs with _ | ⟨x, rest⟩
  · simp only [step, hin] at h
    cases h; exact .idleOrDrain hin rfl
  rcases x with (⟨off, size⟩ | ⟨off, size, v⟩) | _ | _
  · simp only [step, hin, serveAccess] at h
    split at h
    · rename_i hl
      simp only [legalAccess, Bool.and_eq_true, beq_iff_eq] at hl
      obtain ⟨rfl, hl⟩ := hl
      cases h; exact .read off rest hin hl rfl
    · cases h
  · simp only [step, hin, serveAccess] at h
    split at h
    · rename_i hl
      simp only [legalAccess, Bool.and_eq_true, beq_iff_eq] at hl
      obtain ⟨rfl, hl⟩ := hl
      change serveWrite off v (s.acked rest) = _ at h
      unfold serveWrite at h
      split at h
      · rename_i hw
        obtain rfl := windowReg_eq_cmd hw
        exact stepCase_of_present hin h
      · rename_i hw
        obtain rfl := windowReg_eq_ctrl hw
        cases h; exact .ctrlWrite v rest hin rfl
      · rename_i i j hw
        obtain rfl := eq_wOffset hl hw
        split at h
        · cases h; exact .wordOverrun i j v rest hin ‹_› rfl
        · rename_i hb
          cases h; exact .wordWrite i j v rest hin (by simpa using hb) rfl
      all_goals
        rename_i hw
        cases h
        exact .ignoredWrite off v rest hin hl (by simp [hw]) (by simp [hw]) (by simp [hw]) rfl
    · cases h
  · simp only [step, hin] at h
    cases h; exact .engineTurn rest hin rfl
  · simp only [step, hin] at h
    cases h; exact .reset rest hin rfl

end Sys2Proof.Machine
end

