-- ==== Sys2Proof/Tests/Slice0.lean ====
section
/-! SUPPORT. The model's own tests. Their expected values are the spec's: the encodings of spec/30_encoding.md and the
vectors of spec/95_test_vectors.md, whose identifiers they name. After them, a witness for the hypotheses of every
obligation that has hypotheses. -/

namespace Sys2Proof.Tests

set_option Elab.async false

open Sys2Proof Sys2Proof.Machine

/-! ## The ill-formed terms of each check -/

/-- One ill-formed term for each constraint of R93, a register one past its last base; then the last legal ones. -/
theorem test_wf_refuses_ill_formed :
    [Instr.ldk 0 5, .ldt 0 0, .ldt 15 1,
     .addw 1 0 0, .addw 0 1 0, .addw 0 0 1, .subw 1 0 0, .subw 0 1 0, .subw 0 0 1,
     .mul 3 1 2, .sqr 7 3, .redp 4 3, .pdbl 14 0, .pdbl 0 14,
     .paddm 14 0 0, .paddm 0 14 0, .paddm 0 0 15, .pmulg 14 0].all (fun i => !i.wf) = true := by decide

theorem test_wf_admits_the_boundaries :
    [Instr.ldk 15 4, .ldt 14 255, .ldt 14 1, .addw 14 14 14, .subw 14 0 14, .mul 14 15 15, .sqr 14 15, .redp 15 14,
     .pdbl 13 13, .paddm 13 13 14, .pmulg 13 15].all (fun i => i.wf) = true := by decide

/-! ## Decoding: one word for each constructor, written out from the spec's encoding -/

theorem test_decode_move :
    decode 0x00000000 = .ok .nop ∧ decode 0x01520000 = .ok (.mov 5 2) ∧ decode 0x020000FF = .ok (.ldi 0 255) ∧
    decode 0x03300004 = .ok (.ldk 3 4) ∧ decode 0x04E000FF = .ok (.ldt 14 255) := ⟨rfl, rfl, rfl, rfl, rfl⟩

theorem test_decode_wide :
    decode 0x10201000 = .ok (.add 2 0 1) ∧ decode 0x11201000 = .ok (.sub 2 0 1) ∧
    decode 0x12402000 = .ok (.addw 4 0 2) ∧ decode 0x13402000 = .ok (.subw 4 0 2) ∧
    decode 0x14412000 = .ok (.mul 4 1 2) ∧ decode 0x15630000 = .ok (.sqr 6 3) ∧
    decode 0x16045000 = .ok (.cmp 4 5) ∧ decode 0x170100FF = .ok (.bit 0 1 255) ∧
    decode 0x18010000 = .ok (.msb 0 1) ∧ decode 0x19410000 = .ok (.bswap 4 1) :=
  ⟨rfl, rfl, rfl, rfl, rfl, rfl, rfl, rfl, rfl, rfl⟩

theorem test_decode_units :
    decode 0x20BC0000 = .ok (.redp 11 12) ∧ decode 0x28100000 = .ok (.sinv 1 0) ∧
    decode 0x30400000 = .ok (.pdbl 4 0) ∧ decode 0x31740000 = .ok (.paddm 7 4 0) ∧
    decode 0x31703000 = .ok (.paddm 7 0 3) ∧ decode 0x38870000 = .ok (.pmulg 8 7) :=
  ⟨rfl, rfl, rfl, rfl, rfl, rfl⟩

/-- V-ER-1 to V-ER-3: the opcode is checked first. -/
theorem test_decode_illegal_opcode :
    decode 0xFF000000 = .error .illegalOpcode ∧ decode 0x05000000 = .error .illegalOpcode ∧
    decode 0x05000100 = .error .illegalOpcode := ⟨rfl, rfl, rfl⟩

/-- V-ER-4 to V-ER-11, V-FR-10, V-MV-7. -/
theorem test_decode_illegal_field :
    decode 0x10201100 = .error .illegalField ∧ decode 0x14312000 = .error .illegalField ∧
    decode 0x30E00000 = .error .illegalField ∧ decode 0x03000005 = .error .illegalField ∧
    decode 0x04000000 = .error .illegalField ∧ decode 0x00000001 = .error .illegalField ∧
    decode 0x16101000 = .error .illegalField ∧ decode 0x12102000 = .error .illegalField ∧
    decode 0x20430000 = .error .illegalField ∧ decode 0x04F00001 = .error .illegalField :=
  ⟨rfl, rfl, rfl, rfl, rfl, rfl, rfl, rfl, rfl, rfl⟩

theorem test_decodeTableWord :
    decodeTableWord 32 0x10201000 = some (.add 2 0 1) ∧ decodeTableWord 32 0x05000000 = none := ⟨rfl, rfl⟩

/-! ## One step of each command -/

/-- Reset, then the writes of some registers. -/
def put (ws : List (Reg × W256)) : State := State.reset.setRegs ws

/-- A word presented to the machine, and the completion that follows it. -/
def issue (w : Nat) (s : State) : State :=
  match step (s.withFetchWord 32 w) with
  | .next t => t.complete
  | .fault _ => s
  | .refused _ => s

/-- The values of some registers. -/
def regs (s : State) (rs : List Reg) : List Nat := rs.map (fun r => (s.reg r).toNat)

/-- The largest register value. -/
def max : W256 := BitVec.allOnes 256

/-- Flags that are all set, to see which a command leaves. -/
def allFlags : Flags := ⟨true, true, true, true, true⟩

/-- V-MV-1. -/
theorem test_nop :
    let u := issue 0x00000000 { put [(0, 3)] with flags := allFlags }
    regs u [0] = [3] ∧ u.flags = allFlags ∧ u.statusWord = 2 := by decide +kernel

/-- V-MV-2. -/
theorem test_mov :
    let u := issue 0x01520000 (put [(2, 7)])
    regs u [5, 2] = [7, 7] ∧ u.hasValue 5 = true := by decide +kernel

/-- V-MV-3. -/
theorem test_ldi :
    let u := issue 0x020000FF State.reset
    regs u [0] = [0xFF] := by decide +kernel

/-- V-MV-4, first and last entry. -/
theorem test_ldk :
    let u := issue 0x03300004 (issue 0x03400000 State.reset)
    regs u [3, 4] = [7, 0xFFFFFFFFFFFFFFFFFFFFFFFFFFFFFFFFFFFFFFFFFFFFFFFFFFFFFFFEFFFFFC2F] := by decide +kernel

/-- V-MV-5. -/
theorem test_ldt_first :
    let u := issue 0x04000001 State.reset
    regs u [0, 1] =
      [0x79BE667EF9DCBBAC55A06295CE870B07029BFCDB2DCE28D959F2815B16F81798,
       0x483ADA7726A3C4655DA4FBFC0E1108A8FD17B448A68554199C47D08FFB10D4B8] := by decide +kernel

/-- V-MV-6. -/
theorem test_ldt_last :
    let u := issue 0x04E000FF State.reset
    regs u [14, 15] =
      [0x1B38903A43F7F114ED4500B4EAC7083FDEFECE1CF29C63528D563446F972C180,
       0x4036EDC931A60AE889353F77FD53DE4A2708B26B6F5DA72AD3394119DAF408F9] := by decide +kernel

/-- V-WI-1, with the other flags kept (R26). -/
theorem test_add_carry :
    let u := issue 0x10201000 { put [(0, max), (1, 1)] with flags := ⟨false, true, true, true, true⟩ }
    regs u [2, 0, 1] = [0, 2 ^ 256 - 1, 1] ∧ u.flags = allFlags := by decide +kernel

/-- V-WI-3. -/
theorem test_add_same :
    let u := issue 0x10000000 (put [(0, max)])
    regs u [0] = [2 ^ 256 - 2] ∧ u.flags.c = true := by decide +kernel

/-- V-WI-4. -/
theorem test_sub_borrow :
    let u := issue 0x11201000 (put [(0, 0), (1, 1)])
    regs u [2] = [2 ^ 256 - 1] ∧ u.flags.c = true := by decide +kernel

/-- V-WI-5. -/
theorem test_sub_equal :
    let u := issue 0x11201000 { put [(0, 5), (1, 5)] with flags := allFlags }
    regs u [2] = [0] ∧ u.flags = ⟨false, true, true, true, true⟩ := by decide +kernel

/-- V-WI-6. -/
theorem test_addw_cross :
    let u := issue 0x12402000 (put [(0, max), (1, 0), (2, 1), (3, 0)])
    regs u [4, 5] = [0, 1] ∧ u.flags.c = false := by decide +kernel

/-- V-WI-7. -/
theorem test_addw_carry :
    let u := issue 0x12402000 (put [(0, max), (1, max), (2, 1), (3, 0)])
    regs u [4, 5] = [0, 0] ∧ u.flags.c = true := by decide +kernel

/-- V-WI-8. -/
theorem test_subw_cross :
    let u := issue 0x13402000 (put [(0, 0), (1, 1), (2, 1), (3, 0)])
    regs u [4, 5] = [2 ^ 256 - 1, 0] ∧ u.flags.c = false := by decide +kernel

/-- V-WI-9. -/
theorem test_subw_borrow :
    let u := issue 0x13402000 (put [(0, 0), (1, 0), (2, 1), (3, 0)])
    regs u [4, 5] = [2 ^ 256 - 1, 2 ^ 256 - 1] ∧ u.flags.c = true := by decide +kernel

/-- V-WI-10. -/
theorem test_mul_max :
    let u := issue 0x14412000 { put [(1, max), (2, max)] with flags := allFlags }
    regs u [4, 5] = [1, 2 ^ 256 - 2] ∧ u.flags = allFlags := by decide +kernel

/-- V-WI-12. -/
theorem test_mul_overlap :
    let u := issue 0x14001000 (put [(0, BitVec.twoPow 256 128), (1, BitVec.twoPow 256 128)])
    regs u [0, 1] = [0, 1] := by decide +kernel

/-- V-WI-13. -/
theorem test_sqr :
    let u := issue 0x15630000 (put [(3, BitVec.twoPow 256 128)])
    regs u [6, 7] = [0, 1] := by decide +kernel

/-- V-WI-14. -/
theorem test_cmp_less :
    let u := issue 0x16001000 { put [(0, 5), (1, 7)] with flags := ⟨true, false, false, true, true⟩ }
    u.flags = ⟨true, true, false, false, true⟩ ∧ regs u [0, 1] = [5, 7] := by decide +kernel

/-- V-WI-16. -/
theorem test_cmp_unsigned :
    let u := issue 0x16001000 (put [(0, max), (1, 0)])
    u.flags = ⟨false, false, false, true, false⟩ := by decide +kernel

/-- V-WI-17. -/
theorem test_bit_top :
    let u := issue 0x170100FF (put [(1, BitVec.twoPow 256 255)])
    regs u [0] = [1] := by decide +kernel

/-- V-WI-18. -/
theorem test_bit_low :
    let u := issue 0x17010000 (put [(1, BitVec.twoPow 256 255)])
    regs u [0] = [0] := by decide +kernel

/-- V-WI-19. -/
theorem test_msb_zero :
    let u := issue 0x18010000 (put [(0, 9), (1, 0)])
    regs u [0] = [0] ∧ u.flags = ⟨false, false, false, false, true⟩ := by decide +kernel

/-- V-WI-22. -/
theorem test_msb_max :
    let u := issue 0x18010000 { put [(1, max)] with flags := allFlags }
    regs u [0] = [255] ∧ u.flags = ⟨true, true, true, true, false⟩ := by decide +kernel

/-- V-WI-24. -/
theorem test_bswap :
    let u := issue 0x19010000 (put [(1, 0x0102030405060708090A0B0C0D0E0F101112131415161718191A1B1C1D1E1F20)])
    regs u [0] = [0x201F1E1D1C1B1A191817161514131211100F0E0D0C0B0A090807060504030201] := by decide +kernel

/-- V-FR-1. -/
theorem test_redp_product :
    let u := issue 0x20420000 (put
      [(3, 0xFFFFFFFFFFFFFFFFFFFFFFFFFFFFFFFFFFFFFFFFFFFFFFFFFFFFFFFDFFFFF85C),
       (2, 0x000000000000000000000000000000000000000000000001000007A4000E9844)])
    regs u [4] = [1] := by decide +kernel

/-- V-FR-4. -/
theorem test_redp_max :
    let u := issue 0x20420000 (put [(3, max), (2, max)])
    regs u [4] = [0x1000007A2000E90A0] := by decide +kernel

/-- V-SI-8: the destination is the source. -/
theorem test_sinv_two :
    let u := issue 0x28000000 (put [(0, 2)])
    regs u [0] = [0x7FFFFFFFFFFFFFFFFFFFFFFFFFFFFFFF5D576E7357A4501DDFE92F46681B20A1] := by decide +kernel

/-- V-SI-6. -/
theorem test_sinv_range :
    let u := issue 0x28100000 (put [(0, 0xFFFFFFFFFFFFFFFFFFFFFFFFFFFFFFFEBAAEDCE6AF48A03BBFD25E8CD0364141)])
    u.errCodeWord = 0x00000003 ∧ u.errCmd = 0x28100000 ∧ regs u [1] = [0] ∧ u.hasValue 1 = false ∧
    u.statusWord = 6 := by decide +kernel

/-- V-PT-1. -/
theorem test_pdbl_generator :
    let u := issue 0x30400000 (put
      [(0, 0x79BE667EF9DCBBAC55A06295CE870B07029BFCDB2DCE28D959F2815B16F81798),
       (1, 0x483ADA7726A3C4655DA4FBFC0E1108A8FD17B448A68554199C47D08FFB10D4B8), (2, 1)])
    regs u [4, 5, 6] =
      [0x7D152C041EA8E1DC2191843D1FA9DB55B68F88FEF695E2C791D40444B365AFC2,
       0x56915849F52CC8F76F5FD7E4BF60DB4A43BF633E1B1383F85FE89164BFADCBDB,
       0x9075B4EE4D4788CABB49F7F81C221151FA2F68914D0AA833388FA11FF621A970] := by decide +kernel

/-- V-PT-9. -/
theorem test_pdbl_off_curve :
    let u := issue 0x30400000 (put [(0, 1), (1, 1), (2, 1)])
    regs u [4, 5, 6] = [1, 1, 2] ∧ u.err = false := by decide +kernel

/-- V-PT-4. -/
theorem test_paddm_general :
    let u := issue 0x31740000 (put
      [(0, 0x79BE667EF9DCBBAC55A06295CE870B07029BFCDB2DCE28D959F2815B16F81798),
       (1, 0x483ADA7726A3C4655DA4FBFC0E1108A8FD17B448A68554199C47D08FFB10D4B8), (2, 1),
       (4, 0x7D152C041EA8E1DC2191843D1FA9DB55B68F88FEF695E2C791D40444B365AFC2),
       (5, 0x56915849F52CC8F76F5FD7E4BF60DB4A43BF633E1B1383F85FE89164BFADCBDB),
       (6, 0x9075B4EE4D4788CABB49F7F81C221151FA2F68914D0AA833388FA11FF621A970)])
    regs u [7, 8, 9] =
      [0xCA90EF9B06D7EB51D650E9145E3083CBD8DF8759168862036F97A358F089848,
       0xBCA50189FE8472AA2FB007567229F4D458149078094D7E7D35BB6C27E9A22B08,
       0x6DBD0563F460DC5C401595F1492430343B7AC0165DA116B7EFA23994D564A085] := by decide +kernel

/-- V-PT-3. -/
theorem test_paddm_equal_points :
    let u := issue 0x31A00000 (put
      [(0, 0x79BE667EF9DCBBAC55A06295CE870B07029BFCDB2DCE28D959F2815B16F81798),
       (1, 0x483ADA7726A3C4655DA4FBFC0E1108A8FD17B448A68554199C47D08FFB10D4B8), (2, 1)])
    regs u [10, 11, 12] =
      [0x7D152C041EA8E1DC2191843D1FA9DB55B68F88FEF695E2C791D40444B365AFC2,
       0x56915849F52CC8F76F5FD7E4BF60DB4A43BF633E1B1383F85FE89164BFADCBDB,
       0x9075B4EE4D4788CABB49F7F81C221151FA2F68914D0AA833388FA11FF621A970] := by decide +kernel

/-- V-PM-5. -/
theorem test_pmulg_two_bytes :
    let u := issue 0x38100000 (put [(0, 256)])
    regs u [1, 2, 3] =
      [0xABDFBDE3FDFE4845E814F8949D51DA90B37A25989C80E4399CF6249FEAED4EF2,
       0x48F48D4AF6FF28359635A1C776A47832D8FBC1433BA904ED4D2CA306B7BFD032,
       0x4CA9A978BFEBDD2ACA83C5D39E51CA031575DE0493AF0A046EFCF07E04424578] := by decide +kernel

/-- V-PM-4. -/
theorem test_pmulg_last_scalar :
    let u := issue 0x38100000 (put [(0, 0xFFFFFFFFFFFFFFFFFFFFFFFFFFFFFFFEBAAEDCE6AF48A03BBFD25E8CD0364140)])
    regs u [1, 2, 3] =
      [0x1577BF49B3211269E50219DFFA6E7E7A382469759159F402ED1C92703B7D3D52,
       0x8FB13163E22D8FEAF2745E3B585EE7D79BBA2E3239CB04438A2AC8508538EAD1,
       0xD79ABCDF3A748D796DA387C2BBA50750FAF38D206C527C39C6AB839A602ABC5B] := by decide +kernel

/-- V-PT-5, V-PT-6, V-PT-7, V-PT-8 and V-PT-10, on the functions of the units. -/
theorem test_point_special_cases :
    madd ⟨0, 0, 0⟩ gen = ⟨gx, gy, 1⟩ ∧ madd ⟨gx, gy, 1⟩ ⟨gx, p - gy⟩ = ⟨0, 0, 0⟩ ∧ dbl ⟨3, 4, 0⟩ = ⟨0, 0, 0⟩ ∧
    dbl ⟨5, 0, 1⟩ = ⟨0, 0, 0⟩ ∧ madd ⟨1, 1, 1⟩ ⟨2, 3⟩ = ⟨1, p - 1, 1⟩ := by decide +kernel

/-! ## Errors and the status protocol -/

/-- V-ER-13. -/
theorem test_range_first_coordinate :
    let u := issue 0x31703000 (put [(0, 0), (1, 0xFFFFFFFFFFFFFFFFFFFFFFFFFFFFFFFFFFFFFFFFFFFFFFFFFFFFFFFEFFFFFC2F), (2, 0),
      (3, 0xFFFFFFFFFFFFFFFFFFFFFFFFFFFFFFFFFFFFFFFFFFFFFFFFFFFFFFFEFFFFFC2F), (4, 0)])
    u.errCodeWord = 0x00000103 ∧ u.errCmd = 0x31703000 ∧ u.statusWord = 6 := by decide +kernel

/-- V-ER-14. -/
theorem test_range_affine :
    let u := issue 0x31703000 (put [(0, 0), (1, 0), (2, 0), (3, 0xFFFFFFFFFFFFFFFFFFFFFFFFFFFFFFFFFFFFFFFFFFFFFFFFFFFFFFFEFFFFFC2F),
      (4, 0)])
    u.errCodeWord = 0x00000303 := by decide +kernel

/-- The machine after its inputs, `k` steps on. -/
def after (k : Nat) (s : State) : State :=
  match core.run k s with
  | .next t => t
  | .fault _ => s
  | .refused _ => s

/-- V-ER-1, V-ER-15, V-ER-16: an abort, the discard of a command, CLR_ERR, and the command again. -/
theorem test_error_and_recovery :
    let s := { State.reset with inputs := [cmdWrite 0xFF000000, cmdWrite 0x02200005, ctrlWrite 0x200, cmdWrite 0x02200005] }
    (after 1 s).statusWord = 6 ∧ (after 1 s).errCodeWord = 1 ∧ (after 1 s).errCmd = 0xFF000000 ∧
    (after 2 s).errCmd = 0xFF000000 ∧ (after 2 s).busy = false ∧
    (after 3 s).errCodeWord = 0 ∧ (after 3 s).errCmd = 0 ∧
    (after 4 s).statusWord = 1 ∧ regs (after 5 s) [2] = [5] := by decide +kernel

/-- V-ER-17: a W write while BUSY. -/
theorem test_overrun :
    let s := { put [(0, 2)] with inputs := [cmdWrite 0x28100000, hostWrite 0x104 7, .engine] }
    (after 2 s).errCodeWord = 4 ∧ (after 2 s).errCmd = 0x104 ∧ (after 2 s).busy = true ∧ regs (after 2 s) [0] = [2] ∧
    (after 3 s).statusWord = 6 ∧
    regs (after 3 s) [1] = [0x7FFFFFFFFFFFFFFFFFFFFFFFFFFFFFFF5D576E7357A4501DDFE92F46681B20A1] := by decide +kernel

/-- V-ER-19 and V-ER-20: the interrupt. -/
theorem test_interrupt :
    let s := { State.reset with inputs := [ctrlWrite 1, cmdWrite 0, .engine, ctrlWrite 0x101, ctrlWrite 2, cmdWrite 0xFF000000] }
    (after 3 s).statusWord = 0xA ∧ (after 4 s).statusWord = 0 ∧ (after 6 s).statusWord = 0xE := by decide +kernel

/-- V-ER-22: the refused bus accesses. -/
theorem test_bus_errors :
    step { State.reset with inputs := [.host (.read 0x008 2)] } = .fault (.hostBusError (Config.base + 8) 2) ∧
    step { State.reset with inputs := [hostRead 0x006] } = .fault (.hostBusError (Config.base + 6) 4) := ⟨rfl, rfl⟩

/-- V-ER-21: the read that the spec calls UninitRead is one, and the model runs on. -/
theorem test_uninit_read :
    let s := { State.reset with inputs := [cmdWrite 0x01100000] }
    s.uninitRead = some 0 ∧ (after 1 s).busy = true := by decide +kernel

/-- V-ER-23, V-ER-24 and the words of a register (program P1). -/
theorem test_window_reads :
    (after 1 { State.reset with inputs := [hostRead 0x000] }).reply = .data 0x4F504501 ∧
    (after 1 { State.reset with inputs := [hostRead 0x300] }).reply = .data 0 ∧
    (after 1 { put [(1, BitVec.ofNat 256 gx)] with inputs := [hostRead 0x120] }).reply = .data 0x16F81798 ∧
    (after 1 { put [(1, BitVec.ofNat 256 gx)] with inputs := [hostRead 0x13C] }).reply = .data 0x79BE667E := by
  decide +kernel

/-- The staging of program P1: eight word writes give a register its value. -/
theorem test_window_writes :
    let s := { State.reset with inputs := [hostWrite 0x100 1, hostWrite 0x11C 0x80000000] }
    regs (after 2 s) [0] = [2 ^ 255 + 1] ∧ (after 2 s).hasWord 0 0 = true ∧ (after 2 s).hasWord 0 1 = false := by
  decide +kernel

/-! ## The assembler (R100, R101) -/

theorem test_assembler_examples :
    assembleLine "ADD W3, W1, W2".toList = some [.add 3 1 2] ∧
    assembleLine "MUL W4, W1, W2 ; a product".toList = some [.mul 4 1 2] ∧
    assembleLine "CMP W1, W2".toList = some [.cmp 1 2] ∧
    assembleLine "BIT W0, W1, 255".toList = some [.bit 0 1 255] ∧
    assembleLine "LDK W0, 0x1".toList = some [.ldk 0 1] ∧
    assembleLine "PADDM W7, W0, W4".toList = some [.paddm 7 0 4] ∧
    assembleLine "NOP".toList = some [.nop] ∧
    assembleLine "ADD W16, W0, W0".toList = none := by decide +kernel

theorem test_assembler_pseudo :
    assembleLine "LDGJ W0".toList = some [.ldt 0 1, .ldi 2 1] ∧
    assembleLine "FMUL W4, W0, W0, W2".toList = some [.mul 2 0 0, .redp 4 2] ∧
    assembleLine "FSQR W11, W6, W12".toList = some [.sqr 12 6, .redp 11 12] ∧
    assembleLine "FROMBE W1, W0".toList = some [.bswap 1 0] := by decide +kernel

/-- The bounds of R101: LDG d ≤ 14, LDGJ d ≤ 13, an even scratch base. -/
theorem test_assembler_pseudo_bounds :
    assembleLine "LDG W14".toList = some [.ldt 14 1] ∧ assembleLine "LDG W15".toList = none ∧
    assembleLine "LDGJ W13".toList = some [.ldt 13 1, .ldi 15 1] ∧ assembleLine "LDGJ W14".toList = none ∧
    assembleLine "FMUL W4, W0, W0, W3".toList = none ∧ assembleLine "FSQR W4, W0, W15".toList = none := by
  decide +kernel

/-! ## Witnesses: concrete states and operands that meet the hypotheses of each obligation -/

/-- Reset, with inputs. -/
def host (l : List Input) : State := { State.reset with inputs := l }

/-- A command in flight: `LDI W0, 5`. -/
def loading : InFlight := ⟨.ldi 0 5, [], ⟨[(0, 5)], .keep⟩⟩

/-- A BUSY machine. -/
def running (f : InFlight) (l : List Input) : State := { State.reset with engine := .busy f, inputs := l }

/-- A machine in error, IDLE. -/
def inError (l : List Input) : State :=
  { State.reset with done := true, err := true, errCode := .illegalOpcode, errCmd := 0x05000000, inputs := l }

/-- The step of a state, as a state. -/
def next (s : State) : State :=
  match step s with
  | .next t => t
  | .fault _ => s
  | .refused _ => s

theorem witness_DecodeOfEncodeIsTheCommand : (Instr.paddm 13 13 14).wf = true ∧ (Instr.ldt 14 255).wf = true := by
  decide

theorem witness_EncodeOfDecodeIsTheWord : decode 0x31DDE000 = .ok (.paddm 13 13 14) := rfl

theorem witness_DecodeFollowsTheOpcodeMap :
    ∃ r ∈ mapRows, (0x03F00004 : Word) &&& r.mask = r.mtch ∧ r.make 0x03F00004 = .ldk 15 4 ∧
      (Instr.ldk 15 4).wf = true := by decide

/-- The ends of the ranges of unassigned opcodes, and their neighbours. -/
theorem witness_RejectedWordsAreRejectedByName :
    [0x05, 0x0F, 0x1A, 0x1F, 0x21, 0x27, 0x29, 0x2F, 0x32, 0x37, 0x39, 0xFF].all unassignedOpcode = true ∧
    [0x00, 0x04, 0x10, 0x19, 0x20, 0x28, 0x30, 0x31, 0x38].all (fun o => !unassignedOpcode o) = true ∧
    (∀ r ∈ mapRows, ¬ ((0x03000005 : Word) &&& r.mask = r.mtch ∧ (r.make 0x03000005).wf = true)) := by decide

theorem witness_StepRunsTheDecodedCommand :
    (host [cmdWrite 0x10201000]).ready ∧ (host [cmdWrite 0x10201000]).inputs = cmdWrite 0x10201000 :: [] ∧
    decode 0x10201000 = .ok (.add 2 0 1) := ⟨⟨rfl, rfl⟩, rfl, rfl⟩

theorem witness_IllegalWordsAreAborted :
    ((host [cmdWrite 0x05000100]).ready ∧ (host [cmdWrite 0x05000100]).inputs = cmdWrite 0x05000100 :: [] ∧
      unassignedOpcode ((0x05000100 : Word).extractLsb' 24 8).toNat = true) ∧
    ((host [cmdWrite 0x12102000]).ready ∧ (host [cmdWrite 0x12102000]).inputs = cmdWrite 0x12102000 :: [] ∧
      unassignedOpcode ((0x12102000 : Word).extractLsb' 24 8).toNat = false ∧
      ∀ r ∈ mapRows, ¬ ((0x12102000 : Word) &&& r.mask = r.mtch ∧ (r.make 0x12102000).wf = true)) :=
  ⟨⟨⟨rfl, rfl⟩, rfl, by decide⟩, ⟨rfl, rfl⟩, rfl, by decide, by decide⟩

/-- A scalar of n is out of range, one of n − 1 is not. -/
theorem witness_RangeNamesTheFirstOperandOutOfBounds :
    (Instr.sinv 1 0).wf = true ∧ (put [(0, BitVec.ofNat 256 n)]).err = false ∧
    firstOutOfRange (.sinv 1 0) (put [(0, BitVec.ofNat 256 n)]) = some 0 ∧
    firstOutOfRange (.sinv 1 0) (put [(0, BitVec.ofNat 256 (n - 1))]) = none := by decide +kernel

theorem witness_CmdWriteHasOneOutcome :
    ((running loading [cmdWrite 0]).inputs = cmdWrite 0 :: [] ∧ (running loading [cmdWrite 0]).busy = true) ∧
    ((inError [cmdWrite 0]).inputs = cmdWrite 0 :: [] ∧ (inError [cmdWrite 0]).busy = false ∧
      (inError [cmdWrite 0]).err = true) ∧
    ((host [cmdWrite 0]).inputs = cmdWrite 0 :: [] ∧ (host [cmdWrite 0]).busy = false ∧
      (host [cmdWrite 0]).err = false) := by decide +kernel

/-- Writes to CMD and to the first and last word of the W region, and a read of a W word, while BUSY. -/
theorem witness_OverrunDiscardsTheWrite :
    ∀ off ∈ [(0x00C : Offset), 0x100, 0x2FC],
      (running loading [hostWrite off 1]).engine = .busy loading ∧ off.toNat % 4 = 0 ∧
      (running loading [hostWrite off 1]).inputs = hostWrite off 1 :: [] ∧
      (off = 0x00C ∨ (0x100 ≤ off.toNat ∧ off.toNat < 0x300)) ∧
      (running loading [hostRead 0x2FC]).inputs = hostRead 0x2FC :: [] := by
  intro off h
  fin_cases h <;> decide +kernel

theorem witness_CommandsAreDiscardedInError :
    ((inError [cmdWrite 0]).engine = .idle ∧ (inError [cmdWrite 0]).err = true ∧
      (inError [cmdWrite 0]).inputs = cmdWrite 0 :: []) ∧
    ((inError [hostWrite (wordAt 15 7) 1]).engine = .idle ∧ (inError [hostWrite (wordAt 15 7) 1]).err = true ∧
      (inError [hostWrite (wordAt 15 7) 1]).inputs = hostWrite (wordAt 15 7) 1 :: []) := by decide +kernel

theorem witness_FirstErrorIsKept :
    let s := { running loading [cmdWrite 0] with err := true, errCode := .overrun, errCmd := 0x104 }
    step s = .next (next s) ∧ s.err = true ∧ (next s).err = true := ⟨rfl, rfl, rfl⟩

theorem witness_OnlyClearOrResetEndsAnError :
    (step (inError [ctrlWrite 0x200]) = .next (next (inError [ctrlWrite 0x200])) ∧
      (inError [ctrlWrite 0x200]).err = true ∧ (next (inError [ctrlWrite 0x200])).err = false) ∧
    (step (inError [cmdWrite 0]) = .next (next (inError [cmdWrite 0])) ∧ (inError [cmdWrite 0]).err = true ∧
      (inError [cmdWrite 0]).busy = false) := ⟨⟨rfl, rfl, rfl⟩, rfl, rfl, rfl⟩

theorem witness_CtrlTakesBitsAndActs :
    (inError [ctrlWrite 0x303]).inputs = ctrlWrite 0x303 :: [] ∧
    (running loading [hostRead 0x004]).inputs = hostRead 0x004 :: [] := ⟨rfl, rfl⟩

/-- While IDLE, with a command to follow. -/
theorem witness_ClearErrorReturns :
    (inError [ctrlWrite 0x200, cmdWrite 0]).inputs = ctrlWrite 0x200 :: [cmdWrite 0] ∧
    (0x200 : Word).getLsbD 9 = true ∧ (inError [ctrlWrite 0x200, cmdWrite 0]).engine = .idle ∧
    decode 0 = .ok .nop := ⟨rfl, rfl, rfl, rfl⟩

theorem witness_IrqIsTheLevelOfItsCondition :
    (inError [hostRead 0x008]).inputs = hostRead 0x008 :: [] := rfl

/-- The last word of the last register. -/
theorem witness_WindowWordsAreTheRegisters :
    (host [hostRead 0x2FC]).engine = .idle ∧ BitVec.ofNat 12 (0x100 + 0x20 * 15 + 4 * 7) = (0x2FC : Offset) ∧
    (host [hostRead 0x2FC]).inputs = hostRead 0x2FC :: [] ∧
    (host [hostWrite 0x2FC 1]).inputs = hostWrite 0x2FC 1 :: [] := by decide +kernel

/-- The ends of the reserved ranges; a read-only register. -/
theorem witness_ReservedReadsZeroAndIgnoresWrites :
    (∀ off ∈ [(0x01C : Offset), 0x0FC, 0x300, 0xFFC], off.toNat % 4 = 0 ∧
      ((0x01C ≤ off.toNat ∧ off.toNat ≤ 0x0FF) ∨ 0x300 ≤ off.toNat) ∧
      (host [hostRead off]).inputs = hostRead off :: []) ∧
    (host [hostWrite 0x000 1]).inputs = hostWrite 0x000 1 :: [] := by
  refine ⟨fun off h => ?_, rfl⟩
  fin_cases h <;> decide +kernel

/-- The first and last W word, the reserved words beside them, and FLAGS. -/
theorem witness_ReadsWhileBusy :
    ∀ off ∈ [(0x100 : Offset), 0x2FC, 0x0FC, 0x300, 0x010],
      (running loading [hostRead off]).engine = .busy loading ∧ off.toNat % 4 = 0 ∧
      (running loading [hostRead off]).inputs = hostRead off :: [] := by
  intro off h
  fin_cases h <;> decide +kernel

theorem witness_IdCmdAndErrorRegistersRead :
    ∀ off ∈ [(0x000 : Offset), 0x00C, 0x014, 0x018], (inError [hostRead off]).inputs = hostRead off :: [] := by
  intro off h
  fin_cases h <;> decide +kernel

theorem witness_AccessesHaveNoOtherSideEffects :
    (step (running loading [hostRead 0x100]) = .next (next (running loading [hostRead 0x100])) ∧
      (running loading [hostRead 0x100]).inputs = .host (.read 0x100 4) :: []) ∧
    (step (host [hostWrite 0x300 1]) = .next (next (host [hostWrite 0x300 1])) ∧
      (host [hostWrite 0x300 1]).inputs = .host (.write 0x300 4 1) :: []) := ⟨⟨rfl, rfl⟩, rfl, rfl⟩

theorem witness_OnlyBusErrorsStopTheMachine :
    (host [.host (.read 0x008 2)]).inputs = .host (.read 0x008 2) :: [] ∧
    (host [.host (.write 0x00E 4 0)]).inputs = .host (.write 0x00E 4 0) :: [] ∧ (0x00E : Offset).toNat % 4 ≠ 0 :=
  ⟨rfl, rfl, by decide⟩

/-- The first address above the window. -/
theorem witness_WindowStandsAtBase :
    Config.base + 4096 < Config.base ∨ Config.base + 4096 ≤ Config.base + 4096 := .inr (Nat.le_refl _)

theorem witness_ResetAbandonsTheCommand :
    (running loading [.reset]).inputs = .reset :: [] ∧ (running loading [.reset]).busy = true := ⟨rfl, rfl⟩

theorem loading_legal : loading.legal := ⟨by decide, rfl, rfl, rfl⟩

theorem witness_CompletionIsOneStep :
    (running loading [.engine]).engine = .busy loading ∧ loading.legal ∧
    (running loading [.engine]).inputs = .engine :: [] ∧ (running loading []).inputs = [] ∧
    (0, 5) ∈ loading.result.writes ∧ (loading.result.writes.map Prod.fst).Nodup :=
  ⟨rfl, loading_legal, rfl, rfl, by decide, by decide⟩

theorem witness_EveryRunEndsIdle :
    LegalInputs (host [cmdWrite 0, .reset, cmdWrite 0, hostRead 0x2FC, .engine]).inputs := by
  intro x hx
  simp [host, cmdWrite, hostWrite, hostRead] at hx
  rcases hx with rfl | rfl | rfl | rfl | rfl <;> trivial

theorem running_inv (l : List Input) : (running loading l).Inv :=
  ⟨⟨.inl rfl, .inl rfl, .inl rfl⟩, ⟨rfl, rfl, rfl⟩, ⟨loading_legal, rfl, fun h => nomatch h⟩⟩

theorem witness_StepKeepsTheInvariant :
    (running loading []).Inv ∧ step (running loading []) = .next (next (running loading [])) :=
  ⟨running_inv [], rfl⟩

/-- Two states that differ in a word without a value, and a step that reads a word with one. -/
theorem witness_UnvaluedWordsAreNotSeen :
    let s := { put [(0, 7)] with inputs := [cmdWrite 0x01100000] }
    let t := { s with w := s.w.set 3 1 }
    s ≠ t ∧ AgreeOnValued s t ∧ s.uninitRead = none ∧ step s = .next (next s) := by
  refine ⟨by decide +kernel, ⟨rfl, ?_⟩, by decide +kernel, rfl⟩
  decide +kernel

/-- A completion that changes LT. -/
def comparing : InFlight := ⟨.cmp 0 1, [5, 7], ⟨[], .compare true false false⟩⟩

theorem comparing_inv (l : List Input) : (running comparing l).Inv :=
  ⟨⟨.inl rfl, .inl rfl, .inl rfl⟩, ⟨rfl, rfl, rfl⟩, ⟨⟨by decide, rfl, rfl, .inl rfl⟩, rfl, fun h => nomatch h⟩⟩

theorem witness_FlagsChangeOnlyAtTheirCompletion :
    (running comparing []).Inv ∧ step (running comparing []) = .next (next (running comparing [])) ∧
    ¬ (running comparing []).atReset ∧
    (next (running comparing [])).flags.lt ≠ (running comparing []).flags.lt ∧
    (∃ t, exec .nop (host []) = .next t) :=
  ⟨comparing_inv [], rfl, (by rintro ⟨_, h⟩; cases h), by decide +kernel, _, rfl⟩

theorem witness_RegistersChangeOnlyByTheirWriters :
    (running loading []).Inv ∧ step (running loading []) = .next (next (running loading [])) ∧
    ¬ (running loading []).atReset ∧ (next (running loading [])).reg 0 ≠ (running loading []).reg 0 :=
  ⟨running_inv [], rfl, (by rintro ⟨_, h⟩; cases h), by decide +kernel⟩

theorem witness_EngineChangesOnlyByStartAndCompletion :
    (step (host [cmdWrite 0]) = .next (next (host [cmdWrite 0])) ∧
      (next (host [cmdWrite 0])).engine ≠ (host [cmdWrite 0]).engine) ∧
    (step (running loading [.engine]) = .next (next (running loading [.engine])) ∧
      (next (running loading [.engine])).engine ≠ (running loading [.engine]).engine) :=
  ⟨⟨rfl, by decide +kernel⟩, rfl, by decide +kernel⟩

/-! The commands: a legal word and a word that is refused for each opcode, and operands that meet the constraints. -/

/-- OPC of a word. -/
def opc (w : Word) : BitVec 8 := w.extractLsb' 24 8

theorem witness_NopMovLdi :
    opc 0x00000000 = 0x00 ∧ opc 0x00000001 = 0x00 ∧ opc 0x01F00000 = 0x01 ∧ opc 0x02F000FF = 0x02 ∧
    (host [cmdWrite (encode (.mov 15 14))]).ready ∧ (host [cmdWrite (encode (.mov 15 14))]).hasValue 14 = false :=
  ⟨by decide, by decide, by decide, by decide, ⟨rfl, rfl⟩, by decide⟩

theorem witness_LdkLdt :
    opc 0x03000004 = 0x03 ∧ opc 0x03000005 = 0x03 ∧ (4 : BitVec 8).toNat ≤ 4 ∧
    opc 0x04E000FF = 0x04 ∧ 1 ≤ (1 : BitVec 8).toNat ∧ 1 ≤ (255 : BitVec 8).toNat ∧ (14 : Reg).val ≤ 14 := by decide

theorem witness_AddSub : opc 0x10201000 = 0x10 ∧ opc 0x11201000 = 0x11 := by decide

theorem witness_AddwSubw :
    opc 0x12402000 = 0x12 ∧ opc 0x13402000 = 0x13 ∧ (14 : Reg).val % 2 = 0 ∧ (0 : Reg).val % 2 = 0 := by decide

theorem witness_MulSqr : opc 0x14412000 = 0x14 ∧ opc 0x15630000 = 0x15 ∧ (14 : Reg).val % 2 = 0 := by decide

theorem witness_CmpSetsExactlyOneFlag : opc 0x16001000 = 0x16 := by decide

/-- MSB on 0 and on 1. -/
theorem witness_BitMsb :
    opc 0x170100FF = 0x17 ∧ opc 0x18010000 = 0x18 ∧ (put [(1, 0)]).reg 1 = 0 ∧ (put [(1, 1)]).reg 1 ≠ 0 := by
  decide +kernel

theorem witness_BswapReversesTheBytes : opc 0x19010000 = 0x19 ∧ 31 < 32 := by decide

theorem witness_LimbAlgorithmsAreExact :
    2 ^ 512 - 1 < 2 ^ (64 * 8) ∧ 2 ^ 256 - 1 < 2 ^ 256 := by decide +kernel

theorem witness_RedpReducesModP : opc 0x20420000 = 0x20 ∧ (14 : Reg).val % 2 = 0 := by decide

/-- A value that needs the third fold (V-FR-4), and enough fuel. -/
theorem witness_FoldingIsTheRemainder :
    2 ^ 512 - 1 < 2 ^ 512 ∧ 3 ≤ 3 ∧ 2 ^ 256 ≤ foldOnce foldP (foldOnce foldP (2 ^ 512 - 1)) := by decide +kernel

theorem witness_ScalarFoldIsTheRemainder : n - 1 < n ∧ foldReduce foldN n 4 ((n - 1) * (n - 1)) = 1 := by
  decide +kernel

theorem witness_FieldFunctionsAreExact : 0 < p ∧ p - 1 < p := by decide +kernel

theorem witness_SinvRaisesToNMinusTwo :
    opc 0x28100000 = 0x28 ∧ ((put [(0, BitVec.ofNat 256 (n - 1))]).reg 0).toNat < n ∧
    n ≤ ((put [(0, BitVec.ofNat 256 n)]).reg 0).toNat ∧ (put [(0, BitVec.ofNat 256 n)]).err = false := by
  decide +kernel

theorem witness_FixedPatternIsThePower : 0 < n ∧ n - 1 < n := by decide +kernel

theorem witness_SinvGivesTheUniqueInverse :
    0 < ((put [(0, 2)]).reg 0).toNat ∧ ((put [(0, 2)]).reg 0).toNat < n := by decide +kernel

/-- The generator as a triple in W13, W14, W15. -/
def generatorAt13 : State := put [(13, BitVec.ofNat 256 gx), (14, BitVec.ofNat 256 gy), (15, 1)]

/-- The second coordinate of the triple is p. -/
def secondIsP : State := put [(1, BitVec.ofNat 256 p)]

theorem witness_PdblDoublesThePoint :
    opc 0x30400000 = 0x30 ∧ (13 : Reg).val ≤ 13 ∧ (generatorAt13.jac 13).reduced ∧ secondIsP.err = false ∧
    [(0 : Reg), 0 + 1, 0 + 2].find? (fun q => p ≤ (secondIsP.reg q).toNat) = some 1 := by
  refine ⟨by decide, by decide, ⟨?_, ?_, ?_⟩, ?_, ?_⟩ <;> decide +kernel

theorem witness_PaddmAddsThePoint :
    opc 0x31740000 = 0x31 ∧ (13 : Reg).val ≤ 13 ∧ (14 : Reg).val ≤ 14 ∧ (generatorAt13.jac 13).reduced ∧
    (generatorAt13.aff 14).reduced ∧ secondIsP.err = false ∧
    [(2 : Reg), 2 + 1, 2 + 2, 0, 0 + 1].find? (fun q => p ≤ (secondIsP.reg q).toNat) = some 1 := by
  refine ⟨by decide, by decide, by decide, ⟨?_, ?_, ?_⟩, ⟨?_, ?_⟩, ?_, ?_⟩ <;> decide +kernel

/-- Scalars 0, 1, 255 and n − 1, which run, and n, which does not. -/
theorem witness_PmulgMultipliesTheGenerator :
    opc 0x38100000 = 0x38 ∧ (13 : Reg).val ≤ 13 ∧ 0 < n ∧ 255 < n ∧
    ((put [(0, BitVec.ofNat 256 (n - 1))]).reg 0).toNat < n ∧
    n ≤ ((put [(0, BitVec.ofNat 256 n)]).reg 0).toNat ∧ (put [(0, BitVec.ofNat 256 n)]).err = false := by
  decide +kernel

/-- A finite triple, an infinite one, and one with Y = 0. -/
theorem witness_DblIsItsFormula :
    (∀ P ∈ [(⟨gx, gy, 1⟩ : Jac), ⟨3, 4, 0⟩, ⟨5, 0, 1⟩], P.reduced) ∧ (gy ≠ 0) := by
  refine ⟨?_, by decide +kernel⟩
  intro P hP
  simp at hP
  rcases hP with rfl | rfl | rfl <;> refine ⟨?_, ?_, ?_⟩ <;> decide +kernel

/-- An infinite P, and for P = (1, 1, 1) an equal point, its negative, and a point with another x. -/
theorem witness_MaddIsItsFormula :
    (Jac.reduced ⟨1, 1, 1⟩ ∧ Jac.reduced ⟨3, 4, 0⟩ ∧ Aff.reduced ⟨1, 1⟩ ∧ Aff.reduced ⟨1, p - 1⟩ ∧ Aff.reduced ⟨2, 3⟩) ∧
    (maddH ⟨1, 1, 1⟩ ⟨1, 1⟩ = 0 ∧ maddR ⟨1, 1, 1⟩ ⟨1, 1⟩ = 0) ∧
    (maddH ⟨1, 1, 1⟩ ⟨1, p - 1⟩ = 0 ∧ maddR ⟨1, 1, 1⟩ ⟨1, p - 1⟩ ≠ 0) ∧ maddH ⟨1, 1, 1⟩ ⟨2, 3⟩ ≠ 0 := by
  refine ⟨⟨⟨?_, ?_, ?_⟩, ⟨?_, ?_, ?_⟩, ⟨?_, ?_⟩, ⟨?_, ?_⟩, ⟨?_, ?_⟩⟩, ⟨?_, ?_⟩, ⟨?_, ?_⟩, ?_⟩ <;> decide +kernel

/-! The points: the generator is a point of the curve, and its negative. -/

theorem generator_equation : curve.Nonsingular (gx : ZMod p) (gy : ZMod p) := by
  have cast_ne : ∀ a : Nat, a % p ≠ 0 → (a : ZMod p) ≠ 0 := fun a h he =>
    h (Nat.mod_eq_zero_of_dvd ((ZMod.natCast_eq_zero_iff _ _).1 he))
  rw [WeierstrassCurve.Affine.nonsingular_iff, WeierstrassCurve.Affine.equation_iff]
  simp only [curve, zero_mul, add_zero, mul_zero, sub_zero]
  constructor
  · have h : ((gy ^ 2 : Nat) : ZMod p) = ((gx ^ 3 + 7 : Nat) : ZMod p) := by
      rw [ZMod.natCast_eq_natCast_iff]; decide +kernel
    push_cast at h
    exact h
  · refine .inl fun h => cast_ne (3 * gx ^ 2) (by decide +kernel) ?_
    push_cast
    exact h.symm

/-- The generator, as a point of the group. -/
noncomputable def generator : curve.Point := .some (gx : ZMod p) (gy : ZMod p) generator_equation

theorem generator_denotes : gen.Denotes generator := by
  unfold generator Aff.Denotes
  exact ⟨by simp only [gen], by simp only [gen]⟩

theorem generator_reduced : gen.reduced := ⟨by decide +kernel, by decide +kernel⟩

/-- The generator and its negative, as triples. -/
def genJac : Jac := ⟨gx, gy, 1⟩
def negJac : Jac := ⟨gx, p - gy, 1⟩

theorem genJac_denotes : genJac.Denotes generator := by
  unfold generator Jac.Denotes
  refine ⟨by decide, ?_, ?_⟩ <;> simp only [genJac, Nat.cast_one, one_pow, mul_one]

theorem negJac_denotes : negJac.Denotes (-generator) := by
  unfold generator
  rw [WeierstrassCurve.Affine.Point.neg_some]
  unfold Jac.Denotes
  have h : ((p - gy : Nat) : ZMod p) = -(gy : ZMod p) := by
    rw [Nat.cast_sub (by decide +kernel), ZMod.natCast_self, zero_sub]
  refine ⟨by decide, ?_, ?_⟩ <;>
    simp only [negJac, Nat.cast_one, one_pow, mul_one, WeierstrassCurve.Affine.negY, curve, zero_mul, sub_zero, h]

theorem genJac_reduced : genJac.reduced := ⟨by decide +kernel, by decide +kernel, by decide⟩

theorem negJac_reduced : negJac.reduced := ⟨by decide +kernel, by decide +kernel, by decide⟩

/-- Equal points, and infinity with a point. -/
theorem witness_PointFunctionsAreTheGroupLaw :
    genJac.reduced ∧ genJac.Denotes generator ∧ Jac.Denotes ⟨3, 4, 0⟩ .zero ∧ gen.reduced ∧ gen.Denotes generator ∧
    Nat.Prime p :=
  ⟨genJac_reduced, genJac_denotes, rfl, generator_reduced, generator_denotes, p_prime⟩

/-- A sum that is infinity, and one that doubles. -/
theorem witness_DegenerateResultsOnTheCurve :
    (gen.reduced ∧ gen.Denotes generator) ∧
    (negJac.reduced ∧ negJac.Denotes (-generator) ∧ negJac.z ≠ 0 ∧ (madd negJac gen).z = 0) ∧
    (genJac.reduced ∧ genJac.Denotes generator ∧ genJac.z ≠ 0 ∧ maddH genJac gen = 0 ∧ maddR genJac gen = 0) ∧
    Nat.Prime p :=
  ⟨⟨generator_reduced, generator_denotes⟩, ⟨negJac_reduced, negJac_denotes, by decide, by decide +kernel⟩,
    ⟨genJac_reduced, genJac_denotes, by decide, by decide +kernel, by decide +kernel⟩, p_prime⟩

theorem witness_TableHoldsTheMultiplesOfG : Nat.Prime p ∧ gen.Denotes generator ∧ 1 ≤ 1 ∧ 255 ≤ 255 :=
  ⟨p_prime, generator_denotes, by decide, by decide⟩

theorem witness_MulgIsTheScalarMultiple : Nat.Prime p ∧ gen.Denotes generator ∧ 0 < n ∧ n - 1 < n :=
  ⟨p_prime, generator_denotes, by decide +kernel, by decide +kernel⟩

/-- The last round of n − 1, with a finite accumulator. -/
theorem witness_NoExceptionalAdditionInMulg :
    n - 1 < n ∧ 31 < 32 ∧ (romT (scalarByte (n - 1) 0)).isSome = true ∧ (mulgAcc (n - 1) 31).z ≠ 0 := by
  decide +kernel

/-- A scratch pair that holds the destination and the operands. -/
theorem witness_FmulFsqrGiveTheFieldProduct : (14 : Reg).val % 2 = 0 := by decide

/-- Both completion statements of the units rest on the fixed exponent: 256 bits, 196 of them set (R181). -/
theorem test_fixed_exponent :
    Nat.log2 (n - 2) = 255 ∧ ((List.range 256).filter (fun k => (n - 2).testBit k)).length = 196 := by decide +kernel

end Sys2Proof.Tests
end

section
/-! SUPPORT. Encoding and decoding of a legal command (spec/30_encoding.md R92, R99), and what the flags a command
writes say of the command (spec/10_state.md R25, R26). -/

namespace Sys2Proof.Machine

/-- What decodes is a legal command. -/
theorem wf_of_decode {w : Word} {i : Instr} (h : decode w = .ok i) : i.wf = true := by
  obtain ⟨r, -, -, -, hw⟩ := decode_eq_ok.1 h
  exact hw

/-- The row of a command's opcode accepts its encoding: the unused fields are zero, and the used ones are its own. -/
theorem decode_encode {i : Instr} (h : i.wf = true) : decode (encode i) = .ok i := by
  rw [decode_eq_ok]
  cases i <;>
    exact ⟨_, by rw [encode, opcField_assemble]; rfl, by simp [OpcodeRow.zerosClear, encode],
      by simp [OpcodeRow.instr, encode], h⟩

/-- Only the four additions and subtractions write the carry. -/
theorem flagKind_carry {i : Instr} {c : Bool} (h : flagKind i (.carry c)) :
    ∃ rd a b, i = .add rd a b ∨ i = .sub rd a b ∨ i = .addw rd a b ∨ i = .subw rd a b := by
  cases i <;> simp_all [flagKind]

/-- Only CMP writes LT, EQ and GT. -/
theorem flagKind_compare {i : Instr} {lt eq gt : Bool} (h : flagKind i (.compare lt eq gt)) :
    ∃ a b, i = .cmp a b := by
  cases i <;> simp_all [flagKind]

/-- Only MSB writes Z. -/
theorem flagKind_zero {i : Instr} {z : Bool} (h : flagKind i (.zero z)) : ∃ rd a, i = .msb rd a := by
  cases i <;> simp_all [flagKind]

/-- The flags a command writes keep the legality of LT, EQ and GT: a compare writes exactly one 1. -/
theorem compareLegal_apply {i : Instr} {fw : FlagWrite} {fl : Flags} (hk : flagKind i fw) (hf : fl.compareLegal) :
    (fw.apply fl).compareLegal := by
  cases fw with
  | keep => exact hf
  | carry c => exact hf
  | zero z => exact hf
  | compare lt eq gt =>
    obtain ⟨a, b, rfl⟩ := flagKind_compare hk
    rcases hk with hk | hk | hk <;> cases hk <;> simp [Flags.compareLegal, FlagWrite.apply]

end Sys2Proof.Machine
end

section
/-! SUPPORT. What the operations of a step do to the state: completion, the abort from a state with no error, a CTRL
write, a read, and the acceptance of a legal command. -/

namespace Sys2Proof.Machine

/-- The engine's turn: an IDLE engine does nothing, a BUSY one finishes its command (R259). -/
theorem State.complete_cases (s : State) :
    (s.engine = .idle ∧ s.complete = s) ∨ ∃ f, s.engine = .busy f ∧ s.complete = s.finished f.result := by
  cases h : s.engine with
  | idle => exact .inl ⟨rfl, State.complete_idle h⟩
  | busy f => exact .inr ⟨f, rfl, State.complete_busy h⟩

/-- A completion raises and clears no error (R259). -/
@[simp] theorem State.complete_err (s : State) : s.complete.err = s.err := by
  rcases s.complete_cases with ⟨-, hc⟩ | ⟨f, -, hc⟩ <;> rw [hc]
  simp [State.finished]

/-- A read keeps ERR (R66). -/
@[simp] theorem State.serveRead_err (s : State) (off : Offset) : (s.serveRead off).err = s.err := by
  rw [State.serveRead_frame]

/-- An abort from a state with no error records its own error (R252, R257). -/
theorem State.abort_of_not_err {s : State} (h : s.err = false) (c : ErrorCode) (r : Reg) (x : Word) :
    s.abort c r x = Aborted c r x s := by
  simp [State.abort, h, Aborted]

/-- After an overrun ERR is 1, whichever error is the recorded one (R257, R258). -/
@[simp] theorem State.overrun_err (s : State) (off : Offset) : (s.overrun off).err = true := by
  unfold State.overrun
  cases h : s.err <;> simp [h]

/-- A CTRL write, field by field (R27). -/
theorem State.writeCtrl_eq (s : State) (v : Word) :
    s.writeCtrl v = { s with
      ieDone := v.getLsbD 0
      ieErr := v.getLsbD 1
      done := s.done && !(v.getLsbD 8)
      err := s.err && !(v.getLsbD 9)
      errCode := if v.getLsbD 9 then .noError else s.errCode
      errReg := if v.getLsbD 9 then 0 else s.errReg
      errCmd := if v.getLsbD 9 then 0 else s.errCmd } := by
  unfold State.writeCtrl
  cases v.getLsbD 8 <;> cases v.getLsbD 9 <;> simp [State.clearDone, State.clearError]

/-- A read of a place that is no W word returns its image, in every state (R66, R67). -/
theorem step_readImage {s : State} {off : Offset} {rest : List Input} (ha : off.toNat % 4 = 0)
    (hw : ∀ i j, windowReg off ≠ .w i j) (h : s.inputs = hostRead off :: rest) :
    step s = .next { s with inputs := rest, reply := .data (s.image (windowReg off)) } := by
  rw [step_hostRead ha h]
  unfold State.serveRead
  split
  · rename_i i j hij _
    exact absurd hij (hw i j)
  · cases windowReg off <;> rfl

/-- What the acceptance of a legal command leaves: the started command, or the RANGE abort (R250, R256). -/
theorem exec_next_cases {i : Instr} (hw : i.wf = true) {s t : State} (h : exec i s = .next t) :
    (∃ res : Result, res.writes.map Prod.fst = dests i ∧ flagKind i res.flags ∧
        t = s.start ⟨i, (sources i).map s.reg, res⟩) ∨
      (∃ r ∈ sources i, t = s.abort .range r (encode i)) := by
  rcases exec_cases hw s with ⟨res, -, hd, hk, hx⟩ | ⟨r, hr, hx⟩ <;> rw [hx] at h <;> cases h
  · exact .inl ⟨res, hd, hk, rfl⟩
  · exact .inr ⟨r, firstOutOfRange_mem hr, rfl⟩

end Sys2Proof.Machine
end

section
/-! SUPPORT. The invariant, one lemma for each operation that touches what it speaks of. -/

namespace Sys2Proof.Machine

/-- The engine part of the invariant as an implication: an IDLE engine says nothing. -/
theorem State.engineLegal_iff {s : State} :
    s.engineLegal ↔ ∀ f, s.engine = .busy f → f.legal ∧ s.done = false ∧ (s.err = true → s.errCode = .overrun) := by
  cases h : s.engine <;> simp [State.engineLegal, h]

theorem State.engineLegal_of_idle {s : State} (h : s.engine = .idle) : s.engineLegal := by
  simp [State.engineLegal, h]

/-- What a BUSY engine holds is legal. -/
theorem State.Inv.legal {s : State} {f : InFlight} (hs : s.Inv) (h : s.engine = .busy f) : f.legal :=
  (State.engineLegal_iff.1 hs.engine f h).1

theorem State.inv_reset : State.reset.Inv where
  flags := ⟨.inl rfl, .inl rfl, .inl rfl⟩
  error := ⟨rfl, rfl, rfl⟩
  engine := trivial

/-- The invariant does not speak of the fields RESET leaves. -/
theorem State.inv_applyReset (s : State) : s.applyReset.Inv :=
  ⟨State.inv_reset.flags, State.inv_reset.error, State.inv_reset.engine⟩

theorem State.Inv.acked {s : State} (hs : s.Inv) (rest : List Input) : (s.acked rest).Inv :=
  ⟨hs.flags, hs.error, hs.engine⟩

theorem State.Inv.serveRead {s : State} (hs : s.Inv) (off : Offset) : (s.serveRead off).Inv := by
  rw [State.serveRead_frame]
  exact ⟨hs.flags, hs.error, hs.engine⟩

theorem State.Inv.setWord {s : State} (hs : s.Inv) (i : Reg) (j : Fin 8) (v : Word) : (s.setWord i j v).Inv :=
  ⟨hs.flags, hs.error, hs.engine⟩

theorem State.Inv.finished {s : State} {f : InFlight} (hs : s.Inv) (h : s.engine = .busy f) :
    (s.finished f.result).Inv := by
  obtain ⟨-, -, -, hk⟩ := hs.legal h
  unfold State.finished
  rw [State.setRegs_frame]
  exact ⟨compareLegal_apply hk hs.flags, hs.error, trivial⟩

theorem State.Inv.complete {s : State} (hs : s.Inv) : s.complete.Inv := by
  rcases s.complete_cases with ⟨-, hc⟩ | ⟨f, hf, hc⟩ <;> rw [hc]
  · exact hs
  · exact hs.finished hf

/-- CLR_ERR empties the error registers together, CLR_DONE cannot set DONE. -/
theorem State.Inv.writeCtrl {s : State} (hs : s.Inv) (v : Word) : (s.writeCtrl v).Inv := by
  rw [State.writeCtrl_eq]
  refine ⟨hs.flags, ?_, State.engineLegal_iff.2 fun f hf => ?_⟩
  · cases v.getLsbD 9
    · simpa [State.errorLegal] using hs.error
    · simp [State.errorLegal]
  · obtain ⟨hl, hd, he⟩ := State.engineLegal_iff.1 hs.engine f hf
    refine ⟨hl, by simp [hd], ?_⟩
    cases v.getLsbD 9
    · simpa using he
    · simp

/-- An overrun records the offset of CMD or of a W word, and is the one error a BUSY engine may show (R258, R265). -/
theorem State.Inv.overrun {s : State} (hs : s.Inv) {off : Offset}
    (ho : off = cmdOffset ∨ ∃ i j, off = wOffset i j) : (s.overrun off).Inv := by
  unfold State.overrun
  cases he : s.err with
  | true => rw [State.recordError_of_err he]; exact hs
  | false =>
    rw [State.recordError_of_not_err he]
    refine ⟨hs.flags, ⟨rfl, rfl, ?_⟩, State.engineLegal_iff.2 fun f hf => ?_⟩
    · rcases ho with rfl | ⟨i, j, rfl⟩
      · exact .inl rfl
      · exact .inr ⟨i, j, rfl⟩
    · obtain ⟨hl, hd, -⟩ := State.engineLegal_iff.1 hs.engine f hf
      exact ⟨hl, hd, fun _ => rfl⟩

/-- An abort of an IDLE engine, when what it records is legal. -/
theorem State.Inv.aborted {s : State} (hs : s.Inv) (hi : s.engine = .idle) {c : ErrorCode} {r : Reg} {w : Word}
    (hl : (Aborted c r w s).errorLegal) : (Aborted c r w s).Inv :=
  ⟨hs.flags, hl, State.engineLegal_of_idle hi⟩

theorem State.Inv.start {s : State} {f : InFlight} (hs : s.Inv) (he : s.err = false) (hf : f.legal) :
    (s.start f).Inv :=
  ⟨hs.flags, hs.error, hf, rfl, fun h => absurd (he.symm.trans h) Bool.false_ne_true⟩

/-- A word the decoder rejects is recorded under the code the decoder gives (R253). -/
theorem State.Inv.abort_decodeError {s : State} (hs : s.Inv) (hi : s.engine = .idle) (he : s.err = false) {w : Word}
    {e : DecodeError} (hd : decode w = .error e) : (s.abort (decodeErrorCode e) 0 w).Inv := by
  rw [State.abort_of_not_err he]
  apply hs.aborted hi
  cases e with
  | illegalOpcode => exact ⟨rfl, rfl, hd⟩
  | illegalField => exact ⟨rfl, rfl, hd⟩

/-- The acceptance of a decoded command: it starts, legal, or RANGE records its word and one of its operands. -/
theorem State.Inv.exec {s t : State} {i : Instr} (hs : s.Inv) (hi : s.engine = .idle) (he : s.err = false)
    (hw : i.wf = true) (h : exec i s = .next t) : t.Inv := by
  rcases exec_next_cases hw h with ⟨res, hd, hk, rfl⟩ | ⟨r, hr, rfl⟩
  · exact hs.start he ⟨hw, List.length_map .., hd, hk⟩
  · rw [State.abort_of_not_err he]
    exact hs.aborted hi ⟨rfl, i, decode_encode hw, hr⟩

/-- Settles O29, by the cases of a step: each operation a step performs keeps the invariant. -/
theorem stepKeepsTheInvariant : Obligations.StepKeepsTheInvariant := by
  intro s t hs h
  cases step_cases h with
  | idleOrDrain _ ht => exact ht ▸ hs.complete
  | engineTurn rest _ ht =>
    have hi : { s with inputs := rest }.Inv := ⟨hs.flags, hs.error, hs.engine⟩
    exact ht ▸ hi.complete
  | reset rest _ ht => exact ht ▸ State.inv_applyReset _
  | read off rest _ _ ht =>
    have hi : { s with inputs := rest }.Inv := ⟨hs.flags, hs.error, hs.engine⟩
    exact ht ▸ hi.serveRead off
  | ctrlWrite v rest _ ht => exact ht ▸ (hs.acked rest).writeCtrl v
  | ignoredWrite _ _ rest _ _ _ _ _ ht => exact ht ▸ hs.acked rest
  | wordOverrun i j _ rest _ _ ht => exact ht ▸ (hs.acked rest).overrun (.inr ⟨i, j, rfl⟩)
  | wordWrite i j v rest _ _ ht => exact ht ▸ (hs.acked rest).setWord i j v
  | cmdOverrun _ rest _ _ ht => exact ht ▸ (hs.acked rest).overrun (.inl rfl)
  | cmdDiscarded _ rest _ _ _ ht => exact ht ▸ hs.acked rest
  | cmdAborted w rest e _ hb he hd ht =>
    exact ht ▸ (hs.acked rest).abort_decodeError ((State.busy_eq_false_iff s).1 hb) he hd
  | cmdAccepted w rest i _ hb he hd ht =>
    exact (hs.acked rest).exec ((State.busy_eq_false_iff s).1 hb) he (wf_of_decode hd) ht

/-- Settles O28: at reset no flag is set, no error is recorded and the engine is IDLE. -/
theorem invariantHoldsAtReset : Obligations.InvariantHoldsAtReset := State.inv_reset

end Sys2Proof.Machine
end

section
/-! SUPPORT. What a step can do to the registers, the flags and the engine phase, and to ERR; from it, who writes each
of them. -/

namespace Sys2Proof.Machine

/-- What a step does to W, the flags and the engine: nothing, a host write of one word while IDLE, the start of a
command, its completion, or RESET. -/
inductive DatapathChange (s t : State) : Prop
  | none (hw : t.w = s.w) (hf : t.flags = s.flags) (he : t.engine = s.engine)
  | word (i : Reg) (j : Fin 8) (v : Word) (rest : List Input) (h : s.inputs = hostWrite (wordAt i j) v :: rest)
      (hi : s.engine = .idle) (hw : t.w = (s.setWord i j v).w) (hf : t.flags = s.flags) (he : t.engine = s.engine)
  | start (w : Word) (i : Instr) (rest : List Input) (h : s.inputs = cmdWrite w :: rest) (hi : s.engine = .idle)
      (hd : decode w = .ok i) (he : s.err = false) (ht : Started i (s.acked rest) t)
  | completion (f : InFlight) (hb : s.engine = .busy f) (h : s.inputs = [] ∨ ∃ rest, s.inputs = .engine :: rest)
      (hw : t.w = (s.setRegs f.result.writes).w) (hf : t.flags = f.result.flags.apply s.flags)
      (he : t.engine = .idle)
  | reset (h : s.atReset) (he : t.engine = .idle)

/-- The engine's turn, whatever inputs are left after it. -/
theorem datapathChange_complete {s : State} (rest : List Input)
    (h : s.inputs = [] ∨ ∃ rest, s.inputs = .engine :: rest) :
    DatapathChange s { s with inputs := rest }.complete := by
  rcases State.complete_cases { s with inputs := rest } with ⟨-, hc⟩ | ⟨f, hf, hc⟩ <;> rw [hc]
  · exact .none rfl rfl rfl
  · exact .completion f hf h (State.setRegs_congr { s with inputs := rest } s _ rfl rfl).1 rfl rfl

theorem step_datapath {s t : State} (h : step s = .next t) : DatapathChange s t := by
  cases step_cases h with
  | idleOrDrain hin ht => exact ht ▸ datapathChange_complete s.inputs (.inl hin)
  | engineTurn rest hin ht => exact ht ▸ datapathChange_complete rest (.inr ⟨rest, hin⟩)
  | reset rest hin ht => exact .reset ⟨rest, hin⟩ (ht ▸ rfl)
  | read off rest _ _ ht =>
    rw [ht, State.serveRead_frame]
    exact .none rfl rfl rfl
  | ctrlWrite v rest _ ht =>
    rw [ht, State.writeCtrl_eq]
    exact .none rfl rfl rfl
  | ignoredWrite _ _ rest _ _ _ _ _ ht => exact ht ▸ .none rfl rfl rfl
  | wordOverrun i j _ rest _ _ ht =>
    exact ht ▸ .none (State.recordError_w ..) (State.recordError_flags ..) (State.recordError_engine ..)
  | wordWrite i j v rest hin hb ht =>
    exact ht ▸ .word i j v rest hin ((State.busy_eq_false_iff s).1 hb) rfl rfl rfl
  | cmdOverrun _ rest _ _ ht =>
    exact ht ▸ .none (State.recordError_w ..) (State.recordError_flags ..) (State.recordError_engine ..)
  | cmdDiscarded _ rest _ _ _ ht => exact ht ▸ .none rfl rfl rfl
  | cmdAborted w rest e _ _ _ _ ht =>
    exact ht ▸ .none (State.abort_w ..) (State.abort_flags ..) (State.abort_engine ..)
  | cmdAccepted w rest i hin hb he hd ht =>
    rcases exec_next_cases (wf_of_decode hd) ht with ⟨res, -, -, rfl⟩ | ⟨r, -, rfl⟩
    · exact .start w i rest hin ((State.busy_eq_false_iff s).1 hb) hd he ⟨res, rfl⟩
    · exact .none (State.abort_w ..) (State.abort_flags ..) (State.abort_engine ..)

/-- ERR goes from 1 to 0 only by CLR_ERR or RESET (R28, R264). -/
theorem step_err_cleared {s t : State} (h : step s = .next t) (he : s.err = true) (ht : t.err = false) :
    s.atReset ∨ ∃ v rest, s.inputs = ctrlWrite v :: rest ∧ v.getLsbD 9 = true := by
  cases step_cases h with
  | reset rest hin _ => exact .inl ⟨rest, hin⟩
  | ctrlWrite v rest hin ht' =>
    refine .inr ⟨v, rest, hin, ?_⟩
    rw [ht', State.writeCtrl_eq] at ht
    simpa [he] using ht
  | cmdAborted _ _ _ _ _ he' => exact absurd (he.symm.trans he') (by decide)
  | cmdAccepted _ _ _ _ _ he' => exact absurd (he.symm.trans he') (by decide)
  -- Every other step keeps ERR or sets it.
  | _ => simp_all

/-- Settles O13: by `step_err_cleared`; and the one change that makes an IDLE engine BUSY, a start, needs ERR = 0. -/
theorem onlyClearOrResetEndsAnError : Obligations.OnlyClearOrResetEndsAnError := by
  intro s t h herr
  refine ⟨step_err_cleared h herr, fun hb => ?_⟩
  rw [State.busy_eq_false_iff] at hb ⊢
  cases step_datapath h with
  | none _ _ he => exact he.trans hb
  | word _ _ _ _ _ _ _ _ he => exact he.trans hb
  | start _ _ _ _ _ _ he => exact absurd (herr.symm.trans he) (by decide)
  | completion _ _ _ _ _ he => exact he
  | reset _ he => exact he

/-- Settles O33: of the datapath's changes only start, completion and RESET change the engine. -/
theorem engineChangesOnlyByStartAndCompletion : Obligations.EngineChangesOnlyByStartAndCompletion := by
  intro s t h hne
  cases step_datapath h with
  | none _ _ he => exact absurd he hne
  | word _ _ _ _ _ _ _ _ he => exact absurd he hne
  | start w i rest hin hi hd he ht => exact .inl ⟨hi, w, i, rest, hin, hd, he, ht⟩
  | completion f hb hin _ _ he => exact .inr ⟨f, hb, he, .inr hin⟩
  | reset hr he =>
    cases hs : s.engine with
    | idle => exact absurd (he.trans hs.symm) hne
    | busy f => exact .inr ⟨f, rfl, he, .inl hr⟩

/-- Settles O32: a completion writes the destinations of its legal command, a host write the register it names. -/
theorem registersChangeOnlyByTheirWriters : Obligations.RegistersChangeOnlyByTheirWriters := by
  intro s t hs h hr r hne
  have reg_eq {u : State} (hw : t.w = u.w) : t.reg r = u.reg r := by rw [State.reg, State.reg, hw]
  cases step_datapath h with
  | none hw => exact absurd (reg_eq hw) hne
  | start _ _ _ _ _ _ _ ht =>
    obtain ⟨_, rfl⟩ := ht
    exact absurd rfl hne
  | word i j v rest hin hi hw =>
    rw [reg_eq hw, State.reg_setWord] at hne
    by_cases hri : r = i
    · exact .inr ⟨hi, j, v, rest, hri ▸ hin⟩
    · exact absurd (if_neg hri) hne
  | completion f hb _ hw _ he =>
    refine .inl ⟨f, hb, he, ?_⟩
    obtain ⟨-, -, hd, -⟩ := hs.legal hb
    rw [reg_eq hw] at hne
    by_contra hm
    exact hne (State.reg_setRegs_of_not_mem _ _ _ (hd ▸ hm))
  | reset h => exact absurd h hr

/-- A flag that a step changes is written by the completion of the command the engine holds (R26). -/
theorem step_flags {s t : State} (h : step s = .next t) (hr : ¬ s.atReset) (hne : t.flags ≠ s.flags) :
    ∃ f, s.engine = .busy f ∧ t.engine = .idle ∧ t.flags = f.result.flags.apply s.flags := by
  cases step_datapath h with
  | none _ hf => exact absurd hf hne
  | word _ _ _ _ _ _ _ hf => exact absurd hf hne
  | start _ _ _ _ _ _ _ ht =>
    obtain ⟨_, rfl⟩ := ht
    exact absurd rfl hne
  | completion f hb _ _ hf he => exact ⟨f, hb, he, hf⟩
  | reset h => exact absurd h hr

/-- The check and the results of a command do not depend on the flags. -/
theorem exec_form_of_flags (i : Instr) (s : State) (fl : Flags) :
    ∃ res, exec i s = accept i (firstOutOfRange i s) res s ∧
      exec i { s with flags := fl } = accept i (firstOutOfRange i s) res { s with flags := fl } := by
  cases i <;> exact ⟨_, rfl, rfl⟩

/-- Recording an error leaves the flags alone, whatever they are. -/
theorem State.abort_setFlags (s : State) (fl : Flags) (c : ErrorCode) (r : Reg) (w : Word) :
    { s with flags := fl }.abort c r w = { s.abort c r w with flags := fl } := by
  cases h : s.err <;> simp [State.abort, State.recordError, h]

/-- No command reads a flag (R26). -/
theorem exec_setFlags {i : Instr} {s t : State} (fl : Flags) (h : exec i s = .next t) :
    exec i { s with flags := fl } = .next { t with flags := fl } := by
  obtain ⟨res, hx, hfl⟩ := exec_form_of_flags i s fl
  rw [hx] at h
  rw [hfl]
  generalize firstOutOfRange i s = bad at h ⊢
  rcases accept_cases i bad res s with ⟨hw, rfl, ha⟩ | ⟨hw, r, rfl, ha⟩ | ⟨hw, ha⟩ <;> rw [ha] at h <;> cases h
  · exact accept_start hw ..
  · rw [accept_range hw, State.abort_setFlags]
  · simp [accept, hw, State.abort_setFlags]

/-- Settles O31: a changed flag is the write of a completing command, whose kind of flag write names the command. -/
theorem flagsChangeOnlyAtTheirCompletion : Obligations.FlagsChangeOnlyAtTheirCompletion := by
  refine ⟨fun s t hs h hr => ?_, fun i s t fl h => exec_setFlags fl h⟩
  by_cases hne : t.flags = s.flags
  · simp [hne]
  obtain ⟨f, hb, he, hf⟩ := step_flags h hr hne
  obtain ⟨-, -, -, hk⟩ := hs.legal hb
  cases hw : f.result.flags <;> rw [hw] at hf hk <;> rw [hf]
  case keep => exact absurd hf hne
  case carry c =>
    obtain ⟨rd, a, b, hi⟩ := flagKind_carry hk
    exact ⟨fun _ => ⟨f, rd, a, b, hb, he, hi⟩, fun hc => absurd rfl hc, fun hc => absurd rfl hc⟩
  case compare lt eq gt =>
    obtain ⟨a, b, hi⟩ := flagKind_compare hk
    exact ⟨fun hc => absurd rfl hc, fun _ => ⟨f, a, b, hb, he, hi⟩, fun hc => absurd rfl hc⟩
  case zero z =>
    obtain ⟨rd, a, hi⟩ := flagKind_zero hk
    exact ⟨fun hc => absurd rfl hc, fun hc => absurd rfl hc, fun _ => ⟨f, rd, a, hb, he, hi⟩⟩

end Sys2Proof.Machine
end

section
/-! SUPPORT. The images of CTRL, STATUS and ERRCODE, bit by bit (spec/10_state.md R27, R28, R30), and the reads and
writes of the control and error registers. -/

namespace Sys2Proof.Machine

/-- A word made of a number below 2^m has no bit from m on. -/
theorem getLsbD_ofNat_of_lt {x m k : Nat} (hx : x < 2 ^ m) (hk : m ≤ k) : (BitVec.ofNat 32 x).getLsbD k = false := by
  rw [BitVec.getLsbD_ofNat, Nat.testBit_lt_two_pow (hx.trans_le (Nat.pow_le_pow_right (by decide) hk)),
    Bool.and_false]

/-- CTRL reads the IE bits in bits 1:0 (R27). -/
theorem State.ctrlWord_bits (s : State) :
    s.ctrlWord.getLsbD 0 = s.ieDone ∧ s.ctrlWord.getLsbD 1 = s.ieErr ∧ ∀ k, 2 ≤ k → s.ctrlWord.getLsbD k = false := by
  unfold State.ctrlWord
  generalize s.ieDone = a, s.ieErr = b
  refine ⟨?_, ?_, fun k hk => getLsbD_ofNat_of_lt ?_ hk⟩ <;> revert a b <;> decide

/-- STATUS: BUSY, DONE, ERR and IRQ in bits 0 to 3 (R28). -/
theorem State.statusWord_bits (s : State) :
    s.statusWord.getLsbD 0 = s.busy ∧ s.statusWord.getLsbD 1 = s.done ∧ s.statusWord.getLsbD 2 = s.err ∧
      s.statusWord.getLsbD 3 = s.irq ∧ ∀ k, 4 ≤ k → s.statusWord.getLsbD k = false := by
  unfold State.statusWord
  generalize s.busy = a, s.done = b, s.err = c, s.irq = d
  refine ⟨?_, ?_, ?_, ?_, fun k hk => getLsbD_ofNat_of_lt ?_ hk⟩ <;> revert a b c d <;> decide

/-- ERRCODE: CODE in bits 3:0, REG in bits 11:8, 0 elsewhere (R30). -/
theorem State.errCodeWord_fields (s : State) :
    (s.errCodeWord.extractLsb' 0 4).toNat = s.errCode.number ∧ (s.errCodeWord.extractLsb' 8 4).toNat = s.errReg.val ∧
      s.errCodeWord.extractLsb' 4 4 = 0 ∧ s.errCodeWord.extractLsb' 12 20 = 0 := by
  have hc : s.errCode.number < 16 := by cases s.errCode <;> decide
  have hr := s.errReg.isLt
  simp only [← BitVec.toNat_inj, BitVec.extractLsb'_toNat, Nat.shiftRight_eq_div_pow, State.errCodeWord,
    BitVec.toNat_ofNat, BitVec.ofNat_eq_ofNat]
  omega

/-- Settles O14: a CTRL write is `State.writeCtrl`, a read returns `State.ctrlWord`. -/
theorem ctrlTakesBitsAndActs : Obligations.CtrlTakesBitsAndActs := by
  refine ⟨⟨rfl, rfl⟩, fun s rest => ⟨fun v h => ?_, fun h => ?_, fun hi hd => ?_, fun hi he => ?_⟩⟩
  · rw [step_hostWrite (by decide) h]
    exact congrArg _ ((s.acked rest).writeCtrl_eq v)
  · exact ⟨s.ctrlWord, step_readImage (by decide) (by decide) h, s.ctrlWord_bits⟩
  · simp [State.irq, hi, hd]
  · simp [State.irq, hi, he]

/-- Settles O16: a STATUS read returns `State.statusWord`, whose bit 3 is `State.irq`. -/
theorem irqIsTheLevelOfItsCondition : Obligations.IrqIsTheLevelOfItsCondition := by
  intro s rest h
  obtain ⟨hbusy, hdone, herr, hirq, hrest⟩ := s.statusWord_bits
  exact ⟨s.statusWord, step_readImage (by decide) (by decide) h, rfl, hirq, hbusy, hdone, herr, hrest⟩

/-- Settles O20: each of the four reads returns the register's image. -/
theorem idCmdAndErrorRegistersRead : Obligations.IdCmdAndErrorRegistersRead := fun s _ =>
  ⟨step_readImage (by decide) (by decide), step_readImage (by decide) (by decide),
    step_readImage (by decide) (by decide),
    fun h => ⟨s.errCodeWord, step_readImage (by decide) (by decide) h, s.errCodeWord_fields⟩⟩

/-- No word has a value right after reset (R40). -/
theorem State.reset_hasWord (r : Reg) (j : Fin 8) : State.reset.hasWord r j = false := by
  simp [State.hasWord, State.reset]

/-- Settles O24: each field of `State.reset`, the constants of ROMK as numbers, and the definition of ROMT. -/
theorem resetLeavesTheStatedValues : Obligations.ResetLeavesTheStatedValues :=
  ⟨rfl, rfl, rfl, rfl, rfl, rfl, rfl, rfl, rfl, rfl, rfl, State.reset_hasWord, by simp [romK, p], fun _ => rfl, rfl⟩

end Sys2Proof.Machine
end

section
/-! SUPPORT. The accesses to the window (spec/20_memory.md R60 to R67): which offsets are W words, which accesses the
bus refuses, and what a served read or write does. -/

namespace Sys2Proof.Machine

/-- A served access is 32 bits wide and aligned (R65). -/
theorem legalAccess_iff {off : Offset} {size : Nat} :
    legalAccess off size = true ↔ size = 4 ∧ off.toNat % 4 = 0 := by
  simp [legalAccess]

/-- Every W word is aligned (R61). -/
theorem wOffset_aligned (i : Reg) (j : Fin 8) : (wOffset i j).toNat % 4 = 0 :=
  (legalAccess_iff.1 (legalAccess_wOffset i j)).2

/-- The W words fill 0x100 to 0x2FF, and stand nowhere else (R61, R62). -/
theorem exists_windowReg_eq_w_iff {off : Offset} :
    (∃ i j, windowReg off = .w i j) ↔ 0x100 ≤ off.toNat ∧ off.toNat < 0x300 := by
  constructor
  · rintro ⟨i, j, h⟩
    unfold windowReg at h
    split_ifs at h with _ _ _ _ _ _ _ hw
    exact hw
  · intro hw
    unfold windowReg
    split_ifs
    case neg => exact ⟨_, _, rfl⟩
    all_goals
      subst off
      exact absurd hw (by decide)

/-- Nothing stands between ERRCMD and the W words, nor above them (R62, R63). -/
theorem windowReg_eq_reserved {off : Offset}
    (h : (0x01C ≤ off.toNat ∧ off.toNat ≤ 0x0FF) ∨ 0x300 ≤ off.toNat) : windowReg off = .reserved := by
  have hw : ¬ (0x100 ≤ off.toNat ∧ off.toNat < 0x300) := by omega
  unfold windowReg
  split_ifs
  case neg => rfl
  all_goals
    subst off
    exact absurd h (by decide)

/-- An access that is not 32 bits wide or not aligned stops the machine, with its bus address (R65). -/
theorem step_refusedAccess {s : State} {off : Offset} {size : Nat} {rest : List Input}
    (hl : ¬ legalAccess off size = true)
    (hin : s.inputs = .host (.read off size) :: rest ∨ ∃ v, s.inputs = .host (.write off size v) :: rest) :
    step s = .fault (.hostBusError (Config.base + off.toNat) size) := by
  rcases hin with hin | ⟨v, hin⟩ <;> simp [step, hin, serveAccess, hl]

/-- An access after which the machine goes on is 32 bits wide and aligned. -/
theorem legalAccess_of_step {s t : State} {off : Offset} {size : Nat} {rest : List Input} (h : step s = .next t)
    (hin : s.inputs = .host (.read off size) :: rest ∨ ∃ v, s.inputs = .host (.write off size v) :: rest) :
    size = 4 ∧ off.toNat % 4 = 0 := by
  rw [← legalAccess_iff]
  by_contra hl
  rw [step_refusedAccess hl hin] at h
  cases h

/-- Every presented word has an outcome, and none is a fault or a refusal (R250, R262). -/
theorem presentCommand_answers (w : Word) (s : State) : ∃ t, presentCommand w s = .next t := by
  unfold presentCommand
  split_ifs
  · exact ⟨_, rfl⟩
  · exact ⟨_, rfl⟩
  · cases decode w with
    | error e => exact ⟨_, rfl⟩
    | ok i => exact exec_answers i s

theorem serveWrite_answers (off : Offset) (v : Word) (s : State) : ∃ t, serveWrite off v s = .next t := by
  unfold serveWrite
  cases windowReg off with
  | cmd => exact presentCommand_answers v s
  | _ => exact ⟨_, rfl⟩

/-- While IDLE a read of any place returns its image (R61, R66). -/
theorem State.serveRead_idle {s : State} (hb : s.busy = false) (off : Offset) :
    s.serveRead off = { s with reply := .data (s.image (windowReg off)) } := by
  unfold State.serveRead
  rw [hb]
  cases windowReg off <;> rfl

/-- While BUSY a read of a W word takes a draw (R67). -/
theorem State.serveRead_busy {s : State} {off : Offset} {i : Reg} {j : Fin 8} (hb : s.busy = true)
    (hw : windowReg off = .w i j) :
    s.serveRead off = { s with reply := .data (Config.freeWord s.draws), draws := s.draws + 1 } := by
  unfold State.serveRead
  rw [hw, hb]

/-- While IDLE a read of a W word returns it (R61). -/
theorem step_readWord {s : State} {i : Reg} {j : Fin 8} {rest : List Input} (hb : s.busy = false)
    (hin : s.inputs = hostRead (wOffset i j) :: rest) :
    step s = .next { s with inputs := rest, reply := .data (getWord (s.reg i) j) } := by
  rw [step_hostRead (wOffset_aligned i j) hin, State.serveRead_idle (s := { s with inputs := rest }) hb,
    windowReg_wOffset]
  rfl

/-- While IDLE a write of a W word sets it (R61). -/
theorem step_writeWord {s : State} {i : Reg} {j : Fin 8} {v : Word} {rest : List Input} (hb : s.busy = false)
    (hin : s.inputs = hostWrite (wOffset i j) v :: rest) : step s = .next ((s.acked rest).setWord i j v) := by
  rw [step_hostWrite (wOffset_aligned i j) hin]
  simp [serveWrite, hb]

/-- A read outside the W words returns the image of its place, in every state (R66, R67). -/
theorem step_readOutsideW {s : State} {off : Offset} {rest : List Input} (ha : off.toNat % 4 = 0)
    (hw : ¬ (0x100 ≤ off.toNat ∧ off.toNat < 0x300)) (hin : s.inputs = hostRead off :: rest) :
    step s = .next { s with inputs := rest, reply := .data (s.image (windowReg off)) } :=
  step_readImage ha (fun i j h => hw (exists_windowReg_eq_w_iff.1 ⟨i, j, h⟩)) hin

/-- A write to any place but CMD, CTRL and the W words is acknowledged and has no effect (R63). -/
theorem step_ignoredWrite {s : State} {off : Offset} {v : Word} {rest : List Input} (ha : off.toNat % 4 = 0)
    (hcmd : off ≠ 0x00C) (hctrl : off ≠ 0x004) (hw : ¬ (0x100 ≤ off.toNat ∧ off.toNat < 0x300))
    (hin : s.inputs = hostWrite off v :: rest) : step s = .next (s.acked rest) := by
  rw [step_hostWrite ha hin]
  unfold serveWrite
  cases h : windowReg off with
  | cmd => exact absurd (windowReg_eq_cmd h) hcmd
  | ctrl => exact absurd (windowReg_eq_ctrl h) hctrl
  | w i j => exact absurd (exists_windowReg_eq_w_iff.1 ⟨i, j, h⟩) hw
  | _ => rfl

/-- Bit k of a register is bit k mod 32 of its word k / 32 (R61). -/
theorem getLsbD_getWord (v : W256) {k : Nat} (hk : k < 256) :
    (getWord v ⟨k / 32, by omega⟩).getLsbD (k % 32) = v.getLsbD k := by
  simp [getWord, Nat.div_add_mod, Nat.mod_lt]

/-- A word write sets the 32 bits of its word and leaves the others (R61). -/
theorem getLsbD_putWord (v : W256) (j : Fin 8) (x : Word) {k : Nat} (hk : k < 256) :
    (putWord v j x).getLsbD k =
      if 32 * j.val ≤ k ∧ k < 32 * j.val + 32 then x.getLsbD (k - 32 * j.val) else v.getLsbD k := by
  rw [← getLsbD_getWord _ hk, ← getLsbD_getWord v hk]
  by_cases hj : k / 32 = j.val
  · have hword : (⟨k / 32, by omega⟩ : Fin 8) = j := Fin.ext hj
    rw [hword, getWord_putWord_self, if_pos (by omega), Nat.mod_eq_sub_mul_div, hj]
  · rw [getWord_putWord_ne v x (fun e => hj (congrArg Fin.val e)), if_neg (by omega)]

/-- Limb k is the words 2k and 2k + 1 (R61). -/
theorem limb_eq_words (v : W256) (k : Fin 4) :
    v.extractLsb' (64 * k.val) 64 = getWord v ⟨2 * k.val + 1, by omega⟩ ++ getWord v ⟨2 * k.val, by omega⟩ := by
  unfold getWord
  rw [BitVec.extractLsb'_append_extractLsb'_eq_extractLsb' (by simp only; omega)]
  congr 1
  simp only
  omega

/-- FLAGS: C, LT, EQ, GT, Z in bits 0 to 4, 0 elsewhere (R25). -/
theorem Flags.toWord_bits (f : Flags) :
    f.toWord.getLsbD 0 = f.c ∧ f.toWord.getLsbD 1 = f.lt ∧ f.toWord.getLsbD 2 = f.eq ∧ f.toWord.getLsbD 3 = f.gt ∧
      f.toWord.getLsbD 4 = f.z ∧ ∀ k, 5 ≤ k → f.toWord.getLsbD k = false := by
  obtain ⟨c, lt, eq, gt, z⟩ := f
  unfold Flags.toWord
  refine ⟨?_, ?_, ?_, ?_, ?_, fun k hk => getLsbD_ofNat_of_lt ?_ hk⟩ <;> revert c lt eq gt z <;> decide

/-- No address below or above the window has an offset in it (R60). -/
theorem windowOffset_eq_none {addr : Nat} (h : addr < Config.base ∨ Config.base + 4096 ≤ addr) :
    windowOffset addr = none :=
  if_neg (by omega)

/-- Settles O17: a read by the image of the word, a write by its bits in `putWord`. -/
theorem windowWordsAreTheRegisters : Obligations.WindowWordsAreTheRegisters := by
  intro s i j rest hidle
  have hb : s.busy = false := (State.busy_eq_false_iff s).2 hidle
  refine ⟨step_readWord hb, fun v h => ?_, limb_eq_words (s.reg i)⟩
  refine ⟨(s.acked rest).setWord i j v, step_writeWord hb h, rfl, fun k hk => ?_, fun q hq => ?_⟩
  · rw [State.reg_setWord, if_pos rfl]
    exact getLsbD_putWord _ j v hk
  · rw [State.reg_setWord, if_neg hq]
    rfl

/-- Settles O18: a reserved place has the image 0, and a write to it or to a read-only register is ignored. -/
theorem reservedReadsZeroAndIgnoresWrites : Obligations.ReservedReadsZeroAndIgnoresWrites := by
  intro s off rest ha reserved readOnly
  refine ⟨fun hr h => ?_, fun hr v h => ?_⟩
  · rw [step_readOutsideW ha (by omega) h, windowReg_eq_reserved hr]
    rfl
  · rcases hr with hr | hr
    · have ne_of_lt {c : Offset} (hc : c.toNat < 0x01C) : off ≠ c := by
        rintro rfl
        omega
      exact step_ignoredWrite ha (ne_of_lt (by decide)) (ne_of_lt (by decide)) (by omega) h
    · rcases hr with rfl | rfl | rfl | rfl | rfl <;>
        exact step_ignoredWrite ha (by decide) (by decide) (by decide) h

/-- Settles O19: a W word gives a draw, any other place its image, and the image of FLAGS is `Flags.toWord`. -/
theorem readsWhileBusy : Obligations.ReadsWhileBusy := by
  intro s f off rest hbusy ha h
  refine ⟨fun hlo hhi => ?_, fun hout => step_readOutsideW ha (by omega) h, ?_⟩
  · obtain ⟨i, j, hw⟩ := exists_windowReg_eq_w_iff.2 ⟨hlo, hhi⟩
    rw [step_hostRead ha h, State.serveRead_busy (by simp [State.busy, hbusy]) hw]
  · rintro rfl
    exact ⟨s.flags.toWord, step_readOutsideW ha (by decide) h, s.flags.toWord_bits⟩

/-- Settles O21: a step that goes on served the access, by `State.serveRead_frame` or `step_ignoredWrite`. -/
theorem accessesHaveNoOtherSideEffects : Obligations.AccessesHaveNoOtherSideEffects := by
  intro s t off size rest h
  refine ⟨fun hin => ?_, fun v hin hcmd hctrl hw => ?_⟩
  · obtain ⟨rfl, ha⟩ := legalAccess_of_step h (.inl hin)
    rw [step_hostRead ha hin, State.serveRead_frame] at h
    cases h
    rfl
  · obtain ⟨rfl, ha⟩ := legalAccess_of_step h (.inr ⟨v, hin⟩)
    rw [step_ignoredWrite ha hcmd hctrl hw hin] at h
    cases h
    rfl

/-- Settles O22: a refused access is the fault, and every other input has a next state. -/
theorem onlyBusErrorsStopTheMachine : Obligations.OnlyBusErrorsStopTheMachine := by
  refine ⟨fun s off size v rest hbad hin => ?_, fun s => ?_⟩
  · have hl : ¬ legalAccess off size = true := by
      rw [legalAccess_iff]
      omega
    exact step_refusedAccess hl (hin.imp_right fun h => ⟨v, h⟩)
  · rcases hin : s.inputs with _ | ⟨(⟨off, size⟩ | ⟨off, size, v⟩) | _ | _, rest⟩
    case nil => exact .inl ⟨_, by rw [step, hin]⟩
    case cons.host.read =>
      by_cases hl : size = 4 ∧ off.toNat % 4 = 0
      · obtain ⟨rfl, ha⟩ := hl
        exact .inl ⟨_, step_hostRead ha hin⟩
      · exact .inr ⟨off, size, rest, by omega, .inl rfl⟩
    case cons.host.write =>
      by_cases hl : size = 4 ∧ off.toNat % 4 = 0
      · obtain ⟨rfl, ha⟩ := hl
        rw [step_hostWrite ha hin]
        exact .inl (serveWrite_answers ..)
      · exact .inr ⟨off, size, rest, by omega, .inr ⟨v, rfl⟩⟩
    case cons.engine => exact .inl ⟨_, by rw [step, hin]⟩
    case cons.reset => exact .inl ⟨_, by rw [step, hin]⟩

/-- Settles O23: the offset of an address is its distance from BASE, which is a multiple of 4096. -/
theorem windowStandsAtBase : Obligations.WindowStandsAtBase := by
  refine ⟨Nat.mul_mod_right .., fun off size v => ?_, fun addr size v h => ?_⟩
  · simp [memRead, memWrite]
  · simp [memRead, memWrite, windowOffset_eq_none h]

end Sys2Proof.Machine
end

section
/-! SUPPORT. The word of a command from its row of the opcode map: one meaning per word (spec/30_encoding.md R92, R96,
R99). -/

namespace Sys2Proof.Machine

/-- The row of a command gives its encoding: OPC, and the fields the row uses (R90, R92). -/
theorem encode_build {r : OpcodeRow} (h : r ∈ opcodeMap) (rd rs1 rs2 : Reg) (imm : BitVec 8) :
    encode (r.build rd rs1 rs2 imm) =
      assemble (BitVec.ofNat 8 r.opc) (if r.usesRd then rd else 0) (if r.usesRs1 then rs1 else 0)
        (if r.usesRs2 then rs2 else 0) (if r.usesImm then imm else 0) := by
  revert r
  simp [opcodeMap, encode]

/-- What the first test of R98 after the opcode says: RSV and the fields the row does not use are zero. -/
theorem zerosClear_iff {r : OpcodeRow} {w : Word} :
    r.zerosClear w = true ↔
      rsvField w = 0 ∧ (r.usesRd = true ∨ rdField w = 0) ∧ (r.usesRs1 = true ∨ rs1Field w = 0) ∧
        (r.usesRs2 = true ∨ rs2Field w = 0) ∧ (r.usesImm = true ∨ immField w = 0) := by
  simp [OpcodeRow.zerosClear, and_assoc]

/-- A field that is zero where the row does not use it is what the encoding puts there. -/
theorem ite_field_eq {α : Type} {used : Bool} {x z : α} (h : used = true ∨ x = z) : (if used then x else z) = x := by
  cases used with
  | true => rfl
  | false => exact (h.resolve_left Bool.false_ne_true).symm

/-- A word whose must-be-zero fields are zero is the encoding of the command its row makes of it. -/
theorem encode_instr {r : OpcodeRow} {w : Word} (hr : r ∈ opcodeMap) (ho : r.opc = opcField w)
    (hz : r.zerosClear w = true) : encode (r.instr w) = w := by
  obtain ⟨hrsv, hrd, hrs1, hrs2, himm⟩ := zerosClear_iff.1 hz
  rw [OpcodeRow.instr, encode_build hr, ite_field_eq hrd, ite_field_eq hrs1, ite_field_eq hrs2, ite_field_eq himm, ho,
    assemble_fields hrsv]

/-- A word has no other meaning than the command it encodes (R99). -/
theorem encode_of_decode {w : Word} {i : Instr} (h : decode w = .ok i) : encode i = w := by
  obtain ⟨r, hr, hz, rfl, -⟩ := decode_eq_ok.1 h
  obtain ⟨hmem, ho⟩ := opcodeRow_some hr
  exact encode_instr hmem ho hz

/-- Settles O1: the row of the command's opcode accepts its encoding (`decode_encode`). -/
theorem decodeOfEncodeIsTheCommand : Obligations.DecodeOfEncodeIsTheCommand := fun _ => decode_encode

/-- Settles O2: the word is the assembly of its fields, those that the row does not use being zero. -/
theorem encodeOfDecodeIsTheWord : Obligations.EncodeOfDecodeIsTheWord :=
  fun _ _ h => ⟨encode_of_decode h, wf_of_decode h⟩

/-- Settles O5: the decoder evaluates to the command on each word. -/
theorem specWordsDecodeToTheirCommands : Obligations.SpecWordsDecodeToTheirCommands :=
  ⟨rfl, rfl, rfl, rfl, rfl, rfl, rfl, rfl⟩

end Sys2Proof.Machine
end

section
/-! SUPPORT. The decoder's rows as the printed rows of the opcode map: mask and match say that a word has the row's
opcode and zero in the fields the row does not use (spec/30_encoding.md R90, R92, R96, R97). -/

namespace Sys2Proof.Machine

/-- A word from its six fields (R90); the width is written as their sum, so that facts about `++` apply to it. -/
def ofFields (opc : BitVec 8) (rd rs1 rs2 rsv : BitVec 4) (imm : BitVec 8) : BitVec (8 + 4 + 4 + 4 + 4 + 8) :=
  opc ++ rd ++ rs1 ++ rs2 ++ rsv ++ imm

/-- Every word is made of its fields. -/
theorem ofFields_slices (w : Word) :
    ofFields (w.extractLsb' 24 8) (w.extractLsb' 20 4) (w.extractLsb' 16 4) (w.extractLsb' 12 4) (w.extractLsb' 8 4)
      (w.extractLsb' 0 8) = w := by
  unfold ofFields
  iterate 5 rw [BitVec.extractLsb'_append_extractLsb'_eq_extractLsb' (by rfl)]
  exact BitVec.extractLsb'_eq_self

/-- Two appended vectors are equal iff their parts are. -/
theorem append_eq_append_iff {m k : Nat} {x x' : BitVec m} {y y' : BitVec k} :
    x ++ y = x' ++ y' ↔ x = x' ∧ y = y' := by
  refine ⟨fun h => ?_, fun ⟨hx, hy⟩ => hx ▸ hy ▸ rfl⟩
  have hx := congrArg (BitVec.extractLsb' k m) h
  have hy := congrArg (BitVec.extractLsb' 0 k) h
  rw [BitVec.extractLsb'_append_eq_left, BitVec.extractLsb'_append_eq_left] at hx
  rw [BitVec.extractLsb'_append_eq_right, BitVec.extractLsb'_append_eq_right] at hy
  exact ⟨hx, hy⟩

/-- A masked word equals another iff every masked field does. -/
theorem ofFields_and_eq {o o' o'' : BitVec 8} {a a' a'' b b' b'' c c' c'' v v' v'' : BitVec 4} {i i' i'' : BitVec 8} :
    ofFields o a b c v i &&& ofFields o' a' b' c' v' i' = ofFields o'' a'' b'' c'' v'' i'' ↔
      o &&& o' = o'' ∧ a &&& a' = a'' ∧ b &&& b' = b'' ∧ c &&& c' = c'' ∧ v &&& v' = v'' ∧ i &&& i' = i'' := by
  simp only [ofFields, BitVec.and_append, append_eq_append_iff, and_assoc]

/-- The mask over a field: no bit of a field the row uses, every bit of one that must be zero (R96). -/
def fieldMask {k : Nat} (used : Bool) : BitVec k := if used then 0 else BitVec.allOnes k

/-- A masked field is zero iff the row uses the field or the field is zero. -/
theorem and_fieldMask_eq_zero {k : Nat} {x : BitVec k} {used : Bool} :
    x &&& fieldMask used = 0 ↔ used = true ∨ x = 0 := by
  cases used <;> simp [fieldMask]

/-- The printed row of a row of the decoder (R96). -/
def printedRow (r : OpcodeRow) : MapRow where
  mtch := ofFields (BitVec.ofNat 8 r.opc) 0 0 0 0 0
  mask := ofFields (BitVec.allOnes 8) (fieldMask r.usesRd) (fieldMask r.usesRs1) (fieldMask r.usesRs2)
    (BitVec.allOnes 4) (fieldMask r.usesImm)
  make w := r.build (sliceRd w) (sliceRs1 w) (sliceRs2 w) (sliceImm w)

/-- The printed map is the decoder's map, row by row. -/
theorem mapRows_eq : mapRows = opcodeMap.map printedRow := rfl

/-! The fields as slices and as quotients. -/

theorem opcField_eq (w : Word) : opcField w = (w.extractLsb' 24 8).toNat := by
  have := w.isLt
  simp only [opcField, BitVec.extractLsb'_toNat, Nat.shiftRight_eq_div_pow]
  omega

theorem rsvField_eq (w : Word) : rsvField w = (w.extractLsb' 8 4).toNat := by
  simp only [rsvField, BitVec.extractLsb'_toNat, Nat.shiftRight_eq_div_pow]

theorem rdField_eq (w : Word) : rdField w = sliceRd w :=
  Fin.ext (by simp [rdField, sliceRd, Nat.shiftRight_eq_div_pow])

theorem rs1Field_eq (w : Word) : rs1Field w = sliceRs1 w :=
  Fin.ext (by simp [rs1Field, sliceRs1, Nat.shiftRight_eq_div_pow])

theorem rs2Field_eq (w : Word) : rs2Field w = sliceRs2 w :=
  Fin.ext (by simp [rs2Field, sliceRs2, Nat.shiftRight_eq_div_pow])

theorem immField_eq (w : Word) : immField w = sliceImm w :=
  BitVec.eq_of_toNat_eq (by simp [immField, sliceImm])

/-- A printed row and its row of the decoder make the same command. -/
theorem printedRow_make (r : OpcodeRow) (w : Word) : (printedRow r).make w = r.instr w := by
  rw [OpcodeRow.instr, rdField_eq, rs1Field_eq, rs2Field_eq, immField_eq]
  rfl

/-- The decoder's opcodes are distinct, so a word has at most one row. -/
theorem opcodeMap_pairwise : opcodeMap.Pairwise (fun a b => a.opc ≠ b.opc) := by
  simp [opcodeMap]

/-- Every opcode of the map fits its field. -/
theorem opc_lt {r : OpcodeRow} (h : r ∈ opcodeMap) : r.opc < 256 := by
  revert r
  simp [opcodeMap]

/-- Looking up an opcode finds its row, the opcodes being distinct. -/
theorem opcodeRow_eq_some {opc : Nat} {r : OpcodeRow} : opcodeRow opc = some r ↔ r ∈ opcodeMap ∧ r.opc = opc := by
  refine ⟨opcodeRow_some, ?_⟩
  rintro ⟨h, rfl⟩
  revert r
  simp [opcodeMap, opcodeRow]

/-- Mask and match of a row: the opcode is the row's and its must-be-zero fields are zero (R92, R96). -/
theorem and_mask_eq_mtch {r : OpcodeRow} (h : r ∈ opcodeMap) {w : Word} :
    w &&& (printedRow r).mask = (printedRow r).mtch ↔ r.opc = opcField w ∧ r.zerosClear w = true := by
  have hopc : w.extractLsb' 24 8 = BitVec.ofNat 8 r.opc ↔ r.opc = opcField w := by
    rw [← BitVec.toNat_inj, opcField_eq, BitVec.toNat_ofNat, Nat.mod_eq_of_lt (opc_lt h), eq_comm]
  have hrsv : w.extractLsb' 8 4 = 0 ↔ rsvField w = 0 := by rw [rsvField_eq]; exact BitVec.toNat_inj.symm
  have hrd : w.extractLsb' 20 4 = 0 ↔ rdField w = 0 := by rw [rdField_eq]; exact BitVec.toFin_inj.symm
  have hrs1 : w.extractLsb' 16 4 = 0 ↔ rs1Field w = 0 := by rw [rs1Field_eq]; exact BitVec.toFin_inj.symm
  have hrs2 : w.extractLsb' 12 4 = 0 ↔ rs2Field w = 0 := by rw [rs2Field_eq]; exact BitVec.toFin_inj.symm
  have himm : w.extractLsb' 0 8 = 0 ↔ immField w = 0 := by rw [immField_eq, sliceImm]
  conv_lhs => rw [← ofFields_slices w]
  unfold printedRow
  refine Iff.trans ofFields_and_eq ?_
  simp only [and_fieldMask_eq_zero, BitVec.and_allOnes, hopc, hrsv, hrd, hrs1, hrs2, himm, zerosClear_iff]
  exact ⟨fun ⟨ho, hd, h1, h2, hv, hi⟩ => ⟨ho, hv, hd, h1, h2, hi⟩,
    fun ⟨ho, hv, hd, h1, h2, hi⟩ => ⟨ho, hd, h1, h2, hv, hi⟩⟩

/-- The decoder by the printed rows (R96). -/
theorem decode_eq_ok_iff_mapRow {w : Word} {i : Instr} :
    decode w = .ok i ↔ ∃ m ∈ mapRows, w &&& m.mask = m.mtch ∧ m.make w = i ∧ i.wf = true := by
  rw [decode_eq_ok, mapRows_eq]
  constructor
  · rintro ⟨r, hr, hz, hi, hw⟩
    obtain ⟨hmem, ho⟩ := opcodeRow_some hr
    exact ⟨printedRow r, List.mem_map_of_mem hmem, (and_mask_eq_mtch hmem).2 ⟨ho, hz⟩,
      (printedRow_make r w).trans hi, hw⟩
  · rintro ⟨m, hm, hmatch, hi, hw⟩
    obtain ⟨r, hmem, rfl⟩ := List.mem_map.1 hm
    obtain ⟨ho, hz⟩ := (and_mask_eq_mtch hmem).1 hmatch
    exact ⟨r, opcodeRow_eq_some.2 ⟨hmem, ho⟩, hz, (printedRow_make r w).symm.trans hi, hw⟩

/-- Settles O3: the printed rows are the decoder's, and two rows that match one word would share its opcode. -/
theorem decodeFollowsTheOpcodeMap : Obligations.DecodeFollowsTheOpcodeMap := by
  refine ⟨fun w i => decode_eq_ok_iff_mapRow, rfl, ?_⟩
  rw [mapRows_eq, List.pairwise_map]
  refine opcodeMap_pairwise.imp_of_mem fun ha hb hne w ⟨hwa, hwb⟩ => ?_
  exact hne (((and_mask_eq_mtch ha).1 hwa).1.trans ((and_mask_eq_mtch hb).1 hwb).1.symm)

/-- The opcodes without a row are the unassigned ones (R97). -/
theorem opcodeRow_eq_none {o : Nat} (h : o < 256) : opcodeRow o = none ↔ unassignedOpcode o = true := by
  rw [opcodeRow, List.find?_eq_none]
  simp [opcodeMap, unassignedOpcode]
  omega

/-- ILLEGAL_OPCODE is about the opcode alone (R97, R98). -/
theorem decode_eq_illegalOpcode_iff {w : Word} :
    decode w = .error .illegalOpcode ↔ unassignedOpcode (w.extractLsb' 24 8).toNat = true := by
  rw [decode_eq_illegalOpcode, opcodeRow_eq_none (opcField_lt w), opcField_eq]

/-- ILLEGAL_FIELD is what remains (R97). -/
theorem decode_eq_illegalField {w : Word} :
    decode w = .error .illegalField ↔ decode w ≠ .error .illegalOpcode ∧ ∀ i, decode w ≠ .ok i := by
  rcases decode w with ⟨_ | _⟩ | i <;> simp

/-- A word is no command iff no printed row takes it with its constraint (R96). -/
theorem decode_ne_ok_iff {w : Word} :
    (∀ i, decode w ≠ .ok i) ↔ ∀ m ∈ mapRows, ¬ (w &&& m.mask = m.mtch ∧ (m.make w).wf = true) := by
  constructor
  · intro h m hm ⟨hmatch, hw⟩
    exact h _ (decode_eq_ok_iff_mapRow.2 ⟨m, hm, hmatch, rfl, hw⟩)
  · intro h i hi
    obtain ⟨m, hm, hmatch, rfl, hw⟩ := decode_eq_ok_iff_mapRow.1 hi
    exact h m hm ⟨hmatch, hw⟩

/-- NOP is the word 0 (R97). -/
theorem decode_eq_nop {w : Word} : decode w = .ok .nop ↔ w = 0 := by
  constructor
  · intro h
    exact (encode_of_decode h).symm
  · rintro rfl
    exact decode_encode (i := .nop) rfl

/-- Settles O4: a word whose opcode has no row is the first error; one with a row that no printed row takes is the
second. -/
theorem rejectedWordsAreRejectedByName : Obligations.RejectedWordsAreRejectedByName := by
  refine ⟨fun w => decode_eq_illegalOpcode_iff, fun w => ?_, by decide +kernel, fun w => decode_eq_nop⟩
  rw [decode_eq_illegalField, decode_ne_ok_iff, Ne, decode_eq_illegalOpcode_iff, Bool.not_eq_true]

end Sys2Proof.Machine
end

section
/-! SUPPORT. Running the expansions of FMUL and FSQR (spec/30_encoding.md R101). -/

namespace Sys2Proof.Machine

/-- A pair that was written reads back (R11). -/
theorem State.pair_setRegs_toPair (s : State) (b : Reg) (v : W512) : (s.setRegs (toPair b v)).pair b = v := by
  have hn : ((toPair b v).map Prod.fst).Nodup := by simp [toPair, eq_comm]
  have hlo : (s.setRegs (toPair b v)).reg b = v.extractLsb' 0 256 :=
    State.reg_setRegs_of_mem _ s (by simp [toPair]) hn
  have hhi : (s.setRegs (toPair b v)).reg (b + 1) = v.extractLsb' 256 256 :=
    State.reg_setRegs_of_mem _ s (by simp [toPair]) hn
  rw [State.pair, hlo, hhi, BitVec.extractLsb'_append_extractLsb'_eq_extractLsb' (by rfl)]
  exact BitVec.extractLsb'_eq_self

/-- A command whose check passes hands its finished state to the commands after it (R288). -/
theorem runCommands_cons {i : Instr} {res : Result} {s : State} (is : List Instr)
    (hx : exec i s = accept i none res s) (hw : i.wf = true) :
    runCommands (i :: is) s = runCommands is (s.finished res) := by
  obtain ⟨t, ht, -, hc⟩ := exec_runs hx hw
  simp only [runCommands, ht, hc]

/-- A command that writes a pair, then REDP of that pair: the destination holds the remainder modulo p (R160). -/
theorem runCommands_redp {i : Instr} {t : Reg} {v : W512} {fw : FlagWrite} {s : State} (d : Reg)
    (hx : exec i s = accept i none ⟨toPair t v, fw⟩ s) (hw : i.wf = true) (ht : t.pairBase = true) :
    ∃ u, runCommands [i, .redp d t] s = some u ∧ (u.reg d).toNat = v.toNat % p := by
  rw [runCommands_cons _ hx hw, runCommands_cons (i := .redp d t) [] rfl ht]
  refine ⟨_, rfl, ?_⟩
  have hpair : (s.finished ⟨toPair t v, fw⟩).pair t = v := State.pair_setRegs_toPair s t v
  rw [hpair, State.finished_reg, toReg, State.setRegs_cons, State.setRegs_nil, State.reg_setReg_self,
    BitVec.toNat_ofNat, Nat.mod_eq_of_lt ((Nat.mod_lt _ p_pos).trans p_lt)]

/-- A product loses nothing in twice the width of its factors. -/
theorem toNat_ofNat_mul {k m : Nat} (hk : k = m * 2) (a b : BitVec m) :
    (BitVec.ofNat k (a.toNat * b.toNat)).toNat = a.toNat * b.toNat := by
  subst hk
  rw [BitVec.toNat_ofNat, Nat.mod_eq_of_lt BitVec.toNat_mul_toNat_lt]

/-- The product of R124 is exact. -/
theorem toNat_fullMul (a b : W256) : (fullMul a b).toNat = a.toNat * b.toNat := toNat_ofNat_mul rfl a b

/-- Settles O60: both expansions write the full product to the scratch pair and reduce it into the destination. -/
theorem fmulFsqrGiveTheFieldProduct : Obligations.FmulFsqrGiveTheFieldProduct := by
  intro d a b t s heven
  have ht : t.pairBase = true := by simpa [Reg.pairBase] using heven
  constructor
  · obtain ⟨u, hu, hd⟩ := runCommands_redp (i := .mul t a b) (s := s) d rfl ht ht
    rw [Pseudo.expand_of_wf (q := .fmul d a b t) ht]
    exact ⟨u, hu, by rw [hd, toNat_fullMul]⟩
  · obtain ⟨u, hu, hd⟩ := runCommands_redp (i := .sqr t a) (s := s) d rfl ht ht
    rw [Pseudo.expand_of_wf (q := .fsqr d a t) ht]
    exact ⟨u, hu, by rw [hd, toNat_fullMul, sq]⟩

end Sys2Proof.Machine
end

section
/-! SUPPORT. The decoder's answer to the words of one opcode of the map, with the must-be-zero fields as slices of the
word (spec/30_encoding.md R90, R92, R93, R98). -/

namespace Sys2Proof.Machine

/-! A slice that covers several fields is zero iff each of them is (R90). -/

theorem extractLsb'_rsv_imm_eq_zero {w : Word} : w.extractLsb' 0 12 = 0#12 ↔ rsvField w = 0 ∧ immField w = 0 := by
  simp only [← BitVec.toNat_inj, BitVec.extractLsb'_toNat, Nat.shiftRight_eq_div_pow, rsvField, immField,
    BitVec.toNat_ofNat, BitVec.ofNat_eq_ofNat]
  omega

theorem extractLsb'_rs2_rsv_imm_eq_zero {w : Word} :
    w.extractLsb' 0 16 = 0#16 ↔ rsvField w = 0 ∧ rs2Field w = 0 ∧ immField w = 0 := by
  simp only [← BitVec.toNat_inj, ← Fin.val_inj, BitVec.extractLsb'_toNat, Nat.shiftRight_eq_div_pow, rs2Field,
    rsvField, immField, Fin.ofNat, BitVec.toNat_ofNat, BitVec.ofNat_eq_ofNat, Fin.val_zero]
  omega

theorem extractLsb'_rs2_rsv_eq_zero {w : Word} : w.extractLsb' 8 8 = 0#8 ↔ rsvField w = 0 ∧ rs2Field w = 0 := by
  simp only [← BitVec.toNat_inj, ← Fin.val_inj, BitVec.extractLsb'_toNat, Nat.shiftRight_eq_div_pow, rs2Field,
    rsvField, Fin.ofNat, BitVec.toNat_ofNat, Fin.val_zero]
  omega

/-- The base of a pair is even (R21). -/
theorem Reg.pairBase_iff {r : Reg} : r.pairBase = true ↔ r.val % 2 = 0 := by simp [Reg.pairBase]

/-- A word whose opcode has a row is the row's command when its must-be-zero fields and the command's constraint, here
together the condition `c`, are met, and ILLEGAL_FIELD otherwise (R98). -/
theorem decode_of_opcode {w : Word} {o : BitVec 8} {r : OpcodeRow} {i : Instr} {c : Prop} [Decidable c]
    (ho : w.extractLsb' 24 8 = o) (hr : opcodeRow o.toNat = some r) (hi : (printedRow r).make w = i)
    (hc : r.zerosClear w = true ∧ i.wf = true ↔ c) : decode w = if c then .ok i else .error .illegalField := by
  have hrow : opcodeRow (opcField w) = some r := by rw [opcField_eq, ho, hr]
  rw [printedRow_make] at hi
  subst hi
  rw [decode, hrow, ← if_congr hc rfl rfl]
  exact (ite_and ..).symm

end Sys2Proof.Machine
end

section
/-! SUPPORT. The run of a command that writes one register or one pair, from its acceptance to its completion
(spec/10_state.md R21, spec/60_exceptions.md R251, R259). -/

namespace Sys2Proof.Machine

/-- A pair as a number: the register above its base has the weight 2²⁵⁶ (R11). -/
theorem State.pair_toNat (s : State) (b : Reg) :
    (s.pair b).toNat = (s.reg b).toNat + 2 ^ 256 * (s.reg (b + 1)).toNat := by
  rw [State.pair, BitVec.toNat_append, ← Nat.shiftLeft_add_eq_or_of_lt (s.reg b).isLt, Nat.shiftLeft_eq, Nat.mul_comm,
    Nat.add_comm]

/-- A command that writes one register, run to its completion. -/
theorem exec_runs_toReg {i : Instr} {rd : Reg} {v : W256} {fw : FlagWrite} {s : State}
    (hx : exec i s = accept i none ⟨toReg rd v, fw⟩ s) (hw : i.wf = true) :
    ∃ t u, exec i s = .next t ∧ Started i s t ∧ t.complete = u ∧ KeepsAllBut [rd] s u ∧
      u.flags = fw.apply s.flags ∧ u.reg rd = v := by
  obtain ⟨t, ht, hst, hc⟩ := exec_runs hx hw
  exact ⟨t, _, ht, hst, hc, keepsAllBut_finished s _ rfl, rfl, State.reg_setReg_self s rd v⟩

/-- A command that writes one pair, run to its completion. -/
theorem exec_runs_toPair {i : Instr} {b : Reg} {v : W512} {fw : FlagWrite} {s : State}
    (hx : exec i s = accept i none ⟨toPair b v, fw⟩ s) (hw : i.wf = true) :
    ∃ t u, exec i s = .next t ∧ Started i s t ∧ t.complete = u ∧ KeepsAllBut [b, b + 1] s u ∧
      u.flags = fw.apply s.flags ∧ u.pair b = v := by
  obtain ⟨t, ht, hst, hc⟩ := exec_runs hx hw
  exact ⟨t, _, ht, hst, hc, keepsAllBut_finished s _ rfl, rfl, State.pair_setRegs_toPair s b v⟩

end Sys2Proof.Machine
end

section
/-! SUPPORT. The wide-integer commands: what their value functions compute (spec/40_wide_integer.md R120 to R129), and
with it what each command does. -/

namespace Sys2Proof.Machine

/-! Sums and differences (R120 to R123). -/

/-- The sum and its carry are the exact sum, which has one bit more than its operands. -/
theorem toNat_wrapAdd_add_carryOut {k : Nat} (a b : BitVec k) :
    (wrapAdd a b).toNat + 2 ^ k * (carryOut k a.toNat b.toNat).toNat = a.toNat + b.toNat := by
  have hlt : (a.toNat + b.toNat) / 2 ^ k < 2 := by
    have := a.isLt
    have := b.isLt
    rw [Nat.div_lt_iff_lt_mul (by positivity)]
    omega
  have hcarry : (carryOut k a.toNat b.toNat).toNat = (a.toNat + b.toNat) / 2 ^ k := by
    rw [carryOut, Nat.toNat_testBit, Nat.mod_eq_of_lt hlt]
  rw [hcarry, wrapAdd, BitVec.toNat_ofNat, Nat.mod_add_div]

/-- The difference is the integers' difference modulo 2^k. -/
theorem toNat_wrapSub {k : Nat} (a b : BitVec k) :
    ((wrapSub a b).toNat : Int) = (a.toNat - b.toNat : Int) % 2 ^ k := by
  have hle : b.toNat ≤ 2 ^ k + a.toNat := by
    have := b.isLt
    omega
  rw [wrapSub, BitVec.toNat_ofNat]
  push_cast [Nat.cast_sub hle]
  rw [add_sub_assoc, Int.add_emod_left]

/-- Settles O36: the sum with its carry is exact, the difference is the integers' modulo 2²⁵⁶. -/
theorem addSub : Obligations.AddSub := by
  refine ⟨fun w h => ?_, fun rd rs1 rs2 s => ?_, fun w h => ?_, fun rd rs1 rs2 s => ?_⟩
  · exact decode_of_opcode h rfl rfl (by simp [zerosClear_iff, extractLsb'_rsv_imm_eq_zero, Instr.wf])
  · obtain ⟨t, u, hx, hst, hc, hk, hf, hv⟩ := exec_runs_toReg (i := .add rd rs1 rs2) (s := s) rfl rfl
    refine ⟨t, u, hx, hst, hc, hk, by rw [hf]; rfl, ?_⟩
    rw [hv, hf]
    exact toNat_wrapAdd_add_carryOut _ _
  · exact decode_of_opcode h rfl rfl (by simp [zerosClear_iff, extractLsb'_rsv_imm_eq_zero, Instr.wf])
  · obtain ⟨t, u, hx, hst, hc, hk, hf, hv⟩ := exec_runs_toReg (i := .sub rd rs1 rs2) (s := s) rfl rfl
    refine ⟨t, u, hx, hst, hc, hk, hf, ?_⟩
    rw [hv]
    exact toNat_wrapSub _ _

/-- Settles O37: the pairs are 512-bit numbers, added and subtracted as the registers of O36 are. -/
theorem addwSubw : Obligations.AddwSubw := by
  refine ⟨fun w h => ?_, fun w h => ?_, fun rd rs1 rs2 s hd h1 h2 => ?_⟩
  · exact decode_of_opcode h rfl rfl
      (by simp [zerosClear_iff, extractLsb'_rsv_imm_eq_zero, Instr.wf, Reg.pairBase_iff, and_assoc])
  · exact decode_of_opcode h rfl rfl
      (by simp [zerosClear_iff, extractLsb'_rsv_imm_eq_zero, Instr.wf, Reg.pairBase_iff, and_assoc])
  · have hw : (rd.pairBase && rs1.pairBase && rs2.pairBase) = true := by simp [Reg.pairBase_iff, hd, h1, h2]
    simp only [← State.pair_toNat]
    constructor
    · obtain ⟨t, u, hx, hst, hc, hk, hf, hv⟩ := exec_runs_toPair (i := .addw rd rs1 rs2) (s := s) rfl hw
      refine ⟨t, u, hx, hst, hc, hk, by rw [hf]; rfl, ?_⟩
      rw [hv, hf]
      exact toNat_wrapAdd_add_carryOut _ _
    · obtain ⟨t, u, hx, hst, hc, hk, hf, hv⟩ := exec_runs_toPair (i := .subw rd rs1 rs2) (s := s) rfl hw
      refine ⟨t, u, hx, hst, hc, hk, hf, ?_⟩
      rw [hv]
      exact toNat_wrapSub _ _

/-- Settles O38: the product is exact (`toNat_fullMul`), and SQR has the results of MUL of the register by itself. -/
theorem mulSqr : Obligations.MulSqr := by
  refine ⟨fun w h => ?_, fun rd rs1 rs2 s hd => ?_, fun w h => ?_, fun rd rs1 s hd => ?_⟩
  · exact decode_of_opcode h rfl rfl
      (by simp [zerosClear_iff, extractLsb'_rsv_imm_eq_zero, Instr.wf, Reg.pairBase_iff])
  · obtain ⟨t, u, hx, hst, hc, hk, hf, hv⟩ :=
      exec_runs_toPair (i := .mul rd rs1 rs2) (s := s) rfl (Reg.pairBase_iff.2 hd)
    exact ⟨t, u, hx, hst, hc, hk, hf, by rw [← State.pair_toNat, hv, toNat_fullMul]⟩
  · exact decode_of_opcode h rfl rfl
      (by simp [zerosClear_iff, extractLsb'_rs2_rsv_imm_eq_zero, Instr.wf, Reg.pairBase_iff, and_assoc])
  · have hw := Reg.pairBase_iff.2 hd
    obtain ⟨t, hx, hst, hc⟩ := exec_runs (i := .sqr rd rs1) (s := s) rfl hw
    obtain ⟨t', hx', -, hc'⟩ := exec_runs (i := .mul rd rs1 rs1) (s := s) rfl hw
    refine ⟨t, t', _, hx, hst, hc, keepsAllBut_finished s _ rfl, rfl, ?_, hx', hc'⟩
    rw [← State.pair_toNat, ← toNat_fullMul]
    exact congrArg _ (State.pair_setRegs_toPair s rd _)

/-! Compare, bit and most significant bit (R126 to R128). -/

/-- Settles O39: of LT, EQ and GT a compare writes the one that holds (`compareFlags_cases`). -/
theorem cmpSetsExactlyOneFlag : Obligations.CmpSetsExactlyOneFlag := by
  refine ⟨fun w h => ?_, fun rs1 rs2 s => ?_⟩
  · exact decode_of_opcode h rfl rfl
      (by simp [zerosClear_iff, extractLsb'_rsv_imm_eq_zero, Instr.wf, rdField_eq, and_left_comm])
  · obtain ⟨t, hx, hst, hc⟩ := exec_runs (i := .cmp rs1 rs2) (s := s) rfl rfl
    refine ⟨t, _, hx, hst, hc, keepsAllBut_finished s _ rfl, rfl, rfl, decide_eq_true_iff, ?_, decide_eq_true_iff,
      ?_⟩
    · exact beq_iff_eq.trans BitVec.toNat_inj
    · rw [State.finished_flags]
      rcases compareFlags_cases (s.reg rs1).toNat (s.reg rs2).toNat with h | h | h <;> rw [h] <;> rfl

/-- One bit, extended to a register (R127). -/
theorem toNat_bitValue (v : W256) (k : Nat) : (bitValue v k).toNat = (v.getLsbD k).toNat := by
  unfold bitValue
  cases v.getLsbD k <;> rfl

/-- The index of R128 as a number: nothing is lost, a register having 256 bits. -/
theorem toNat_msbIndex (v : W256) : (msbIndex v).toNat = Nat.log2 v.toNat := by
  have hlt : Nat.log2 v.toNat < 256 := by
    by_cases h : v.toNat = 0
    · simp [h]
    · exact (Nat.log2_lt h).2 v.isLt
  rw [msbIndex, BitVec.toNat_ofNat, Nat.mod_eq_of_lt (hlt.trans Nat.lt_two_pow_self)]

/-- The bit at the index of R128 is set. -/
theorem getLsbD_msbIndex {v : W256} (h : v ≠ 0) : v.getLsbD (msbIndex v).toNat = true := by
  rw [toNat_msbIndex]
  exact Nat.testBit_log2 ((BitVec.toNat_ne_iff_ne).2 h)

/-- No bit above the index of R128 is set. -/
theorem getLsbD_of_msbIndex_lt {v : W256} {k : Nat} (h : (msbIndex v).toNat < k) : v.getLsbD k = false := by
  rw [toNat_msbIndex] at h
  exact Nat.testBit_lt_two_pow (Nat.lt_log2_self.trans_le (Nat.pow_le_pow_right (by decide) h))

/-- Settles O40: BIT writes the bit it names, MSB the index of the top bit and whether there is one. -/
theorem bitMsb : Obligations.BitMsb := by
  refine ⟨fun w h => ?_, fun rd rs1 imm s => ?_, fun w h => ?_, fun rd rs1 s => ?_⟩
  · exact decode_of_opcode h rfl rfl (by simp [zerosClear_iff, extractLsb'_rs2_rsv_eq_zero, Instr.wf])
  · obtain ⟨t, u, hx, hst, hc, hk, hf, hv⟩ := exec_runs_toReg (i := .bit rd rs1 imm) (s := s) rfl rfl
    exact ⟨t, u, hx, hst, hc, hk, hf, by rw [hv, toNat_bitValue]⟩
  · exact decode_of_opcode h rfl rfl (by simp [zerosClear_iff, extractLsb'_rs2_rsv_imm_eq_zero, Instr.wf])
  · obtain ⟨t, u, hx, hst, hc, hk, hf, hv⟩ := exec_runs_toReg (i := .msb rd rs1) (s := s) rfl rfl
    refine ⟨t, u, hx, hst, hc, hk, hf, fun h => ?_, fun h => ?_⟩ <;> rw [hv]
    · rw [h]
      decide
    · exact ⟨getLsbD_msbIndex h, fun k => getLsbD_of_msbIndex_lt⟩

/-! The reversed bytes (R129). -/

/-- A register made of the bytes `f 0` to `f (m - 1)`, as `byteReverse` makes it. -/
def joinBytes (f : Nat → BitVec 8) (m : Nat) : W256 :=
  (List.range m).foldl (fun acc k => acc ||| ((f k).setWidth 256 <<< (8 * k))) 0

theorem byteReverse_eq_joinBytes (v : W256) : byteReverse v = joinBytes (fun k => regByte v (31 - k)) 32 := rfl

theorem joinBytes_succ (f : Nat → BitVec 8) (m : Nat) :
    joinBytes f (m + 1) = joinBytes f m ||| ((f m).setWidth 256 <<< (8 * m)) := by
  simp [joinBytes, List.range_succ]

/-- A byte put at position j is byte j, and leaves the other bytes 0. -/
theorem regByte_shiftLeft (x : BitVec 8) {j k : Nat} (hk : k < 32) :
    regByte (x.setWidth 256 <<< (8 * j)) k = if k = j then x else 0 := by
  apply BitVec.eq_of_getLsbD_eq
  intro i hi
  have hlt : 8 * k + i < 256 := by omega
  simp only [regByte, BitVec.getLsbD_extractLsb', BitVec.getLsbD_shiftLeft, BitVec.getLsbD_setWidth, hi, hlt]
  rcases Nat.lt_trichotomy k j with h | rfl | h
  · have : 8 * k + i < 8 * j := by omega
    simp [this, h.ne]
  · have : i < 256 := by omega
    simp [this]
  · have : 8 ≤ 8 * k + i - 8 * j := by omega
    simp [BitVec.getLsbD_of_ge x _ this, h.ne']

/-- The joined bytes read back. -/
theorem regByte_joinBytes (f : Nat → BitVec 8) (m : Nat) {k : Nat} (hk : k < 32) :
    regByte (joinBytes f m) k = if k < m then f k else 0 := by
  induction m with
  | zero => simp [joinBytes, regByte]
  | succ m ih =>
    have hor (x y : W256) : regByte (x ||| y) k = regByte x k ||| regByte y k := BitVec.extractLsb'_or
    rw [joinBytes_succ, hor, ih, regByte_shiftLeft _ hk]
    rcases Nat.lt_trichotomy k m with h | rfl | h
    · simp [h, h.ne, Nat.lt_succ_of_lt h]
    · simp
    · simp [h.ne', Nat.not_lt_of_gt h, Nat.not_lt_of_ge (Nat.succ_le_of_lt h)]

/-- Byte k of the reversed register is byte 31 − k. -/
theorem regByte_byteReverse (v : W256) {k : Nat} (hk : k < 32) : regByte (byteReverse v) k = regByte v (31 - k) := by
  rw [byteReverse_eq_joinBytes, regByte_joinBytes _ _ hk, if_pos hk]

/-- A register is its 32 bytes. -/
theorem eq_of_regByte_eq {v u : W256} (h : ∀ k, k < 32 → regByte v k = regByte u k) : v = u := by
  apply BitVec.eq_of_getLsbD_eq
  intro i hi
  have := congrArg (fun x => x.getLsbD (i % 8)) (h (i / 8) (by omega))
  simpa [regByte, Nat.div_add_mod, Nat.mod_lt] using this

/-- Reversing twice gives every byte back, as 31 − (31 − k) = k. -/
theorem byteReverse_byteReverse (v : W256) : byteReverse (byteReverse v) = v := by
  refine eq_of_regByte_eq fun k hk => ?_
  rw [regByte_byteReverse _ hk, regByte_byteReverse _ (by omega), Nat.sub_sub_self (by omega)]

/-- Settles O41: `regByte_byteReverse` for one BSWAP, `byteReverse_byteReverse` for two. -/
theorem bswapReversesTheBytes : Obligations.BswapReversesTheBytes := by
  refine ⟨fun w h => ?_, fun rd rs1 s => ?_, fun rd rs1 s => ?_⟩
  · exact decode_of_opcode h rfl rfl (by simp [zerosClear_iff, extractLsb'_rs2_rsv_imm_eq_zero, Instr.wf])
  · obtain ⟨t, u, hx, hst, hc, hk, hf, hv⟩ := exec_runs_toReg (i := .bswap rd rs1) (s := s) rfl rfl
    refine ⟨t, u, hx, hst, hc, hk, hf, fun k hk => ?_⟩
    rw [hv]
    exact regByte_byteReverse _ hk
  · rw [runCommands_cons (i := .bswap rd rs1) _ rfl rfl, runCommands_cons (i := .bswap rd rd) _ rfl rfl]
    refine ⟨_, rfl, ?_⟩
    simp [toReg, byteReverse_byteReverse]

end Sys2Proof.Machine
end

section
/-! SUPPORT. The limb algorithms: the value of the limbs they give (spec/40_wide_integer.md R131). -/

namespace Sys2Proof.Machine

/-! The value of a list of limbs. -/

/-- One limb more is a factor 2⁶⁴. -/
theorem limbs_weight_succ (k : Nat) : 2 ^ (64 * (k + 1)) = 2 ^ 64 * 2 ^ (64 * k) := by
  rw [Nat.mul_succ, pow_add, mul_comm]

theorem length_toLimbs (k v : Nat) : (toLimbs k v).length = k := by
  induction k generalizing v with
  | zero => rfl
  | succ k ih => rw [toLimbs, List.length_cons, ih]

theorem toLimbs_lt (k v : Nat) : ∀ x ∈ toLimbs k v, x < 2 ^ 64 := by
  induction k generalizing v with
  | zero => simp [toLimbs]
  | succ k ih => exact List.forall_mem_cons.2 ⟨Nat.mod_lt _ (by decide), ih _⟩

/-- A value that fits its limbs is their value. -/
theorem ofLimbs_toLimbs {k v : Nat} (h : v < 2 ^ (64 * k)) : ofLimbs (toLimbs k v) = v := by
  induction k generalizing v with
  | zero => exact (Nat.lt_one_iff.1 h).symm
  | succ k ih =>
    rw [limbs_weight_succ] at h
    rw [toLimbs, ofLimbs, ih (Nat.div_lt_of_lt_mul h), Nat.mod_add_div]

theorem ofLimbs_lt {l : List Nat} (h : ∀ x ∈ l, x < 2 ^ 64) : ofLimbs l < 2 ^ (64 * l.length) := by
  induction l with
  | nil => simp [ofLimbs]
  | cons x xs ih =>
    obtain ⟨hx, hxs⟩ := List.forall_mem_cons.1 h
    have := ih hxs
    rw [ofLimbs, List.length_cons, limbs_weight_succ]
    omega

/-! A value below `m` and what remains above it are the parts of the result that R120 to R123 name. -/

theorem sum_and_carry {m s x r : Nat} (hx : x < m) (h : x + m * r = s) : x = s % m ∧ r = s / m := by
  subst h
  rw [Nat.add_mul_mod_self_left, Nat.mod_eq_of_lt hx, Nat.add_mul_div_left _ _ (by omega), Nat.div_eq_of_lt hx,
    Nat.zero_add]
  exact ⟨rfl, rfl⟩

theorem difference_and_borrow {m a b x r : Nat} (hx : x < m) (hr : r ≤ 1) (h : x + b = a + m * r) :
    (x : Int) = ((a : Int) - b) % m ∧ r = if a < b then 1 else 0 := by
  have hab : (a : Int) - b = x - m * r := by
    have : (x : Int) + b = a + m * r := by exact_mod_cast h
    omega
  refine ⟨?_, ?_⟩
  · rw [hab, Int.sub_mul_emod_self_left, Int.emod_eq_of_lt (by omega) (by omega)]
  · rcases Nat.le_one_iff_eq_zero_or_eq_one.1 hr with rfl | rfl <;> split <;> omega

/-! Ripple-carry add. -/

theorem length_rippleAdd {as bs : List Nat} (h : as.length = bs.length) (c : Nat) :
    (rippleAdd c as bs).1.length = as.length := by
  induction as generalizing bs c with
  | nil => simp [rippleAdd]
  | cons a as ih =>
    obtain ⟨b, bs, rfl⟩ := List.exists_cons_of_length_eq_add_one h.symm
    rw [rippleAdd, List.length_cons, List.length_cons, ih (Nat.succ.inj h)]

theorem rippleAdd_lt (c : Nat) (as bs : List Nat) : ∀ x ∈ (rippleAdd c as bs).1, x < 2 ^ 64 := by
  induction as generalizing bs c with
  | nil => simp [rippleAdd]
  | cons a as ih =>
    cases bs with
    | nil => simp [rippleAdd]
    | cons b bs => exact List.forall_mem_cons.2 ⟨Nat.mod_lt _ (by decide), ih _ _⟩

/-- The limbs of the sum and the carry out, at the weight above them, are the sum with the carry in. -/
theorem ofLimbs_rippleAdd {as bs : List Nat} (h : as.length = bs.length) (c : Nat) :
    ofLimbs (rippleAdd c as bs).1 + 2 ^ (64 * as.length) * (rippleAdd c as bs).2 = ofLimbs as + ofLimbs bs + c := by
  induction as generalizing bs c with
  | nil =>
    obtain rfl := List.eq_nil_of_length_eq_zero h.symm
    simp [rippleAdd, ofLimbs]
  | cons a as ih =>
    obtain ⟨b, bs, rfl⟩ := List.exists_cons_of_length_eq_add_one h.symm
    have := ih (Nat.succ.inj h) ((a + b + c) / 2 ^ 64)
    simp only [rippleAdd, ofLimbs, List.length_cons, limbs_weight_succ, Nat.mul_assoc]
    omega

/-! Ripple-borrow subtract. -/

theorem length_rippleSub {as bs : List Nat} (h : as.length = bs.length) (c : Nat) :
    (rippleSub c as bs).1.length = as.length := by
  induction as generalizing bs c with
  | nil => simp [rippleSub]
  | cons a as ih =>
    obtain ⟨b, bs, rfl⟩ := List.exists_cons_of_length_eq_add_one h.symm
    rw [rippleSub, List.length_cons, List.length_cons, ih (Nat.succ.inj h)]

theorem rippleSub_lt (c : Nat) (as bs : List Nat) : ∀ x ∈ (rippleSub c as bs).1, x < 2 ^ 64 := by
  induction as generalizing bs c with
  | nil => simp [rippleSub]
  | cons a as ih =>
    cases bs with
    | nil => simp [rippleSub]
    | cons b bs => exact List.forall_mem_cons.2 ⟨Nat.mod_lt _ (by decide), ih _ _⟩

/-- One limb of the difference: the borrow out is 1 iff it was negative. -/
theorem subLimb_eq {a b c : Nat} (ha : a < 2 ^ 64) (hb : b < 2 ^ 64) (hc : c ≤ 1) :
    (2 ^ 64 + a - b - c) % 2 ^ 64 + b + c = a + 2 ^ 64 * (if a < b + c then 1 else 0) := by
  split <;> omega

/-- The limbs of the difference with the subtrahend and the borrow in are the minuend with the borrow out, which is 0
or 1, at the weight above its limbs. -/
theorem ofLimbs_rippleSub {as bs : List Nat} (h : as.length = bs.length) (ha : ∀ x ∈ as, x < 2 ^ 64)
    (hb : ∀ x ∈ bs, x < 2 ^ 64) {c : Nat} (hc : c ≤ 1) :
    ofLimbs (rippleSub c as bs).1 + ofLimbs bs + c = ofLimbs as + 2 ^ (64 * as.length) * (rippleSub c as bs).2 ∧
      (rippleSub c as bs).2 ≤ 1 := by
  induction as generalizing bs c with
  | nil =>
    obtain rfl := List.eq_nil_of_length_eq_zero h.symm
    simp [rippleSub, ofLimbs, hc]
  | cons a as ih =>
    obtain ⟨b, bs, rfl⟩ := List.exists_cons_of_length_eq_add_one h.symm
    obtain ⟨ha, has⟩ := List.forall_mem_cons.1 ha
    obtain ⟨hb, hbs⟩ := List.forall_mem_cons.1 hb
    have hlimb := subLimb_eq ha hb hc
    obtain ⟨hv, hle⟩ := ih (Nat.succ.inj h) has hbs (c := if a < b + c then 1 else 0) (by split <;> decide)
    refine ⟨?_, hle⟩
    simp only [rippleSub, ofLimbs, List.length_cons, limbs_weight_succ, Nat.mul_assoc]
    generalize (if a < b + c then 1 else 0) = d at hlimb hv ⊢
    generalize (2 ^ 64 + a - b - c) % 2 ^ 64 = x at hlimb ⊢
    omega

/-! The schoolbook product. -/

/-- One limb of a remainder and the limbs above it, which take the carry. -/
theorem mod_add_mul_mod (m k t y : Nat) : t % m + m * ((y + t / m) % k) = (t + m * y) % (m * k) := by
  rcases Nat.eq_zero_or_pos m with rfl | hm
  · simp
  · rw [Nat.mod_mul, Nat.add_mul_mod_self_left, Nat.add_mul_div_left _ _ hm, Nat.add_comm y]

theorem length_mulRow (a c : Nat) (bs acc : List Nat) : (mulRow a c bs acc).length = acc.length := by
  induction acc generalizing bs c with
  | nil => simp [mulRow]
  | cons x xs ih => cases bs <;> rw [mulRow, List.length_cons, List.length_cons, ih]

theorem mulRow_lt (a c : Nat) (bs acc : List Nat) : ∀ x ∈ mulRow a c bs acc, x < 2 ^ 64 := by
  induction acc generalizing bs c with
  | nil => simp [mulRow]
  | cons x xs ih => cases bs <;> exact List.forall_mem_cons.2 ⟨Nat.mod_lt _ (by decide), ih _ _⟩

/-- A row adds `a` times the second operand to the accumulator, modulo what the accumulator's limbs hold. -/
theorem ofLimbs_mulRow (a c : Nat) (bs acc : List Nat) :
    ofLimbs (mulRow a c bs acc) = (a * ofLimbs bs + ofLimbs acc + c) % 2 ^ (64 * acc.length) := by
  induction acc generalizing bs c with
  | nil => simp [mulRow, ofLimbs, Nat.mod_one]
  | cons x xs ih =>
    rw [List.length_cons, limbs_weight_succ]
    -- With or without a limb of the second operand, the carry of this limb joins the row above it.
    cases bs <;> simp only [mulRow, ofLimbs, ih, mod_add_mul_mod] <;> ring_nf

/-- The rows add the product to the accumulator, modulo what the accumulator's limbs hold. -/
theorem ofLimbs_mulLimbs (as bs : List Nat) {acc : List Nat} (h : ∀ x ∈ acc, x < 2 ^ 64) :
    ofLimbs (mulLimbs as bs acc) = (ofLimbs as * ofLimbs bs + ofLimbs acc) % 2 ^ (64 * acc.length) := by
  induction as generalizing acc with
  | nil => simp [mulLimbs, ofLimbs, Nat.mod_eq_of_lt (ofLimbs_lt h)]
  | cons a as ih =>
    have hval := ofLimbs_mulRow a 0 bs acc
    have hlen := length_mulRow a 0 bs acc
    have hlt := mulRow_lt a 0 bs acc
    rw [mulLimbs]
    cases hrow : mulRow a 0 bs acc with
    | nil =>
      rw [hrow] at hlen
      simp [ofLimbs, ← hlen, Nat.mod_one]
    | cons x xs =>
      rw [hrow] at hval hlen hlt
      obtain ⟨hx, hxs⟩ := List.forall_mem_cons.1 hlt
      rw [List.length_cons] at hlen
      rw [← hlen, limbs_weight_succ] at hval ⊢
      calc ofLimbs (x :: mulLimbs as bs xs)
        _ = x % 2 ^ 64 + 2 ^ 64 * ((ofLimbs as * ofLimbs bs + ofLimbs xs + x / 2 ^ 64) % 2 ^ (64 * xs.length)) := by
          rw [ofLimbs, ih hxs, Nat.mod_eq_of_lt hx, Nat.div_eq_of_lt hx, Nat.add_zero]
        _ = (ofLimbs (x :: xs) + 2 ^ 64 * (ofLimbs as * ofLimbs bs)) % (2 ^ 64 * 2 ^ (64 * xs.length)) := by
          rw [mod_add_mul_mod, ofLimbs]
          ring_nf
        _ = (ofLimbs (a :: as) * ofLimbs bs + ofLimbs acc) % (2 ^ 64 * 2 ^ (64 * xs.length)) := by
          rw [hval, Nat.mod_add_mod, ofLimbs]
          ring_nf

/-- Settles O42: each algorithm keeps the number of limbs and their bounds; the value of its limbs, below 2^(64 k), is
then the result modulo 2^(64 k), and what remains is the carry or the borrow. -/
theorem limbAlgorithmsAreExact : Obligations.LimbAlgorithmsAreExact := by
  refine ⟨fun k a b ha hb => ?_, fun a b ha hb => ?_⟩
  · have hlen : (toLimbs k a).length = (toLimbs k b).length := by rw [length_toLimbs, length_toLimbs]
    constructor
    · have hlt := rippleAdd_lt 0 (toLimbs k a) (toLimbs k b)
      have hk := length_rippleAdd hlen 0
      have hx := ofLimbs_lt hlt
      have hv := ofLimbs_rippleAdd hlen 0
      rw [hk, length_toLimbs] at hx
      rw [length_toLimbs, ofLimbs_toLimbs ha, ofLimbs_toLimbs hb] at hv
      obtain ⟨hsum, hcarry⟩ := sum_and_carry hx hv
      exact ⟨hsum, hcarry, hk.trans (length_toLimbs k a), hlt⟩
    · have hlt := rippleSub_lt 0 (toLimbs k a) (toLimbs k b)
      have hk := length_rippleSub hlen 0
      have hx := ofLimbs_lt hlt
      obtain ⟨hv, hr⟩ := ofLimbs_rippleSub hlen (toLimbs_lt k a) (toLimbs_lt k b) (Nat.zero_le 1)
      rw [hk, length_toLimbs] at hx
      rw [length_toLimbs, ofLimbs_toLimbs ha, ofLimbs_toLimbs hb] at hv
      obtain ⟨hdiff, hborrow⟩ := difference_and_borrow hx hr hv
      exact ⟨by exact_mod_cast hdiff, hborrow, hk.trans (length_toLimbs k a), hlt⟩
  · have hlt : a * b < 2 ^ (64 * 8) := by
      rw [show 64 * 8 = 256 + 256 from rfl, pow_add]
      exact Nat.mul_lt_mul'' ha hb
    rw [ofLimbs_mulLimbs _ _ (by decide), ofLimbs_toLimbs ha, ofLimbs_toLimbs hb, List.length_replicate]
    exact Nat.mod_eq_of_lt hlt

end Sys2Proof.Machine
end

section
/-! SUPPORT. The field reducer: the folding loop is the remainder, for any modulus that the fold's weight belongs to
(spec/41_field_reduce.md R161, R162, spec/42_scalar_inverse.md R182), and the values of the field functions (R163). -/

namespace Sys2Proof.Machine

/-! The folding loop (R161, R182). -/

/-- One conditional subtraction is the remainder of a value below twice the modulus. -/
theorem condSub_eq_mod {m x : Nat} (h : x < 2 * m) : (if m ≤ x then x - m else x) = x % m := by
  split
  case isTrue hle => rw [Nat.mod_eq_sub_mod hle, Nat.mod_eq_of_lt (by omega)]
  case isFalse hlt => exact (Nat.mod_eq_of_lt (by omega)).symm

/-- A fold keeps the residue of a modulus that takes 2²⁵⁶ to the fold's weight. -/
theorem foldOnce_modEq {c m : Nat} (hc : 2 ^ 256 ≡ c [MOD m]) (x : Nat) : foldOnce c x ≡ x [MOD m] := by
  calc foldOnce c x
    _ ≡ x % 2 ^ 256 + x / 2 ^ 256 * 2 ^ 256 [MOD m] := (hc.symm.mul_left _).add_left _
    _ = x := Nat.mod_add_div' x _

/-- The loop ends at a value below 2²⁵⁶ with one conditional subtraction, whatever fuel is left. -/
theorem foldReduce_of_lt {c m fuel x : Nat} (h : x < 2 ^ 256) :
    foldReduce c m fuel x = if m ≤ x then x - m else x := by
  cases fuel with
  | zero => rfl
  | succ k => exact if_neg h.not_ge

/-- The loop is the remainder of a modulus of 256 bits when it has the fuel for `j` folds, and `j` folds leave a value
below 2²⁵⁶. -/
theorem foldReduce_eq_mod {c m : Nat} (hm : 2 ^ 256 ≤ 2 * m) (hc : 2 ^ 256 ≡ c [MOD m]) {j fuel x : Nat}
    (hj : j ≤ fuel) (hlt : (foldOnce c)^[j] x < 2 ^ 256) : foldReduce c m fuel x = x % m := by
  have hend {k y : Nat} (hy : y < 2 ^ 256) : foldReduce c m k y = y % m := by
    rw [foldReduce_of_lt hy, condSub_eq_mod (hy.trans_le hm)]
  induction j generalizing fuel x with
  | zero => exact hend hlt
  | succ j ih =>
    obtain ⟨k, rfl⟩ : ∃ k, fuel = k + 1 := ⟨fuel - 1, by omega⟩
    by_cases hx : x < 2 ^ 256
    · exact hend hx
    · calc foldReduce c m (k + 1) x
        _ = foldReduce c m k (foldOnce c x) := if_pos (Nat.le_of_not_lt hx)
        _ = foldOnce c x % m := ih (Nat.le_of_succ_le_succ hj) hlt
        _ = x % m := foldOnce_modEq hc x

/-! The folds of the field reducer, with their bounds (R162). -/

/-- 2²⁵⁶ − p is the weight of the field reducer's fold. -/
theorem foldP_modEq : 2 ^ 256 ≡ foldP [MOD p] := by decide +kernel

/-- Of 256 bits above, a fold leaves 33: the weight is below 2³³. -/
theorem foldOnce_foldP_lt {x : Nat} (h : x < 2 ^ 512) : foldOnce foldP x < 2 ^ 289 := by
  unfold foldOnce foldP
  omega

/-- Of 33 bits above, a fold leaves one, with at most 66 bits below it. -/
theorem foldOnce_foldP_lt_of_lt {x : Nat} (h : x < 2 ^ 289) : foldOnce foldP x < 2 ^ 256 + 2 ^ 66 := by
  unfold foldOnce foldP
  omega

/-- A bit above with at most 66 bits below it has room for the weight. -/
theorem foldOnce_foldP_lt_of_lt_add {x : Nat} (h : x < 2 ^ 256 + 2 ^ 66) : foldOnce foldP x < 2 ^ 256 := by
  unfold foldOnce foldP
  omega

/-- Three folds leave no bit above 256. -/
theorem iterate_three_foldOnce_foldP_lt {x : Nat} (h : x < 2 ^ 512) : (foldOnce foldP)^[3] x < 2 ^ 256 :=
  foldOnce_foldP_lt_of_lt_add (foldOnce_foldP_lt_of_lt (foldOnce_foldP_lt h))

/-- Fuel for three folds is enough for every 512-bit value. -/
theorem foldReduce_foldP_eq_mod {fuel x : Nat} (hf : 3 ≤ fuel) (h : x < 2 ^ 512) :
    foldReduce foldP p fuel x = x % p :=
  foldReduce_eq_mod (by decide +kernel) foldP_modEq hf (iterate_three_foldOnce_foldP_lt h)

/-- Settles O44: the loop keeps the residue and three folds end it; the bounds are those of one fold after the other. -/
theorem foldingIsTheRemainder : Obligations.FoldingIsTheRemainder := by
  refine ⟨fun x hx => ?_, by decide +kernel⟩
  have h1 := foldOnce_foldP_lt hx
  have h2 := foldOnce_foldP_lt_of_lt h1
  exact ⟨fun fuel hf => foldReduce_foldP_eq_mod hf hx, h1, h2, fun _ => foldOnce_foldP_lt_of_lt_add h2⟩

/-- Settles O43: the pair's value modulo p fits a register, and REDP has no check that could raise RANGE. -/
theorem redpReducesModP : Obligations.RedpReducesModP := by
  refine ⟨fun w h => ?_, fun rd rs1 s heven => ?_⟩
  · exact decode_of_opcode h rfl rfl
      (by simp [zerosClear_iff, extractLsb'_rs2_rsv_imm_eq_zero, Instr.wf, Reg.pairBase_iff, and_assoc])
  · obtain ⟨t, u, hx, hst, hc, hk, hf, hv⟩ :=
      exec_runs_toReg (i := .redp rd rs1) (s := s) rfl (Reg.pairBase_iff.2 heven)
    have hlt : (s.pair rs1).toNat % p < p := Nat.mod_lt _ p_pos
    have hval : (u.reg rd).toNat = (s.pair rs1).toNat % p := by
      rw [hv, BitVec.toNat_ofNat, Nat.mod_eq_of_lt (hlt.trans p_lt)]
    rw [← p_eq, ← State.pair_toNat]
    exact ⟨t, u, hx, hst, hc, hk, hf, hval ▸ hlt, hval⟩

/-! The field functions (R163). -/

/-- The difference is the integers' modulo p. -/
theorem intCast_fsub {a b : Nat} (hb : b ≤ p) : (fsub a b : Int) = ((a : Int) - b) % p := by
  rw [fsub, Int.natCast_mod, Nat.cast_add, Nat.cast_sub hb, add_sub_left_comm, Int.add_emod_left]

/-- The negative is the difference from 0. -/
theorem fneg_eq_fsub (a : Nat) : fneg a = fsub 0 a := by rw [fneg, fsub, Nat.zero_add]

/-- The sum needs at most one subtraction. -/
theorem fadd_eq_ite {a b : Nat} (ha : a < p) (hb : b < p) : fadd a b = if p ≤ a + b then a + b - p else a + b :=
  (condSub_eq_mod (by omega)).symm

/-- The difference needs at most one addition. -/
theorem fsub_eq_ite {a b : Nat} (ha : a < p) (hb : b < p) : fsub a b = if a < b then a + p - b else a - b := by
  rw [fsub, ← condSub_eq_mod (by omega)]
  split <;> split <;> omega

/-- The product of two field elements is a 512-bit value, so the folding reduction of it is exact. -/
theorem fmul_eq_foldReduce {a b : Nat} (ha : a < p) (hb : b < p) : fmul a b = foldReduce foldP p 3 (a * b) := by
  have hab : a * b < 2 ^ 512 := by
    rw [show 512 = 256 + 256 from rfl, pow_add]
    exact Nat.mul_lt_mul'' (ha.trans p_lt) (hb.trans p_lt)
  exact (foldReduce_foldP_eq_mod le_rfl hab).symm

/-- Settles O46: sum, product and multiple are remainders by definition; the rest by the lemmas above. -/
theorem fieldFunctionsAreExact : Obligations.FieldFunctionsAreExact := by
  intro a b ha hb
  have hneg : (fneg a : Int) = -(a : Int) % p := by rw [fneg_eq_fsub, intCast_fsub ha.le, Nat.cast_zero, zero_sub]
  exact ⟨rfl, fadd_eq_ite ha hb, intCast_fsub hb.le, fsub_eq_ite ha hb, hneg, rfl, fmul_eq_foldReduce ha hb, rfl,
    fun _ _ => rfl, fadd_lt a b, fsub_lt a b, fneg_lt a, fmul_lt a b⟩

end Sys2Proof.Machine
end

section
/-! SUPPORT. The scalar inverter: the fold of a product of scalars, the fixed-pattern power as the inverse modulo the
prime n, and SINV's run (spec/42_scalar_inverse.md R180 to R183). -/

namespace Sys2Proof.Machine

/-! The folds of the scalar product, with their bounds (R182). -/

/-- The constant of R182 is the weight of the scalar fold. -/
theorem foldN_eq_mod : foldN = 2 ^ 256 % n := by decide +kernel

/-- 2²⁵⁶ and the weight of the scalar fold have the same residue. -/
theorem foldN_modEq : 2 ^ 256 ≡ foldN [MOD n] := foldN_eq_mod ▸ (Nat.mod_modEq _ _).symm

/-- Of 256 bits above, a fold leaves 129: the weight is below 2¹²⁹. -/
theorem foldOnce_foldN_lt {x : Nat} (h : x < 2 ^ 512) : foldOnce foldN x < 2 ^ 385 := by
  unfold foldOnce foldN
  omega

/-- Of 129 bits above, a fold leaves three. -/
theorem foldOnce_foldN_lt_of_lt {x : Nat} (h : x < 2 ^ 385) : foldOnce foldN x < 2 ^ 259 := by
  unfold foldOnce foldN
  omega

/-- Of three bits above, a fold leaves one, with at most 132 bits below it. -/
theorem foldOnce_foldN_lt_add_of_lt {x : Nat} (h : x < 2 ^ 259) : foldOnce foldN x < 2 ^ 256 + 2 ^ 132 := by
  unfold foldOnce foldN
  omega

/-- A bit above with at most 132 bits below it has room for the weight. -/
theorem foldOnce_foldN_lt_of_lt_add {x : Nat} (h : x < 2 ^ 256 + 2 ^ 132) : foldOnce foldN x < 2 ^ 256 := by
  unfold foldOnce foldN
  omega

/-- Four folds leave no bit above 256. -/
theorem iterate_four_foldOnce_foldN_lt {x : Nat} (h : x < 2 ^ 512) : (foldOnce foldN)^[4] x < 2 ^ 256 :=
  foldOnce_foldN_lt_of_lt_add (foldOnce_foldN_lt_add_of_lt (foldOnce_foldN_lt_of_lt (foldOnce_foldN_lt h)))

/-- Fuel for four folds is enough for every 512-bit value. -/
theorem foldReduce_foldN_eq_mod {fuel x : Nat} (hf : 4 ≤ fuel) (h : x < 2 ^ 512) :
    foldReduce foldN n fuel x = x % n :=
  foldReduce_eq_mod (by decide +kernel) foldN_modEq hf (iterate_four_foldOnce_foldN_lt h)

/-- Settles O45: a product of two scalars is a 512-bit value, which four folds bring below 2²⁵⁶. -/
theorem scalarFoldIsTheRemainder : Obligations.ScalarFoldIsTheRemainder := by
  refine ⟨foldN_eq_mod, rfl, fun a b ha hb => ⟨4, fun fuel hf => foldReduce_foldN_eq_mod hf ?_⟩⟩
  rw [show 512 = 256 + 256 from rfl, pow_add]
  exact Nat.mul_lt_mul'' (ha.trans n_lt) (hb.trans n_lt)

/-! The power by n − 2 (R181, R183). -/

/-- The 256 steps of the fixed pattern cover every bit of its exponent, so their result is the power. -/
theorem scalarInverse_eq_pow_mod (a : Nat) : scalarInverse a = a ^ (n - 2) % n :=
  fixedPow_one n_prime.one_lt (by decide +kernel) a

/-- Settles O48: the constant and its bits by evaluation, the loop by `scalarInverse_eq_pow_mod`. -/
theorem fixedPatternIsThePower : Obligations.FixedPatternIsThePower :=
  ⟨by decide +kernel, by decide +kernel, by decide +kernel, fun a _ => scalarInverse_eq_pow_mod a⟩

/-- Fermat's little theorem: modulo a prime q, the power by q − 2 is an inverse. -/
theorem mul_pow_sub_two_mod {q a : Nat} (hq : q.Prime) (ha : a.Coprime q) : a * (a ^ (q - 2) % q) % q = 1 := by
  have hexp : q - 2 + 1 = q.totient := by
    have := hq.two_le
    rw [Nat.totient_prime hq]
    omega
  have hfermat : a ^ q.totient % q = 1 % q := Nat.ModEq.pow_totient ha
  rw [Nat.mul_mod_mod, ← pow_succ', hexp, hfermat, Nat.mod_eq_of_lt hq.one_lt]

/-- Two residues that give the same product with a unit are equal. -/
theorem eq_of_mul_mod_eq {q a r r' : Nat} (ha : a.Coprime q) (hr : r < q) (hr' : r' < q)
    (h : a * r % q = a * r' % q) : r = r' :=
  (Nat.ModEq.cancel_left_of_coprime ha.symm h).eq_of_lt_of_lt hr hr'

/-! SINV (R180). -/

/-- The check of one operand register (R256). -/
theorem State.outOfRange_singleton (s : State) (b : Nat) (r : Reg) :
    s.outOfRange b [r] = if b ≤ (s.reg r).toNat then some r else none := by
  simp [State.outOfRange, List.find?_singleton]

/-- SINV is an acceptance whose check is that its operand is a scalar. -/
theorem exec_sinv_eq_accept (rd rs1 : Reg) (s : State) :
    exec (.sinv rd rs1) s = accept (.sinv rd rs1) (if n ≤ (s.reg rs1).toNat then some rs1 else none)
      ⟨toReg rd (BitVec.ofNat 256 (scalarInverse (s.reg rs1).toNat)), .keep⟩ s := by
  rw [← State.outOfRange_singleton]
  rfl

/-- SINV of a scalar, run to its completion. -/
theorem exec_sinv_runs {rs1 : Reg} {s : State} (rd : Reg) (h : (s.reg rs1).toNat < n) :
    ∃ t u, exec (.sinv rd rs1) s = .next t ∧ Started (.sinv rd rs1) s t ∧ t.complete = u ∧
      KeepsAllBut [rd] s u ∧ u.flags = s.flags ∧ (u.reg rd).toNat = (s.reg rs1).toNat ^ (n - 2) % n := by
  have haccept := exec_sinv_eq_accept rd rs1 s
  rw [if_neg h.not_ge] at haccept
  obtain ⟨t, u, hx, hst, hc, hk, hf, hv⟩ := exec_runs_toReg haccept rfl
  refine ⟨t, u, hx, hst, hc, hk, hf, ?_⟩
  have hlt : (s.reg rs1).toNat ^ (n - 2) % n < n := Nat.mod_lt _ n_pos
  rw [hv, scalarInverse_eq_pow_mod, BitVec.toNat_ofNat, Nat.mod_eq_of_lt (hlt.trans n_lt)]

/-- SINV of a value that is no scalar is aborted with RANGE, naming the operand. -/
theorem exec_sinv_range {rs1 : Reg} {s : State} (rd : Reg) (h : n ≤ (s.reg rs1).toNat) :
    exec (.sinv rd rs1) s = .next (s.abort .range rs1 (encode (.sinv rd rs1))) := by
  rw [exec_sinv_eq_accept, if_pos h, accept_range rfl]

/-- Settles O47: below n SINV runs (`exec_sinv_runs`), from n on it is aborted (`exec_sinv_range`). -/
theorem sinvRaisesToNMinusTwo : Obligations.SinvRaisesToNMinusTwo := by
  refine ⟨fun w h => ?_, fun rd rs1 s h => exec_sinv_runs rd h, fun rd rs1 s h herr => ?_⟩
  · exact decode_of_opcode h rfl rfl (by simp [zerosClear_iff, extractLsb'_rs2_rsv_imm_eq_zero, Instr.wf])
  · rw [exec_sinv_range rd h, State.abort_of_not_err herr]

/-- Settles O49: n is prime, so the power is an inverse by Fermat's little theorem, and a scalar has no other. -/
theorem sinvGivesTheUniqueInverse : Obligations.SinvGivesTheUniqueInverse := by
  intro rd rs1 s hpos hlt
  obtain ⟨t, _, hx, -, rfl, -, -, hval⟩ := exec_sinv_runs rd hlt
  have hcop : (s.reg rs1).toNat.Coprime n := (Nat.coprime_of_lt_prime hpos.ne' hlt n_prime).symm
  have hinv := mul_pow_sub_two_mod n_prime hcop
  have hrn : (s.reg rs1).toNat ^ (n - 2) % n < n := Nat.mod_lt _ n_pos
  rw [← hval] at hinv hrn
  refine ⟨t, hx, Nat.pos_of_ne_zero fun h0 => ?_, hrn, hinv, fun r' _ hr' h => ?_⟩
  · simp [h0] at hinv
  · exact eq_of_mul_mod_eq hcop hr' hrn (h.trans hinv.symm)

end Sys2Proof.Machine
end

section
/-! SUPPORT. The two point functions: one equation for each branch, and the formulas "dbl-2009-l" and "madd-2004-hmv" in
the integers modulo p (spec/43_point.md R191, R192). -/

namespace Sys2Proof.Machine

/-- A product is 0 modulo the prime p iff a factor is. -/
theorem fmul_eq_zero_iff {a b : Nat} (ha : a < p) (hb : b < p) : fmul a b = 0 ↔ a = 0 ∨ b = 0 := by
  have : Fact p.Prime := ⟨p_prime⟩
  rw [← cast_eq_zero_iff (fmul_lt a b), cast_fmul, mul_eq_zero, cast_eq_zero_iff ha, cast_eq_zero_iff hb]

/-- A double is 0 modulo the odd p iff the value is. -/
theorem fk_two_eq_zero_iff {a : Nat} (ha : a < p) : fk 2 a = 0 ↔ a = 0 := by
  have h2 : 2 < p := by decide +kernel
  exact (fmul_eq_zero_iff h2 ha).trans (or_iff_right two_ne_zero)

theorem inf_reduced : inf.reduced := ⟨p_pos, p_pos, p_pos⟩

/-! The doubling function (R191). -/

/-- The Z3 of the formula is right in every branch: it is 0 where `dbl` answers infinity. -/
theorem dbl_z (P : Jac) : (dbl P).z = fk 2 (fmul P.y P.z) := by
  unfold dbl
  dsimp only
  split_ifs with hz hz3
  · rw [hz]
    rfl
  · exact hz3.symm
  · rfl

theorem dbl_z_eq_zero_iff {P : Jac} (hP : P.reduced) : (dbl P).z = 0 ↔ P.z = 0 ∨ P.y = 0 := by
  obtain ⟨-, hy, hz⟩ := hP
  rw [dbl_z, fk_two_eq_zero_iff (fmul_lt _ _), fmul_eq_zero_iff hy hz, or_comm]

theorem dbl_z_ne_zero {P : Jac} (hP : P.reduced) (hz : P.z ≠ 0) (hy : P.y ≠ 0) : (dbl P).z ≠ 0 :=
  (dbl_z_eq_zero_iff hP).not.2 (not_or.2 ⟨hz, hy⟩)

theorem dbl_eq_inf_of_z_eq_zero {P : Jac} (h : (dbl P).z = 0) : dbl P = inf := by
  rw [dbl_z] at h
  unfold dbl
  dsimp only
  rw [if_pos h, ite_self]

theorem dbl_reduced (P : Jac) : (dbl P).reduced := by
  unfold dbl
  dsimp only
  split_ifs
  · exact inf_reduced
  · exact inf_reduced
  · exact ⟨fsub_lt _ _, fsub_lt _ _, fk_lt _ _⟩

/-- The doubling formula modulo p. -/
theorem cast_dbl {P : Jac} (hP : P.reduced) (hz : P.z ≠ 0) (hy : P.y ≠ 0) :
    let X : ZMod p := P.x
    let Y : ZMod p := P.y
    let Z : ZMod p := P.z
    let D : ZMod p := 2 * ((X + Y ^ 2) ^ 2 - X ^ 2 - Y ^ 4)
    ((dbl P).x : ZMod p) = (3 * X ^ 2) ^ 2 - 2 * D ∧
    ((dbl P).y : ZMod p) = 3 * X ^ 2 * (D - ((3 * X ^ 2) ^ 2 - 2 * D)) - 8 * Y ^ 4 ∧
    ((dbl P).z : ZMod p) = 2 * Y * Z := by
  have hz3 : fk 2 (fmul P.y P.z) ≠ 0 := dbl_z P ▸ dbl_z_ne_zero hP hz hy
  have hdbl : dbl P = _ := (if_neg hz).trans (if_neg hz3)
  rw [hdbl]
  simp only [cast_fsub (fsqr_lt _).le, cast_fsub (fsub_lt _ _).le, cast_fsub (fk_lt _ _).le, cast_fadd, cast_fsqr,
    cast_fmul, cast_fk, Nat.cast_ofNat]
  exact ⟨by ring, by ring, by ring⟩

/-- Settles O53: the formula's Z3 = 2·Y·Z is 0 only with a factor, p being an odd prime. -/
theorem dblIsItsFormula : Obligations.DblIsItsFormula := fun P hP =>
  ⟨dbl_z_eq_zero_iff hP, fun h => dbl_eq_inf_of_z_eq_zero ((dbl_z_eq_zero_iff hP).2 h), dbl_reduced P, cast_dbl hP⟩

/-! The mixed addition (R192). -/

theorem maddH_lt (P : Jac) (Q : Aff) : maddH P Q < p := fsub_lt _ _

theorem maddR_lt (P : Jac) (Q : Aff) : maddR P Q < p := fsub_lt _ _

theorem cast_maddH {P : Jac} (hP : P.reduced) (Q : Aff) :
    (maddH P Q : ZMod p) = Q.x * (P.z : ZMod p) ^ 2 - P.x := by
  rw [maddH, cast_fsub hP.1.le, cast_fmul, cast_fsqr]

theorem cast_maddR {P : Jac} (hP : P.reduced) (Q : Aff) :
    (maddR P Q : ZMod p) = Q.y * (P.z : ZMod p) ^ 3 - P.y := by
  rw [maddR, cast_fsub hP.2.1.le, cast_fmul, cast_fmul, cast_fsqr]
  ring

theorem madd_of_infinite {P : Jac} (hz : P.z = 0) (Q : Aff) : madd P Q = ⟨Q.x, Q.y, 1⟩ := if_pos hz

theorem madd_eq_dbl {P : Jac} {Q : Aff} (hz : P.z ≠ 0) (hH : maddH P Q = 0) (hR : maddR P Q = 0) :
    madd P Q = dbl P :=
  (if_neg hz).trans ((if_pos hH).trans (if_pos hR))

theorem madd_eq_inf {P : Jac} {Q : Aff} (hz : P.z ≠ 0) (hH : maddH P Q = 0) (hR : maddR P Q ≠ 0) :
    madd P Q = inf :=
  (if_neg hz).trans ((if_pos hH).trans (if_neg hR))

theorem madd_reduced (P : Jac) {Q : Aff} (hQ : Q.reduced) : (madd P Q).reduced := by
  unfold madd
  dsimp only
  split_ifs
  · exact ⟨hQ.1, hQ.2, p_prime.one_lt⟩
  · exact dbl_reduced P
  · exact inf_reduced
  · exact ⟨fsub_lt _ _, fsub_lt _ _, fmul_lt _ _⟩

/-- The addition formula modulo p, and its Z3, which is a product of factors that are not 0. -/
theorem cast_madd {P : Jac} {Q : Aff} (hP : P.reduced) (hz : P.z ≠ 0) (hH : maddH P Q ≠ 0) :
    let X : ZMod p := P.x
    let Y : ZMod p := P.y
    let Z : ZMod p := P.z
    let H : ZMod p := maddH P Q
    let R : ZMod p := maddR P Q
    ((madd P Q).x : ZMod p) = R ^ 2 - H ^ 3 - 2 * (X * H ^ 2) ∧
    ((madd P Q).y : ZMod p) = R * (X * H ^ 2 - (R ^ 2 - H ^ 3 - 2 * (X * H ^ 2))) - Y * H ^ 3 ∧
    ((madd P Q).z : ZMod p) = Z * H ∧ (madd P Q).z ≠ 0 := by
  have hmadd : madd P Q = _ := (if_neg hz).trans (if_neg hH)
  have hz3 : fmul P.z (maddH P Q) ≠ 0 := by simp [fmul_eq_zero_iff hP.2.2 (maddH_lt P Q), hz, hH]
  rw [hmadd]
  simp only [cast_fsub (fmul_lt _ _).le, cast_fsub (fsub_lt _ _).le, cast_fsub (fk_lt _ _).le, cast_fsqr,
    cast_fmul, cast_fk, Nat.cast_ofNat]
  exact ⟨by ring, by ring, trivial, hz3⟩

/-- Whenever the sum is infinite it is the canonical triple: the other branches give a Z that is not 0. -/
theorem madd_eq_inf_of_z_eq_zero {P : Jac} {Q : Aff} (hP : P.reduced) (h : (madd P Q).z = 0) :
    madd P Q = inf := by
  by_cases hz : P.z = 0
  · rw [madd_of_infinite hz] at h
    exact absurd h one_ne_zero
  by_cases hH : maddH P Q = 0
  · by_cases hR : maddR P Q = 0
    · rw [madd_eq_dbl hz hH hR] at h ⊢
      exact dbl_eq_inf_of_z_eq_zero h
    · exact madd_eq_inf hz hH hR
  · obtain ⟨-, -, -, hne⟩ := cast_madd hP hz hH
    exact absurd h hne

/-- Settles O54: H and R of the statement are the residues of `maddH` and `maddR`, which are 0 together with them. -/
theorem maddIsItsFormula : Obligations.MaddIsItsFormula := by
  intro P Q hP hQ X Y Z H R
  have hH : (maddH P Q : ZMod p) = H := cast_maddH hP Q
  have hR : (maddR P Q : ZMod p) = R := cast_maddR hP Q
  have hH0 : H = 0 ↔ maddH P Q = 0 := by rw [← hH, cast_eq_zero_iff (maddH_lt P Q)]
  have hR0 : R = 0 ↔ maddR P Q = 0 := by rw [← hR, cast_eq_zero_iff (maddR_lt P Q)]
  have hform (hz : P.z ≠ 0) (hne : H ≠ 0) := cast_madd (Q := Q) hP hz (mt hH0.2 hne)
  rw [hH, hR] at hform
  exact ⟨fun hz => madd_of_infinite hz Q, fun hz h0 h1 => madd_eq_dbl hz (hH0.1 h0) (hR0.1 h1),
    fun hz h0 h1 => madd_eq_inf hz (hH0.1 h0) (mt hR0.2 h1), hform, madd_eq_inf_of_z_eq_zero hP, madd_reduced P hQ⟩

end Sys2Proof.Machine
end

section
/-! SUPPORT. The point doubler and the mixed adder as commands: the run of a command that writes a Jacobian triple, and
RANGE on the first coordinate that is no field element (spec/43_point.md R193, R194). -/

namespace Sys2Proof.Machine

/-! The bases of the register groups (R21). -/

theorem Reg.jacBase_iff {r : Reg} : r.jacBase = true ↔ r.val ≤ 13 := by simp [Reg.jacBase]

theorem Reg.affBase_iff {r : Reg} : r.affBase = true ↔ r.val ≤ 14 := by simp [Reg.affBase]

/-! The run of a command that writes a triple (R251, R259). -/

/-- A triple of field elements that was written reads back (R11). -/
theorem State.jac_setRegs_toJac (s : State) (b : Reg) {P : Jac} (hP : P.reduced) :
    (s.setRegs (toJac b P)).jac b = P := by
  obtain ⟨hx, hy, hz⟩ := hP
  have hn : ((toJac b P).map Prod.fst).Nodup := by simp [toJac, eq_comm]
  have hreg {r : Reg} {v : Nat} (hm : (r, BitVec.ofNat 256 v) ∈ toJac b P) (hv : v < p) :
      ((s.setRegs (toJac b P)).reg r).toNat = v := by
    rw [State.reg_setRegs_of_mem _ s hm hn, BitVec.toNat_ofNat, Nat.mod_eq_of_lt (hv.trans p_lt)]
  rw [State.jac, hreg (by simp [toJac]) hx, hreg (by simp [toJac]) hy, hreg (by simp [toJac]) hz]

/-- A command that writes one Jacobian triple, run to its completion. -/
theorem exec_runs_toJac {i : Instr} {rd : Reg} {P : Jac} {fw : FlagWrite} {s : State}
    (hx : exec i s = accept i none ⟨toJac rd P, fw⟩ s) (hw : i.wf = true) (hP : P.reduced) :
    ∃ t u, exec i s = .next t ∧ Started i s t ∧ t.complete = u ∧ KeepsAllBut [rd, rd + 1, rd + 2] s u ∧
      u.flags = fw.apply s.flags ∧ u.jac rd = P ∧ (u.jac rd).reduced := by
  obtain ⟨t, ht, hst, hc⟩ := exec_runs hx hw
  have hval : (s.finished ⟨toJac rd P, fw⟩).jac rd = P := State.jac_setRegs_toJac s rd hP
  exact ⟨t, _, ht, hst, hc, keepsAllBut_finished s _ rfl, rfl, hval, hval.symm ▸ hP⟩

/-! The check of the operands (R256). -/

/-- The check of the operands finds nothing when they are all in range. -/
theorem exec_eq_accept_none {i : Instr} {res : Result} {b : Nat} {rs : List Reg} {s : State}
    (hx : exec i s = accept i (s.outOfRange b rs) res s) (hrs : ∀ r ∈ rs, (s.reg r).toNat < b) :
    exec i s = accept i none res s := by
  rw [hx, State.outOfRange_eq_none.2 hrs]

/-- A legal command with an operand out of range is aborted with RANGE, naming the first. -/
theorem exec_range {i : Instr} {res : Result} {b : Nat} {rs : List Reg} {r : Reg} {s : State}
    (hx : exec i s = accept i (s.outOfRange b rs) res s) (hw : i.wf = true) (herr : s.err = false)
    (hr : s.outOfRange b rs = some r) : exec i s = .next (Aborted .range r (encode i) s) := by
  rw [hx, hr, accept_range hw, State.abort_of_not_err herr]

theorem State.jac_reduced_iff (s : State) (b : Reg) :
    (s.jac b).reduced ↔ ∀ r ∈ jacRegs b, (s.reg r).toNat < p := by
  simp [jacRegs, Jac.reduced, State.jac]

theorem State.aff_reduced_iff (s : State) (b : Reg) :
    (s.aff b).reduced ↔ ∀ r ∈ affRegs b, (s.reg r).toNat < p := by
  simp [affRegs, Aff.reduced, State.aff]

/-- Settles O50: `dbl` gives field elements, which a register triple holds unchanged. -/
theorem pdblDoublesThePoint : Obligations.PdblDoublesThePoint := by
  have hwf {rd rs1 : Reg} (hd : rd.val ≤ 13) (h1 : rs1.val ≤ 13) : (Instr.pdbl rd rs1).wf = true := by
    simp [Instr.wf, Reg.jacBase_iff, hd, h1]
  refine ⟨fun w h => ?_, fun rd rs1 s hd h1 hP => ?_, fun rd rs1 r s hd h1 herr hr => ?_⟩
  · exact decode_of_opcode h rfl rfl
      (by simp [zerosClear_iff, extractLsb'_rs2_rsv_imm_eq_zero, Instr.wf, Reg.jacBase_iff, and_assoc])
  · have hx := exec_eq_accept_none (i := .pdbl rd rs1) rfl ((s.jac_reduced_iff rs1).1 hP)
    exact exec_runs_toJac hx (hwf hd h1) (dbl_reduced _)
  · exact exec_range rfl (hwf hd h1) herr hr

/-- Settles O51: `madd` gives field elements, which a register triple holds unchanged. -/
theorem paddmAddsThePoint : Obligations.PaddmAddsThePoint := by
  have hwf {rd rs1 rs2 : Reg} (hd : rd.val ≤ 13) (h1 : rs1.val ≤ 13) (h2 : rs2.val ≤ 14) :
      (Instr.paddm rd rs1 rs2).wf = true := by
    simp [Instr.wf, Reg.jacBase_iff, Reg.affBase_iff, hd, h1, h2]
  refine ⟨fun w h => ?_, fun rd rs1 rs2 s hd h1 h2 hP hQ => ?_, fun rd rs1 rs2 r s hd h1 h2 herr hr => ?_⟩
  · exact decode_of_opcode h rfl rfl
      (by simp [zerosClear_iff, extractLsb'_rsv_imm_eq_zero, Instr.wf, Reg.jacBase_iff, Reg.affBase_iff, and_assoc])
  · have hin := List.forall_mem_append.2 ⟨(s.jac_reduced_iff rs1).1 hP, (s.aff_reduced_iff rs2).1 hQ⟩
    have hx := exec_eq_accept_none (i := .paddm rd rs1 rs2) rfl hin
    exact exec_runs_toJac hx (hwf hd h1 h2) (madd_reduced _ hQ)
  · exact exec_range rfl (hwf hd h1 h2) herr hr

end Sys2Proof.Machine
end

section
/-! SUPPORT. The point functions on the curve: `dbl` and `madd` are the tangent and the chord of the group law, and the
curve has no point of order 2 (spec/43_point.md R195, R197). -/

namespace Sys2Proof.Machine

/-! The formulas with the slope `l` of the line, over any commutative ring. -/

section Identities

variable {K : Type} [CommRing K] {x y x2 y2 z l : K}

/-- "dbl-2009-l" on X = x·z², Y = y·z³ gives the coordinates of the tangent's third point. -/
theorem dbl_formula_eq_tangent (hl : l * (2 * y) = 3 * x ^ 2) :
    let X := x * z ^ 2
    let Y := y * z ^ 3
    let Z3 := 2 * Y * z
    let D := 2 * ((X + Y ^ 2) ^ 2 - X ^ 2 - Y ^ 4)
    let x3 := l ^ 2 - x - x
    (3 * X ^ 2) ^ 2 - 2 * D = x3 * Z3 ^ 2 ∧
    3 * X ^ 2 * (D - ((3 * X ^ 2) ^ 2 - 2 * D)) - 8 * Y ^ 4 = -(l * (x3 - x) + y) * Z3 ^ 3 := by
  have hE : 3 * (x * z ^ 2) ^ 2 = l * (2 * y) * z ^ 4 := by rw [hl]; ring
  intro X Y Z3 D x3
  simp only [X, Y, Z3, D, x3, hE]
  exact ⟨by ring, by ring⟩

/-- "madd-2004-hmv" on X = x·z², Y = y·z³ gives the coordinates of the chord's third point. -/
theorem madd_formula_eq_chord (hl : l * (x - x2) = y - y2) :
    let X := x * z ^ 2
    let Y := y * z ^ 3
    let H := x2 * z ^ 2 - X
    let R := y2 * z ^ 3 - Y
    let Z3 := z * H
    let x3 := l ^ 2 - x - x2
    R ^ 2 - H ^ 3 - 2 * (X * H ^ 2) = x3 * Z3 ^ 2 ∧
    R * (X * H ^ 2 - (R ^ 2 - H ^ 3 - 2 * (X * H ^ 2))) - Y * H ^ 3 = -(l * (x3 - x) + y) * Z3 ^ 3 := by
  have hR : y2 * z ^ 3 - y * z ^ 3 = l * (x2 - x) * z ^ 3 := by linear_combination z ^ 3 * hl
  intro X Y H R Z3 x3
  simp only [X, Y, H, R, Z3, x3, hR]
  exact ⟨by ring, by ring⟩

end Identities

/-! The curve (R3). -/

theorem curve_equation_iff {x y : ZMod p} : curve.Equation x y ↔ y ^ 2 = x ^ 3 + 7 := by
  rw [WeierstrassCurve.Affine.equation_iff]
  simp [curve]

@[simp] theorem curve_negY (x y : ZMod p) : curve.negY x y = -y := by
  simp [WeierstrassCurve.Affine.negY, curve]

@[simp] theorem curve_addX (x x2 l : ZMod p) : curve.addX x x2 l = l ^ 2 - x - x2 := by
  simp [WeierstrassCurve.Affine.addX, curve]

@[simp] theorem curve_addY (x x2 y l : ZMod p) : curve.addY x x2 y l = -(l * (l ^ 2 - x - x2 - x) + y) := by
  rw [WeierstrassCurve.Affine.addY, curve_negY, WeierstrassCurve.Affine.negAddY, curve_addX]

/-- −7 is no cube modulo p: the power of a cube by (p − 1)/3 is 1, and that of −7 is not. -/
theorem cube_add_seven_ne_zero (x : ZMod p) : x ^ 3 + 7 ≠ 0 := by
  have : Fact p.Prime := ⟨p_prime⟩
  intro h
  have hcube : ((p - 7 : Nat) : ZMod p) = x ^ 3 := by
    rw [Nat.cast_sub (by decide +kernel), ZMod.natCast_self]
    linear_combination -h
  have hx : x ≠ 0 := by
    rintro rfl
    rw [zero_pow three_ne_zero, cast_eq_zero_iff (by decide +kernel)] at hcube
    exact absurd hcube (by decide +kernel)
  have hpow : (fixedPow p ((p - 1) / 3) (p - 7) 256 1 : ZMod p) = (1 : Nat) := by
    rw [fixedPow_one p_prime.one_lt (by decide +kernel), ZMod.natCast_mod, Nat.cast_pow, hcube, ← pow_mul,
      show 3 * ((p - 1) / 3) = p - 1 by decide +kernel, ZMod.pow_card_sub_one_eq_one hx, Nat.cast_one]
  have hone := eq_of_cast_eq (fixedPow_lt p_prime.one_lt _ _ _ _ p_prime.one_lt) p_prime.one_lt hpow
  exact absurd hone (by decide +kernel)

/-- The curve has no point of order 2 (R197). -/
theorem curve_y_ne_zero {x y : ZMod p} (h : curve.Equation x y) : y ≠ 0 := by
  rintro rfl
  rw [curve_equation_iff, zero_pow two_ne_zero] at h
  exact cube_add_seven_ne_zero x h.symm

theorem two_ne_zero_mod_p : (2 : ZMod p) ≠ 0 :=
  mod_cast (cast_eq_zero_iff (a := 2) (by decide +kernel)).not.2 two_ne_zero

/-- On the curve a point and its negative differ. -/
theorem curve_y_ne_negY {x y : ZMod p} (h : curve.Equation x y) : y ≠ curve.negY x y := by
  have : Fact p.Prime := ⟨p_prime⟩
  rw [curve_negY]
  intro he
  have h2 : 2 * y = 0 := by linear_combination he
  exact mul_ne_zero two_ne_zero_mod_p (curve_y_ne_zero h) h2

/-! Triples and pairs that denote points (R190, R195). -/

/-- A triple with Z = 0 denotes infinity and no other point (R190). -/
theorem eq_zero_of_denotes {P : Jac} {A : curve.Point} (hA : P.Denotes A) (hz : P.z = 0) : A = 0 := by
  cases A with
  | zero => rfl
  | some x y h => exact absurd hz hA.1

/-- A pair with Z = 1 is a triple of the same point. -/
theorem denotes_of_z_eq_one {Q : Aff} {B : curve.Point} (hB : Q.Denotes B) : Jac.Denotes ⟨Q.x, Q.y, 1⟩ B := by
  cases B with
  | zero => exact hB.elim
  | some x y h => exact ⟨one_ne_zero, by simp [hB.1], by simp [hB.2]⟩

section GroupLaw

variable [Fact p.Prime]

/-! The slope of the line in the group law, without its division. -/

theorem curve_slope_self {x y : ZMod p} (h : curve.Equation x y) :
    curve.slope x x y y * (2 * y) = 3 * x ^ 2 := by
  have h2 : 2 * y ≠ 0 := mul_ne_zero two_ne_zero_mod_p (curve_y_ne_zero h)
  rw [WeierstrassCurve.Affine.slope_of_Y_ne rfl (curve_y_ne_negY h), curve_negY, sub_neg_eq_add, ← two_mul,
    div_mul_cancel₀ _ h2]
  simp [curve]

theorem curve_slope_of_ne {x x2 : ZMod p} (y y2 : ZMod p) (h : x ≠ x2) :
    curve.slope x x2 y y2 * (x - x2) = y - y2 := by
  rw [WeierstrassCurve.Affine.slope_of_X_ne h, div_mul_cancel₀ _ (sub_ne_zero.2 h)]

/-! The point functions on triples and pairs that denote points (R195). -/

theorem cast_z_ne_zero {P : Jac} (hP : P.reduced) (hz : P.z ≠ 0) : (P.z : ZMod p) ≠ 0 :=
  (cast_eq_zero_iff hP.2.2).not.2 hz

/-- A finite triple of the curve has Y ≠ 0 (R197). -/
theorem denotes_y_ne_zero {P : Jac} {A : curve.Point} (hP : P.reduced) (hA : P.Denotes A) (hz : P.z ≠ 0) :
    P.y ≠ 0 := by
  cases A with
  | zero => exact absurd hA hz
  | some x y h =>
    obtain ⟨-, -, hy⟩ := hA
    refine (cast_eq_zero_iff hP.2.1).not.1 ?_
    rw [hy]
    exact mul_ne_zero (curve_y_ne_zero h.1) (pow_ne_zero 3 (cast_z_ne_zero hP hz))

/-- Doubling on the curve (R195). -/
theorem dbl_denotes {P : Jac} {A : curve.Point} (hP : P.reduced) (hA : P.Denotes A) : (dbl P).Denotes (A + A) := by
  cases A with
  | zero => exact (dbl_z_eq_zero_iff hP).2 (.inl hA)
  | some x y h =>
    have hPy := denotes_y_ne_zero hP hA hA.1
    obtain ⟨hz, hx, hy⟩ := hA
    obtain ⟨hfx, hfy, hfz⟩ := cast_dbl hP hz hPy
    obtain ⟨htx, hty⟩ := dbl_formula_eq_tangent (z := (P.z : ZMod p)) (curve_slope_self h.1)
    rw [WeierstrassCurve.Affine.Point.add_self_of_Y_ne (curve_y_ne_negY h.1)]
    refine ⟨dbl_z_ne_zero hP hz hPy, ?_, ?_⟩
    · rw [hfx, hx, hy, htx, curve_addX, hfz, hy]
    · rw [hfy, hx, hy, hty, curve_addY, hfz, hy]

section Addition

variable {P : Jac} {Q : Aff} {x y x2 y2 : ZMod p} {h : curve.Nonsingular x y} {h2 : curve.Nonsingular x2 y2}

/-- `H = 0` means that the two affine x-coordinates are equal (R192). -/
theorem maddH_eq_zero_iff (hP : P.reduced) (hA : P.Denotes (.some x y h)) (hB : Q.Denotes (.some x2 y2 h2)) :
    maddH P Q = 0 ↔ x = x2 := by
  obtain ⟨hz, hx, -⟩ := hA
  have hz2 := pow_ne_zero 2 (cast_z_ne_zero hP hz)
  rw [← cast_eq_zero_iff (maddH_lt P Q), cast_maddH hP, hx, hB.1, ← sub_mul, mul_eq_zero, or_iff_left hz2, sub_eq_zero,
    eq_comm]

/-- `R = 0` means that the two affine y-coordinates are equal (R192). -/
theorem maddR_eq_zero_iff (hP : P.reduced) (hA : P.Denotes (.some x y h)) (hB : Q.Denotes (.some x2 y2 h2)) :
    maddR P Q = 0 ↔ y = y2 := by
  obtain ⟨hz, -, hy⟩ := hA
  have hz3 := pow_ne_zero 3 (cast_z_ne_zero hP hz)
  rw [← cast_eq_zero_iff (maddR_lt P Q), cast_maddR hP, hy, hB.2, ← sub_mul, mul_eq_zero, or_iff_left hz3, sub_eq_zero,
    eq_comm]

end Addition

/-- Adding a point to itself is doubling, in the same triple (R195). -/
theorem madd_eq_dbl_of_denotes {P : Jac} {Q : Aff} {A : curve.Point} (hP : P.reduced) (hA : P.Denotes A)
    (hQ : Q.Denotes A) : madd P Q = dbl P := by
  cases A with
  | zero => exact hQ.elim
  | some x y h => exact madd_eq_dbl hA.1 ((maddH_eq_zero_iff hP hA hQ).2 rfl) ((maddR_eq_zero_iff hP hA hQ).2 rfl)

/-- Points with the same x are equal or opposite, and each branch of `madd` with H = 0 answers for one of the two. -/
theorem point_of_maddH_eq_zero {P : Jac} {Q : Aff} {A B : curve.Point} (hP : P.reduced) (hA : P.Denotes A)
    (hB : Q.Denotes B) (hz : P.z ≠ 0) (hH : maddH P Q = 0) :
    (maddR P Q = 0 ∧ A = B) ∨ (maddR P Q ≠ 0 ∧ A = -B) := by
  cases A with
  | zero => exact absurd hA hz
  | some x y h =>
    cases B with
    | zero => exact hB.elim
    | some x2 y2 h2 =>
      have hxx := (maddH_eq_zero_iff hP hA hB).1 hH
      subst hxx
      have hR := maddR_eq_zero_iff hP hA hB
      by_cases hyy : y = y2
      · subst hyy
        exact .inl ⟨hR.2 rfl, rfl⟩
      · refine .inr ⟨hR.not.2 hyy, ?_⟩
        exact (WeierstrassCurve.Affine.Point.X_eq_iff.1 rfl).resolve_left (by simpa using hyy)

/-- Adding points with different x (R195). -/
theorem madd_denotes_of_maddH_ne_zero {P : Jac} {Q : Aff} {A B : curve.Point} (hP : P.reduced) (hA : P.Denotes A)
    (hB : Q.Denotes B) (hz : P.z ≠ 0) (hH : maddH P Q ≠ 0) : (madd P Q).Denotes (A + B) := by
  cases A with
  | zero => exact absurd hA hz
  | some x y h =>
    cases B with
    | zero => exact hB.elim
    | some x2 y2 h2 =>
      have hxx := (maddH_eq_zero_iff hP hA hB).not.1 hH
      obtain ⟨-, hx, hy⟩ := hA
      obtain ⟨hfx, hfy, hfz, hne⟩ := cast_madd hP hz hH
      obtain ⟨hcx, hcy⟩ := madd_formula_eq_chord (z := (P.z : ZMod p)) (curve_slope_of_ne y y2 hxx)
      rw [cast_maddH hP, cast_maddR hP, hx, hy, hB.1, hB.2] at hfx hfy
      rw [cast_maddH hP, hx, hB.1] at hfz
      rw [WeierstrassCurve.Affine.Point.add_of_X_ne hxx]
      refine ⟨hne, ?_, ?_⟩
      · rw [hfx, hcx, curve_addX, hfz]
      · rw [hfy, hcy, curve_addY, hfz]

/-- Adding on the curve (R195). -/
theorem madd_denotes {P : Jac} {Q : Aff} {A B : curve.Point} (hP : P.reduced) (hA : P.Denotes A) (hB : Q.Denotes B) :
    (madd P Q).Denotes (A + B) := by
  by_cases hz : P.z = 0
  · rw [madd_of_infinite hz, eq_zero_of_denotes hA hz, zero_add]
    exact denotes_of_z_eq_one hB
  · by_cases hH : maddH P Q = 0
    · rcases point_of_maddH_eq_zero hP hA hB hz hH with ⟨hR, rfl⟩ | ⟨hR, rfl⟩
      · rw [madd_eq_dbl hz hH hR]
        exact dbl_denotes hP hA
      · rw [madd_eq_inf hz hH hR, neg_add_cancel]
        exact rfl
    · exact madd_denotes_of_maddH_ne_zero hP hA hB hz hH

end GroupLaw

/-- Settles O55: the formulas are the tangent and the chord, and points with the same x are equal or opposite. -/
theorem pointFunctionsAreTheGroupLaw : Obligations.PointFunctionsAreTheGroupLaw := by
  intro _
  exact ⟨fun P A hP hA => dbl_denotes hP hA, fun P Q A B hP _ hA hB => madd_denotes hP hA hB,
    fun P Q A hP _ hA hQ => madd_eq_dbl_of_denotes hP hA hQ⟩

/-- Settles O56: −7 is no cube modulo p, and a sum is infinite only for opposite points. -/
theorem degenerateResultsOnTheCurve : Obligations.DegenerateResultsOnTheCurve := by
  intro _
  refine ⟨fun Q B hQ hB => ?_, fun P A hP hA hz => ?_, fun P Q A B hP _ hA hB hz => ⟨fun h0 => ?_, fun hH hR => ?_⟩⟩
  · exact denotes_y_ne_zero (P := ⟨Q.x, Q.y, 1⟩) ⟨hQ.1, hQ.2, p_prime.one_lt⟩ (denotes_of_z_eq_one hB) one_ne_zero
  · have hy := denotes_y_ne_zero hP hA hz
    exact ⟨hy, dbl_z_ne_zero hP hz hy⟩
  · exact eq_neg_of_add_eq_zero_left (eq_zero_of_denotes (madd_denotes hP hA hB) h0)
  · rcases point_of_maddH_eq_zero hP hA hB hz hH with ⟨-, hAB⟩ | ⟨hne, -⟩
    · exact hAB
    · exact absurd hR hne

end Sys2Proof.Machine
end

section
/-! SUPPORT. The generator multiplier: the table holds the multiples of G, `mulg` is the scalar multiple, and none of its
additions is exceptional, because G has the prime order n (spec/44_scalar_mult.md R210 to R214). -/

namespace Sys2Proof.Machine

/-! Every value of the loop is reduced (R164). -/

theorem gen_reduced : gen.reduced := ⟨by decide +kernel, by decide +kernel⟩

theorem genMultiple_reduced : ∀ b, (genMultiple b).reduced
  | 0 => inf_reduced
  | _ + 1 => madd_reduced _ gen_reduced

theorem toAffine_reduced (P : Jac) : (toAffine P).reduced := ⟨fmul_lt _ _, fmul_lt _ _⟩

theorem dblTimes_reduced {P : Jac} (hP : P.reduced) (k : Nat) : (dblTimes k P).reduced := by
  induction k generalizing P with
  | zero => exact hP
  | succ k ih => exact ih (dbl_reduced P)

/-- ROMT has an entry in the slots 1 to 255 and in no other (R33). -/
theorem romT_eq_some_iff {b : Nat} {Q : Aff} :
    romT b = some Q ↔ 1 ≤ b ∧ b ≤ 255 ∧ toAffine (genMultiple b) = Q := by
  simp [romT, and_assoc]

theorem romT_reduced {b : Nat} {Q : Aff} (h : romT b = some Q) : Q.reduced := by
  obtain ⟨-, -, rfl⟩ := romT_eq_some_iff.1 h
  exact toAffine_reduced _

@[simp] theorem addEntry_zero (P : Jac) : addEntry P 0 = P := rfl

theorem addEntry_of_some {b : Nat} {Q : Aff} (h : romT b = some Q) (P : Jac) : addEntry P b = madd P Q := by
  rw [addEntry, h]

theorem addEntry_of_none {b : Nat} (h : romT b = none) (P : Jac) : addEntry P b = P := by
  rw [addEntry, h]

theorem addEntry_reduced {P : Jac} (hP : P.reduced) (b : Nat) : (addEntry P b).reduced := by
  cases h : romT b with
  | none => exact (addEntry_of_none h P).symm ▸ hP
  | some Q => exact (addEntry_of_some h P).symm ▸ madd_reduced P (romT_reduced h)

theorem mulgAcc_reduced (k : Nat) : ∀ i, (mulgAcc k i).reduced
  | 0 => dblTimes_reduced inf_reduced 8
  | i + 1 => dblTimes_reduced (addEntry_reduced (mulgAcc_reduced k i) _) 8

/-- The last of the 32 rounds gives the result. -/
theorem mulg_eq_addEntry (k : Nat) : mulg k = addEntry (mulgAcc k 31) (scalarByte k 0) := rfl

theorem mulg_reduced (k : Nat) : (mulg k).reduced := addEntry_reduced (mulgAcc_reduced k 31) _

/-! Scalars of one byte (R212). -/

theorem scalarByte_lt (k j : Nat) : scalarByte k j < 256 := Nat.mod_lt _ (by decide)

theorem scalarByte_zero (k : Nat) : scalarByte k 0 = k % 256 := by rw [scalarByte, pow_zero, Nat.div_one]

/-- The bytes of a one-byte scalar above byte 0 are 0. -/
theorem scalarByte_of_lt {k j : Nat} (hk : k < 256) (hj : j ≠ 0) : scalarByte k j = 0 := by
  rw [scalarByte, Nat.div_eq_of_lt (hk.trans_le (Nat.le_self_pow hj 256)), Nat.zero_mod]

/-- The loop adds nothing before the last byte of a one-byte scalar. -/
theorem mulgAcc_eq_inf {k i : Nat} (hk : k < 256) (hi : i ≤ 31) : mulgAcc k i = inf := by
  induction i with
  | zero => rfl
  | succ i ih =>
    rw [mulgAcc, ih (by omega), scalarByte_of_lt hk (by omega), addEntry_zero]
    rfl

theorem mulg_of_lt {k : Nat} (hk : k < 256) : mulg k = addEntry inf k := by
  rw [mulg_eq_addEntry, mulgAcc_eq_inf hk le_rfl, scalarByte_zero, Nat.mod_eq_of_lt hk]

/-- A one-byte scalar that is not 0 gives its table entry with Z = 1. -/
theorem mulg_eq_entry {k : Nat} (h1 : 1 ≤ k) (h2 : k ≤ 255) : ∃ Q, romT k = some Q ∧ mulg k = ⟨Q.x, Q.y, 1⟩ := by
  have hQ := romT_eq_some_iff.2 ⟨h1, h2, rfl⟩
  exact ⟨_, hQ, by rw [mulg_of_lt (by omega), addEntry_of_some hQ, madd_of_infinite rfl]⟩

/-- Settles O52: `mulg` gives field elements, which a register triple holds unchanged. -/
theorem pmulgMultipliesTheGenerator : Obligations.PmulgMultipliesTheGenerator := by
  have hwf {rd rs1 : Reg} (hd : rd.val ≤ 13) : (Instr.pmulg rd rs1).wf = true := Reg.jacBase_iff.2 hd
  refine ⟨fun w h => ?_, fun rd rs1 s hd hlt => ?_, fun rd rs1 s hd hge herr => ?_⟩
  · exact decode_of_opcode h rfl rfl
      (by simp [zerosClear_iff, extractLsb'_rs2_rsv_imm_eq_zero, Instr.wf, Reg.jacBase_iff, and_assoc])
  · have hx := exec_eq_accept_none (i := .pmulg rd rs1) rfl (List.forall_mem_singleton.2 hlt)
    obtain ⟨t, u, ht, hst, hc, hk, hf, hval, hred⟩ := exec_runs_toJac hx (hwf hd) (mulg_reduced _)
    refine ⟨t, u, ht, hst, hc, hk, hf, hval, hred, fun h0 => ?_, fun h1 h2 => ?_⟩
    · rw [hval, h0, mulg_of_lt (by decide), addEntry_zero]
      rfl
    · rw [hval]
      exact mulg_eq_entry h1 h2
  · exact exec_range rfl (hwf hd) herr ((s.outOfRange_singleton n rs1).trans (if_pos hge))

/-! The affine form of a triple, and the table (R211). -/

/-- The power by p − 2 is the inverse modulo the prime p. -/
theorem mul_cast_fieldInverse {a : Nat} (h0 : a ≠ 0) (ha : a < p) : (a : ZMod p) * fieldInverse a = 1 := by
  have hinv := mul_pow_sub_two_mod p_prime (Nat.coprime_of_lt_prime h0 ha p_prime).symm
  rw [← fixedPow_one p_prime.one_lt (by decide +kernel : p - 2 < 2 ^ 256)] at hinv
  rw [← Nat.cast_mul, ← ZMod.natCast_mod]
  exact (congrArg Nat.cast hinv).trans Nat.cast_one

/-- A finite triple and its affine form denote the same point. -/
theorem toAffine_denotes {P : Jac} {A : curve.Point} (hP : P.reduced) (hA : P.Denotes A) (hz : P.z ≠ 0) :
    (toAffine P).Denotes A := by
  have hzi := mul_cast_fieldInverse hz hP.2.2
  cases A with
  | zero => exact absurd hA hz
  | some x y h =>
    obtain ⟨-, hx, hy⟩ := hA
    constructor
    · rw [toAffine, cast_fmul, cast_fsqr, hx, mul_assoc, ← mul_pow, hzi, one_pow, mul_one]
    · rw [toAffine, cast_fmul, cast_fmul, cast_fsqr, hy, ← pow_succ, mul_assoc, ← mul_pow, hzi, one_pow, mul_one]

/-- The generator is a point of the curve (R4). -/
theorem exists_gen_denotes : ∃ G : curve.Point, gen.Denotes G := by
  have hnat : ((gy ^ 2 : Nat) : ZMod p) = (gx ^ 3 + 7 : Nat) := by
    rw [ZMod.natCast_eq_natCast_iff]
    decide +kernel
  have heq : curve.Equation (gx : ZMod p) (gy : ZMod p) := curve_equation_iff.2 (mod_cast hnat)
  have hns := (WeierstrassCurve.Affine.nonsingular_iff ..).2 ⟨heq, .inr (curve_y_ne_negY heq)⟩
  exact ⟨.some _ _ hns, rfl, rfl⟩

/-- None of the triples behind the table is infinite. -/
theorem genMultiple_z_ne_zero {b : Nat} (h1 : 1 ≤ b) (h2 : b ≤ 255) : (genMultiple b).z ≠ 0 := by
  have hall : ∀ c < 255, (genMultiple (c + 1)).z ≠ 0 := by decide +kernel
  rw [← Nat.sub_add_cancel h1]
  exact hall (b - 1) (by omega)

/-- One round takes the top bytes of the scalar down by one byte. -/
theorem top_bytes_add_scalarByte (k j : Nat) : 256 * (k / 256 ^ (j + 1)) + scalarByte k j = k / 256 ^ j := by
  rw [pow_succ, ← Nat.div_div_eq_div_mul]
  exact Nat.div_add_mod _ _

section Multiples

variable [Fact p.Prime]

theorem dblTimes_denotes {P : Jac} {A : curve.Point} (hP : P.reduced) (hA : P.Denotes A) (k : Nat) :
    (dblTimes k P).Denotes (2 ^ k • A) := by
  induction k generalizing P A with
  | zero => rwa [pow_zero, one_nsmul]
  | succ k ih =>
    rw [pow_succ, mul_nsmul', two_nsmul]
    exact ih (dbl_reduced P) (dbl_denotes hP hA)

variable {G : curve.Point} (hG : gen.Denotes G)
include hG

theorem genMultiple_denotes (b : Nat) : (genMultiple b).Denotes (b • G) := by
  induction b with
  | zero =>
    rw [zero_nsmul]
    rfl
  | succ b ih =>
    rw [succ_nsmul]
    exact madd_denotes (genMultiple_reduced b) ih hG

theorem romT_denotes {b : Nat} {Q : Aff} (h : romT b = some Q) : Q.Denotes (b • G) := by
  obtain ⟨h1, h2, rfl⟩ := romT_eq_some_iff.1 h
  exact toAffine_denotes (genMultiple_reduced b) (genMultiple_denotes hG b) (genMultiple_z_ne_zero h1 h2)

/-- The addition of a byte's entry adds that multiple of G, also for the byte 0, which has no entry. -/
theorem addEntry_denotes {P : Jac} {A : curve.Point} (hP : P.reduced) (hA : P.Denotes A) {b : Nat} (hb : b < 256) :
    (addEntry P b).Denotes (A + b • G) := by
  rcases Nat.eq_zero_or_pos b with rfl | hpos
  · rwa [addEntry_zero, zero_nsmul, add_zero]
  · have hQ := romT_eq_some_iff.2 ⟨hpos, Nat.le_of_lt_succ hb, rfl⟩
    rw [addEntry_of_some hQ]
    exact madd_denotes hP hA (romT_denotes hG hQ)

/-- The accumulator of round i is the multiple by the i bytes before, moved up by one byte (R210). -/
theorem mulgAcc_denotes {k i : Nat} (hk : k < 2 ^ 256) (hi : i ≤ 31) :
    (mulgAcc k i).Denotes ((256 * (k / 256 ^ (31 - i + 1))) • G) := by
  induction i with
  | zero =>
    rw [Nat.div_eq_of_lt (hk.trans_le (by decide)), mul_zero, zero_nsmul]
    rfl
  | succ i ih =>
    have hround := addEntry_denotes hG (mulgAcc_reduced k i) (ih (by omega)) (scalarByte_lt k (31 - i))
    rw [← add_nsmul, top_bytes_add_scalarByte] at hround
    rw [show 31 - (i + 1) + 1 = 31 - i by omega, mul_comm, mul_nsmul]
    exact dblTimes_denotes (addEntry_reduced (mulgAcc_reduced k i) _) hround 8

theorem mulg_denotes {k : Nat} (hk : k < 2 ^ 256) : (mulg k).Denotes (k • G) := by
  have hlast := addEntry_denotes hG (mulgAcc_reduced k 31) (mulgAcc_denotes hG hk le_rfl) (scalarByte_lt k 0)
  rwa [← add_nsmul, top_bytes_add_scalarByte, pow_zero, Nat.div_one, ← mulg_eq_addEntry] at hlast

/-! The order of the generator (K6). -/

theorem nsmul_eq_zero_of_mulg_z_eq_zero {k : Nat} (hk : k < 2 ^ 256) (hz : (mulg k).z = 0) : k • G = 0 :=
  eq_zero_of_denotes (mulg_denotes hG hk) hz

/-- The order of G is the prime n: the loop of the model, run on n itself, ends at infinity. -/
theorem addOrderOf_generator : addOrderOf G = n := by
  have hn : n • G = 0 := nsmul_eq_zero_of_mulg_z_eq_zero hG n_lt (by decide +kernel)
  have : Fact n.Prime := ⟨n_prime⟩
  refine addOrderOf_eq_prime hn ?_
  rintro rfl
  exact hG

/-- In a round of a scalar below n the accumulator is neither the entry's point nor its negative: the difference and
the sum of the two factors are no multiples of n (R213). -/
theorem maddH_mulgAcc_ne_zero {k i : Nat} {Q : Aff} (hk : k < n) (hi : i ≤ 31)
    (hQ : romT (scalarByte k (31 - i)) = some Q) (hz : (mulgAcc k i).z ≠ 0) : maddH (mulgAcc k i) Q ≠ 0 := by
  intro hH
  have hsum := top_bytes_add_scalarByte k (31 - i)
  have hle := Nat.div_le_self k (256 ^ (31 - i))
  obtain ⟨hpos, hbyte, -⟩ := romT_eq_some_iff.1 hQ
  rcases point_of_maddH_eq_zero (mulgAcc_reduced k i) (mulgAcc_denotes hG (hk.trans n_lt) hi) (romT_denotes hG hQ) hz hH
    with ⟨-, heq⟩ | ⟨-, hneg⟩
  · rw [nsmul_eq_nsmul_iff_modEq, addOrderOf_generator hG] at heq
    have := heq.eq_of_lt_of_lt (by omega) (by omega)
    omega
  · rw [eq_neg_iff_add_eq_zero, ← add_nsmul, hsum, ← addOrderOf_dvd_iff_nsmul_eq_zero, addOrderOf_generator hG] at hneg
    have := Nat.le_of_dvd (by omega) hneg
    omega

end Multiples

/-- Settles O57: the triple behind a slot denotes b·G and is finite, so its affine form denotes b·G too. -/
theorem tableHoldsTheMultiplesOfG : Obligations.TableHoldsTheMultiplesOfG := by
  refine ⟨rfl, fun G hG b h1 h2 => ?_⟩
  have hQ := romT_eq_some_iff.2 ⟨h1, h2, rfl⟩
  exact ⟨_, hQ, romT_reduced hQ, romT_denotes hG hQ⟩

/-- Settles O58: each round multiplies by 256 and adds one byte, so the accumulators are the top bytes of k times G. -/
theorem mulgIsTheScalarMultiple : Obligations.MulgIsTheScalarMultiple :=
  fun _ hG _ hk => mulg_denotes hG (hk.trans n_lt)

/-- Settles O59: G has order n, so a finite accumulator differs from the entry's point and from its negative. -/
theorem noExceptionalAdditionInMulg : Obligations.NoExceptionalAdditionInMulg := by
  have : Fact p.Prime := ⟨p_prime⟩
  obtain ⟨G, hG⟩ := exists_gen_denotes
  refine ⟨mulg_eq_addEntry, fun k i hk hi Q hQ => or_iff_not_imp_left.2 fun hz => ?_⟩
  exact maddH_mulgAcc_ne_zero hG hk (Nat.le_of_lt_succ hi) hQ hz

end Sys2Proof.Machine
end

section
/-! SUPPORT. The data-movement commands (spec/45_move.md R230 to R234): the entries of the constant ROM, the run of a
command that writes an affine pair, and the uninitialised read of a command that is presented (spec/10_state.md R40). -/

namespace Sys2Proof.Machine

/-! The must-be-zero slices of the commands with one operand register or none (R90). -/

theorem extractLsb'_all_fields_eq_zero {w : Word} :
    w.extractLsb' 0 24 = 0#24 ↔ rsvField w = 0 ∧ rdField w = 0 ∧ rs1Field w = 0 ∧ rs2Field w = 0 ∧ immField w = 0 := by
  simp only [← BitVec.toNat_inj, ← Fin.val_inj, BitVec.extractLsb'_toNat, Nat.shiftRight_eq_div_pow, rdField, rs1Field,
    rs2Field, rsvField, immField, Fin.ofNat, BitVec.toNat_ofNat, BitVec.ofNat_eq_ofNat, Fin.val_zero]
  omega

theorem extractLsb'_rs1_rs2_rsv_eq_zero {w : Word} :
    w.extractLsb' 8 12 = 0#12 ↔ rsvField w = 0 ∧ rs1Field w = 0 ∧ rs2Field w = 0 := by
  simp only [← BitVec.toNat_inj, ← Fin.val_inj, BitVec.extractLsb'_toNat, Nat.shiftRight_eq_div_pow, rs1Field, rs2Field,
    rsvField, Fin.ofNat, BitVec.toNat_ofNat, Fin.val_zero]
  omega

/-! NOP, MOV and LDI (R230 to R232). -/

/-- A command that a ready engine decodes reads every operand register, so the first without a value is the
uninitialised read. -/
theorem State.uninitRead_cmdWrite {s : State} {w : Word} {i : Instr} {rest : List Input} (hready : s.ready)
    (hin : s.inputs = cmdWrite w :: rest) (hd : decode w = .ok i) :
    s.uninitRead = (sources i).find? (fun r => !s.hasValue r) := by
  obtain ⟨hidle, herr⟩ := hready
  have hin' : s.inputs = .host (.write cmdOffset 4 w) :: rest := hin
  simp [State.uninitRead, hin', hd, State.busy_of_idle hidle, herr]

theorem toNat_immValue (imm : BitVec 8) : (immValue imm).toNat = imm.toNat :=
  BitVec.toNat_setWidth_of_le (by decide)

/-- Settles O34: what is written is the operand's value or the immediate, and none of the three writes a flag. -/
theorem nopMovLdi : Obligations.NopMovLdi := by
  refine ⟨fun w h => ?_, fun s => ?_, fun w h => ?_, fun rd rs1 s => ?_, fun rd rs1 s rest hready hin hval => ?_,
    fun w h => ?_, fun rd imm s => ?_⟩
  · exact decode_of_opcode h rfl rfl (by simp [zerosClear_iff, extractLsb'_all_fields_eq_zero, Instr.wf])
  · obtain ⟨t, hx, hst, hc⟩ := exec_runs (i := .nop) (s := s) rfl rfl
    exact ⟨t, _, hx, hst, hc, keepsAllBut_finished s _ rfl, rfl⟩
  · exact decode_of_opcode h rfl rfl (by simp [zerosClear_iff, extractLsb'_rs2_rsv_imm_eq_zero, Instr.wf])
  · exact exec_runs_toReg (i := .mov rd rs1) rfl rfl
  · rw [State.uninitRead_cmdWrite hready hin (decode_encode rfl)]
    simp [sources, hval]
  · exact decode_of_opcode h rfl rfl (by simp [zerosClear_iff, extractLsb'_rs1_rs2_rsv_eq_zero, Instr.wf])
  · obtain ⟨t, u, hx, hst, hc, hk, hf, hv⟩ := exec_runs_toReg (i := .ldi rd imm) (s := s) rfl rfl
    exact ⟨t, u, hx, hst, hc, hk, hf, by rw [hv, toNat_immValue]⟩

/-! LDK (R233). -/

/-- The constant ROM as numbers, at every index (R34). -/
theorem romK_map_toNat (k : Nat) :
    (romK k).map BitVec.toNat = [2 ^ 256 - 2 ^ 32 - 977, n, gx, gy, 7][k]? := by
  match k with
  | 0 | 1 | 2 | 3 | 4 => decide +kernel
  | _ + 5 => rfl

theorem exists_romK {k : Nat} (h : k ≤ 4) : ∃ v, romK k = some v := by
  interval_cases k <;> exact ⟨_, rfl⟩

theorem exec_ldk_of_romK {rd : Reg} {imm : BitVec 8} {v : W256} (h : romK imm.toNat = some v) (s : State) :
    exec (.ldk rd imm) s = accept (.ldk rd imm) none ⟨toReg rd v, .keep⟩ s := by
  rw [exec, execLdk, h, romWrites]

/-! LDT (R234). -/

theorem exec_ldt_of_romT {rd : Reg} {imm : BitVec 8} {Q : Aff} (h : romT imm.toNat = some Q) (s : State) :
    exec (.ldt rd imm) s = accept (.ldt rd imm) none ⟨toAff rd Q, .keep⟩ s := by
  rw [exec, execLdt, h, romWrites]

/-- A field element written once fits its register, which then holds it. -/
theorem State.toNat_reg_setRegs {ws : List (Reg × W256)} (s : State) {r : Reg} {v : Nat}
    (hm : (r, BitVec.ofNat 256 v) ∈ ws) (hn : (ws.map Prod.fst).Nodup) (hv : v < p) :
    ((s.setRegs ws).reg r).toNat = v := by
  rw [State.reg_setRegs_of_mem ws s hm hn, BitVec.toNat_ofNat, Nat.mod_eq_of_lt (hv.trans p_lt)]

/-- An affine pair of field elements that was written reads back (R11). -/
theorem State.aff_setRegs_toAff (s : State) (b : Reg) {Q : Aff} (hQ : Q.reduced) :
    (s.setRegs (toAff b Q)).aff b = Q := by
  obtain ⟨hx, hy⟩ := hQ
  have hn : ((toAff b Q).map Prod.fst).Nodup := by simp [toAff, eq_comm]
  rw [State.aff, s.toNat_reg_setRegs (by simp [toAff]) hn hx, s.toNat_reg_setRegs (by simp [toAff]) hn hy]

/-- A command that writes one affine pair, run to its completion. -/
theorem exec_runs_toAff {i : Instr} {rd : Reg} {Q : Aff} {fw : FlagWrite} {s : State}
    (hx : exec i s = accept i none ⟨toAff rd Q, fw⟩ s) (hw : i.wf = true) (hQ : Q.reduced) :
    ∃ t u, exec i s = .next t ∧ Started i s t ∧ t.complete = u ∧ KeepsAllBut [rd, rd + 1] s u ∧
      u.flags = fw.apply s.flags ∧ u.aff rd = Q := by
  obtain ⟨t, ht, hst, hc⟩ := exec_runs hx hw
  exact ⟨t, _, ht, hst, hc, keepsAllBut_finished s _ rfl, rfl, State.aff_setRegs_toAff s rd hQ⟩

/-- Settles O35: an index that a legal word may carry has an entry, which the destination then holds. -/
theorem ldkLdt : Obligations.LdkLdt := by
  refine ⟨fun w h => ?_, fun rd imm s hle => ?_, fun w h => ?_, fun rd imm s h1 hd => ?_⟩
  · exact decode_of_opcode h rfl rfl
      (by simp [zerosClear_iff, extractLsb'_rs1_rs2_rsv_eq_zero, Instr.wf])
  · obtain ⟨v, hv⟩ := exists_romK hle
    obtain ⟨t, u, hx, hst, hc, hk, hf, hreg⟩ := exec_runs_toReg (exec_ldk_of_romK hv s) (decide_eq_true hle)
    exact ⟨t, u, hx, hst, hc, hk, hf, by rw [hreg, ← romK_map_toNat, hv, Option.map_some]⟩
  · exact decode_of_opcode h rfl rfl
      (by simp [zerosClear_iff, extractLsb'_rs1_rs2_rsv_eq_zero, Instr.wf, Reg.affBase_iff, and_assoc])
  · have hQ := romT_eq_some_iff.2 ⟨h1, Nat.le_of_lt_succ imm.isLt, rfl⟩
    have hw : (Instr.ldt rd imm).wf = true := by simp [Instr.wf, Reg.affBase_iff, h1, hd]
    obtain ⟨t, u, hx, hst, hc, hk, hf, haff⟩ := exec_runs_toAff (exec_ldt_of_romT hQ s) hw (romT_reduced hQ)
    exact ⟨t, u, hx, hst, hc, hk, hf, by rw [hQ, ← haff, State.aff]⟩

end Sys2Proof.Machine
end

section
/-! SUPPORT. The outcomes of a CMD write, one for each line of the order of priority (spec/60_exceptions.md R250,
R262), and the outcome of a legal command's range check (R256). -/

namespace Sys2Proof.Machine

/-! The step of a CMD write. -/

/-- While BUSY the write is an overrun (R258). -/
theorem step_cmdWrite_of_busy {s : State} {w : Word} {rest : List Input} (hb : s.busy = true)
    (hin : s.inputs = cmdWrite w :: rest) : step s = .next ((s.acked rest).overrun cmdOffset) := by
  rw [step_cmdWrite hin]
  simp [presentCommand, hb]

/-- While in error and IDLE the write is discarded (R260). -/
theorem step_cmdWrite_of_err {s : State} {w : Word} {rest : List Input} (hb : s.busy = false) (he : s.err = true)
    (hin : s.inputs = cmdWrite w :: rest) : step s = .next (s.acked rest) := by
  rw [step_cmdWrite hin]
  simp [presentCommand, hb, he]

/-- A ready engine aborts a word that is no command, under the decoder's code (R252 to R255). -/
theorem step_cmdWrite_of_decode_error {s : State} {w : Word} {rest : List Input} {e : DecodeError} (hs : s.ready)
    (hin : s.inputs = cmdWrite w :: rest) (hd : decode w = .error e) :
    step s = .next (Aborted (decodeErrorCode e) 0 w (s.acked rest)) := by
  obtain ⟨hidle, herr⟩ := hs
  rw [step_cmdWrite hin]
  simp [presentCommand, hidle, herr, hd, State.abort_of_not_err]

/-- Settles O6: a ready engine passes the first two tests of `presentCommand`. -/
theorem stepRunsTheDecodedCommand : Obligations.StepRunsTheDecodedCommand := by
  intro s w i rest ⟨hidle, herr⟩ hin hd
  rw [step_cmdWrite hin]
  simp [presentCommand, hidle, herr, hd, State.acked]

/-- Settles O7: the decoder rejects the words by name (O4), and each of the five examples evaluates to ILLEGAL_FIELD. -/
theorem illegalWordsAreAborted : Obligations.IllegalWordsAreAborted := by
  obtain ⟨hopcode, hfield, hcount, -⟩ := rejectedWordsAreRejectedByName
  refine ⟨hcount, fun s w rest hs hin => ⟨fun h => ?_, fun h => ?_⟩⟩
  · exact step_cmdWrite_of_decode_error hs hin ((hopcode w).2 h)
  · refine step_cmdWrite_of_decode_error (e := .illegalField) hs hin ?_
    rcases h with h | rfl | rfl | rfl | rfl | rfl
    · exact (hfield w).2 h
    all_goals rfl

/-! The range check (R256). -/

theorem exec_of_outOfRange {i : Instr} {s : State} {r : Reg} (hw : i.wf = true) (he : s.err = false)
    (hr : firstOutOfRange i s = some r) : exec i s = .next (Aborted .range r (encode i) s) := by
  rcases exec_cases hw s with ⟨_, hn, -, -, -⟩ | ⟨q, hq, hx⟩
  · cases hr.symm.trans hn
  · cases hr.symm.trans hq
    rw [hx, State.abort_of_not_err he]

theorem exec_of_inRange {i : Instr} {s : State} (hw : i.wf = true) (hr : firstOutOfRange i s = none) :
    ∃ t, exec i s = .next t ∧ Started i s t := by
  rcases exec_cases hw s with ⟨res, -, -, -, hx⟩ | ⟨q, hq, -⟩
  · exact ⟨_, hx, res, rfl⟩
  · cases hr.symm.trans hq

/-- Settles O8: the check's answer decides between the two outcomes of a legal command. -/
theorem rangeNamesTheFirstOperandOutOfBounds : Obligations.RangeNamesTheFirstOperandOutOfBounds := by
  intro i s hw he
  cases hr : firstOutOfRange i s with
  | some r => exact exec_of_outOfRange hw he hr
  | none => exact exec_of_inRange hw hr

/-- The check looks at register values only, which taking a write from the inputs leaves. -/
theorem firstOutOfRange_acked (i : Instr) (s : State) (rest : List Input) :
    firstOutOfRange i (s.acked rest) = firstOutOfRange i s := rfl

/-- Settles O9: the tests of R250 in their order; the recorded word of a RANGE abort is the one that was written. -/
theorem cmdWriteHasOneOutcome : Obligations.CmdWriteHasOneOutcome := by
  intro s w rest hin s0
  refine ⟨fun hb => step_cmdWrite_of_busy hb hin, fun hb he => step_cmdWrite_of_err hb he hin, fun hb he => ?_⟩
  have hs : s.ready := ⟨(State.busy_eq_false_iff s).1 hb, he⟩
  rcases hd : decode w with (_ | _) | i
  · exact step_cmdWrite_of_decode_error hs hin hd
  · exact step_cmdWrite_of_decode_error hs hin hd
  · have hw := wf_of_decode hd
    have hstep : step s = exec i (s.acked rest) := stepRunsTheDecodedCommand s w i rest hs hin hd
    dsimp only
    rw [hstep, ← firstOutOfRange_acked i s rest]
    cases hr : firstOutOfRange i (s.acked rest) with
    | some r =>
      have hx := exec_of_outOfRange (s := s.acked rest) hw he hr
      rw [encode_of_decode hd] at hx
      exact hx
    | none => exact exec_of_inRange hw hr

end Sys2Proof.Machine
end

section
/-! SUPPORT. The sticky error: what an overrun records and what it leaves to the running command, the error registers
under every step, and their clearing (spec/60_exceptions.md R257 to R265). -/

namespace Sys2Proof.Machine

/-! OVERRUN (R258). -/

/-- An overrun while in error changes nothing (R257). -/
theorem State.overrun_of_err (s : State) (h : s.err = true) (off : Offset) : s.overrun off = s :=
  State.recordError_of_err h ..

/-- An overrun, field by field: the first error is kept (R257). -/
theorem State.overrun_eq (s : State) (off : Offset) :
    s.overrun off = { s with
      err := true
      errCode := if s.err then s.errCode else .overrun
      errReg := if s.err then s.errReg else 0
      errCmd := if s.err then s.errCmd else off.setWidth 32 } := by
  cases h : s.err with
  | true =>
    rw [State.overrun_of_err s h]
    cases s
    subst h
    rfl
  | false => exact State.recordError_of_not_err h ..

/-- While BUSY a write to CMD or to a W word is an overrun at its own offset (R258). -/
theorem step_overrun {s : State} {off : Offset} {v : Word} {rest : List Input} (hb : s.busy = true)
    (ha : off.toNat % 4 = 0) (hoff : off = 0x00C ∨ (0x100 ≤ off.toNat ∧ off.toNat < 0x300))
    (hin : s.inputs = hostWrite off v :: rest) : step s = .next ((s.acked rest).overrun off) := by
  rcases hoff with rfl | hw
  · exact step_cmdWrite_of_busy hb hin
  · obtain ⟨i, j, hw⟩ := exists_windowReg_eq_w_iff.2 hw
    rw [step_hostWrite ha hin]
    simp [serveWrite, hw, hb]

/-- What a completion writes to W and the flags depends only on them and on what the engine holds (R259). -/
theorem State.complete_congr {s t : State} {f : InFlight} (hs : s.engine = .busy f) (ht : t.engine = .busy f)
    (hw : t.w = s.w) (hv : t.valued = s.valued) (hf : t.flags = s.flags) :
    t.complete.w = s.complete.w ∧ t.complete.flags = s.complete.flags := by
  rw [State.complete_busy hs, State.complete_busy ht]
  exact ⟨(State.setRegs_congr t s _ hw hv).1, congrArg f.result.flags.apply hf⟩

/-- Settles O10: the overrun leaves everything the completion of the running command depends on. -/
theorem overrunDiscardsTheWrite : Obligations.OverrunDiscardsTheWrite := by
  intro s f off rest hbusy ha
  refine ⟨fun v hin hoff => ?_, fun hin hlo hhi => ?_⟩
  · refine ⟨_, step_overrun (State.busy_of_busy hbusy) ha hoff hin, (s.acked rest).overrun_eq off, ?_⟩
    have ht : ((s.acked rest).overrun off).engine = .busy f := (State.recordError_engine ..).trans hbusy
    obtain ⟨hw, hf⟩ := State.complete_congr hbusy ht (State.recordError_w ..) (State.recordError_valued ..)
      (State.recordError_flags ..)
    refine ⟨hw, hf, ?_, ?_⟩ <;> rw [State.complete_busy ht]
    rfl
  · obtain ⟨hread, -, -⟩ := readsWhileBusy s f off rest hbusy ha hin
    exact ⟨_, _, hread hlo hhi, rfl⟩

/-- Settles O11: the CMD write is discarded, the word write is `State.setWord`, which sets its own word only. -/
theorem commandsAreDiscardedInError : Obligations.CommandsAreDiscardedInError := by
  intro s rest hidle herr
  have hb : s.busy = false := State.busy_of_idle hidle
  refine ⟨fun w hin => step_cmdWrite_of_err hb herr hin, fun i j v hin => ?_⟩
  refine ⟨_, step_writeWord hb hin, rfl, ?_, ?_, fun q k hne => ?_⟩
  · rw [State.reg_setWord, if_pos rfl, getWord_putWord_self]
  · rw [State.hasWord_setWord, if_pos ⟨rfl, rfl⟩]
  · rw [State.hasWord_setWord, if_neg (not_and_or.2 hne), State.reg_setWord]
    refine ⟨?_, rfl⟩
    split_ifs with hq
    · subst hq
      exact getWord_putWord_ne _ v (hne.resolve_left (not_not_intro rfl))
    · rfl

/-! The error registers. -/

/-- A completion keeps the recorded error (R259). -/
theorem State.complete_errorRegisters (s : State) :
    s.complete.errCode = s.errCode ∧ s.complete.errReg = s.errReg ∧ s.complete.errCmd = s.errCmd := by
  rcases s.complete_cases with ⟨-, hc⟩ | ⟨f, -, hc⟩ <;> rw [hc]
  · exact ⟨rfl, rfl, rfl⟩
  · simp [State.finished]

/-- Settles O12: while ERR is 1 no step records another error; a CTRL write that leaves ERR at 1 has CLR_ERR = 0. -/
theorem firstErrorIsKept : Obligations.FirstErrorIsKept := by
  intro s t h hs ht
  cases step_cases h with
  | idleOrDrain _ hc => exact hc ▸ s.complete_errorRegisters
  | engineTurn rest _ hc => exact hc ▸ State.complete_errorRegisters { s with inputs := rest }
  | reset _ _ hr =>
    subst hr
    cases ht
  | read off rest _ _ hr =>
    rw [hr, State.serveRead_frame]
    exact ⟨rfl, rfl, rfl⟩
  | ctrlWrite v rest _ hc =>
    subst hc
    rw [State.writeCtrl_eq] at ht ⊢
    have hclr : ¬ v.getLsbD 9 = true := by simpa [hs] using ht
    exact ⟨if_neg hclr, if_neg hclr, if_neg hclr⟩
  | ignoredWrite _ _ _ _ _ _ _ _ ha => exact ha ▸ ⟨rfl, rfl, rfl⟩
  | wordOverrun _ _ _ rest _ _ ho =>
    rw [ho, (s.acked rest).overrun_of_err hs]
    exact ⟨rfl, rfl, rfl⟩
  | wordWrite _ _ _ _ _ _ hw => exact hw ▸ ⟨rfl, rfl, rfl⟩
  | cmdOverrun _ rest _ _ ho =>
    rw [ho, (s.acked rest).overrun_of_err hs]
    exact ⟨rfl, rfl, rfl⟩
  | cmdDiscarded _ _ _ _ _ ha => exact ha ▸ ⟨rfl, rfl, rfl⟩
  | cmdAborted _ _ _ _ _ he => exact absurd (hs.symm.trans he) (by decide)
  | cmdAccepted _ _ _ _ _ he => exact absurd (hs.symm.trans he) (by decide)

/-- Settles O15: the CTRL write clears the error and keeps the engine phase, so an IDLE engine is ready (O6). -/
theorem clearErrorReturns : Obligations.ClearErrorReturns := by
  intro s v rest hin hclr
  obtain ⟨hstep, -⟩ := ctrlTakesBitsAndActs.2 s rest
  refine ⟨_, hstep v hin, ?_⟩
  have herr : (s.err && !(v.getLsbD 9)) = false := by simp [hclr]
  refine ⟨herr, if_pos hclr, if_pos hclr, if_pos hclr, rfl, rfl, rfl, rfl, rfl, fun hidle w i rest' hrest hd => ?_⟩
  exact stepRunsTheDecodedCommand _ w i rest' ⟨hidle, herr⟩ hrest hd

end Sys2Proof.Machine
end

section
/-! SUPPORT. The completion step (spec/60_exceptions.md R259, spec/70_reset_and_hazards.md R292, R294). -/

namespace Sys2Proof.Machine

/-- The engine completes on its turn, and when no input is left (R294, log 3). -/
theorem step_complete {s : State} {rest : List Input}
    (h : s.inputs = .engine :: rest ∨ (s.inputs = [] ∧ rest = [])) :
    step s = .next ({ s with inputs := rest }.complete) := by
  rcases h with h | ⟨h, rfl⟩
  · rw [step, h]
  · have hs : { s with inputs := [] } = s := by rw [← h]
    rw [step, h, hs]

/-- Settles O26: the step is the completion, which leaves the finished state of a legal command. -/
theorem completionIsOneStep : Obligations.CompletionIsOneStep := by
  rintro s f rest hbusy ⟨-, -, hdests, -⟩ hin
  refine ⟨State.finished { s with inputs := rest } f.result, ?_, keepsAllBut_finished _ _ hdests,
    fun r v hm hn => State.reg_setRegs_of_mem _ _ hm hn, rfl⟩
  rw [step_complete hin, State.complete_busy (s := { s with inputs := rest }) hbusy]
  rfl

end Sys2Proof.Machine
end

section
/-! SUPPORT. RESET (spec/70_reset_and_hazards.md R280, R281) and the run to the end of the inputs (R294). -/

namespace Sys2Proof.Machine

theorem step_reset {s : State} {rest : List Input} (h : s.inputs = .reset :: rest) :
    step s = .next { s with inputs := rest }.applyReset := by
  rw [step, h]

/-- Settles O25: the step is `State.applyReset`, which leaves the engine IDLE, with nothing to complete. -/
theorem resetAbandonsTheCommand : Obligations.ResetAbandonsTheCommand := by
  intro s rest hin
  exact ⟨_, step_reset hin, rfl, rfl, rfl, rfl, rfl, rfl, rfl, rfl, rfl, rfl, rfl, State.reset_hasWord,
    State.complete_idle rfl⟩

/-- When no input is left the engine has its turn (R294, log 3). -/
theorem step_of_no_input {s : State} (h : s.inputs = []) : step s = .next s.complete := by
  rw [step, h]

/-- After the engine's turn it is IDLE (R259). -/
theorem State.complete_engine (s : State) : s.complete.engine = .idle := by
  rcases s.complete_cases with ⟨hi, hc⟩ | ⟨f, -, hc⟩ <;> rw [hc]
  · exact hi
  · rfl

/-! The operations of a step leave the inputs that are left. -/

@[simp] theorem State.complete_inputs (s : State) : s.complete.inputs = s.inputs := by
  rcases s.complete_cases with ⟨-, hc⟩ | ⟨f, -, hc⟩ <;> rw [hc]
  simp [State.finished]

@[simp] theorem State.serveRead_inputs (s : State) (off : Offset) : (s.serveRead off).inputs = s.inputs := by
  rw [State.serveRead_frame]

@[simp] theorem State.writeCtrl_inputs (s : State) (v : Word) : (s.writeCtrl v).inputs = s.inputs := by
  rw [State.writeCtrl_eq]

@[simp] theorem State.overrun_inputs (s : State) (off : Offset) : (s.overrun off).inputs = s.inputs :=
  State.recordError_inputs ..

theorem exec_inputs {i : Instr} (hw : i.wf = true) {s t : State} (h : exec i s = .next t) : t.inputs = s.inputs := by
  rcases exec_next_cases hw h with ⟨res, -, -, rfl⟩ | ⟨r, -, rfl⟩
  · rfl
  · exact State.abort_inputs ..

/-- Every step takes the first of the inputs, when there is one (log 3). -/
theorem step_inputs {s t : State} (h : step s = .next t) : t.inputs = s.inputs.tail := by
  cases step_cases h with
  | cmdAccepted _ rest _ hin _ _ hd ht => rw [exec_inputs (wf_of_decode hd) ht, hin, State.acked_inputs, List.tail_cons]
  -- Every other case names the state the operation is applied to, with the rest of the inputs.
  | _ => simp_all

/-- A state whose next input is no refused access has a next state (R65). -/
theorem step_answers {s : State} (h : LegalInputs s.inputs) : ∃ t, step s = .next t := by
  obtain hnext | ⟨off, size, rest, hbad, hin⟩ := onlyBusErrorsStopTheMachine.2 s
  · exact hnext
  · have hl : legalAccess off size = true := by
      rcases hin with hin | ⟨v, hin⟩ <;> exact h _ (hin ▸ List.mem_cons_self)
    obtain ⟨hsize, halign⟩ := legalAccess_iff.1 hl
    omega

theorem core_run_succ {s t : State} (h : step s = .next t) (k : Nat) : core.run (k + 1) s = core.run k t := by
  have hcore : core.step s = .next t := h
  simp [Host.Core.run, hcore]

/-- Settles O27, by induction on the inputs: each step takes one, and with none left the engine completes. -/
theorem everyRunEndsIdle : Obligations.EveryRunEndsIdle := by
  intro s
  induction hin : s.inputs generalizing s with
  | nil =>
    intro _
    exact ⟨s.complete, core_run_succ (step_of_no_input hin) 0, s.complete_engine, s.complete_inputs.trans hin⟩
  | cons x rest ih =>
    intro hl
    obtain ⟨t, ht⟩ := step_answers (hin ▸ hl)
    have hrest : t.inputs = rest := by rw [step_inputs ht, hin, List.tail_cons]
    rw [List.length_cons, core_run_succ ht]
    exact ih t hrest fun y hy => hl y (List.mem_cons_of_mem x hy)

end Sys2Proof.Machine
end

section
/-! SUPPORT. States that agree on the valued words (spec/10_state.md R40, spec/70_reset_and_hazards.md R284): each
operation of a step keeps the agreement. -/

namespace Sys2Proof.Machine

/-- A read that takes no draw returns the image of its place (R61, R66). -/
theorem State.serveRead_of_not_draw {s : State} {off : Offset}
    (h : ¬ (s.busy = true ∧ ∃ i j, windowReg off = .w i j)) :
    s.serveRead off = { s with reply := .data (s.image (windowReg off)) } := by
  unfold State.serveRead
  split
  · rename_i i j hw hb
    exact absurd ⟨hb, i, j, hw⟩ h
  · rfl

namespace AgreeOnValued

theorem refl (s : State) : AgreeOnValued s s := ⟨rfl, fun _ _ _ => rfl⟩

section
variable {s t : State} (h : AgreeOnValued s t)
include h

theorem engine : t.engine = s.engine := by rw [h.1]

theorem flags : t.flags = s.flags := by rw [h.1]

theorem err : t.err = s.err := by rw [h.1]

theorem inputs : t.inputs = s.inputs := by rw [h.1]

theorem busy : t.busy = s.busy := by rw [State.busy, State.busy, h.engine]

/-- A register with a value has the same contents in both states. -/
theorem reg_eq {r : Reg} (hr : s.hasValue r = true) : t.reg r = s.reg r :=
  eq_of_getWord_eq fun j => (h.2 r j ((State.hasValue_iff s r).1 hr j)).symm

/-- The images of a place agree unless the place is a W word without a value. -/
theorem image_eq {place : WindowReg} (hp : ∀ i j, place = .w i j → s.hasWord i j = true) :
    t.image place = s.image place := by
  cases place with
  | w i j => exact (h.2 i j (hp i j rfl)).symm
  | _ =>
    rw [h.1]
    rfl

/-- An operation that neither reads nor writes W, nor changes which words have a value, keeps the agreement. -/
theorem map {f : State → State} (hf : ∀ (u : State) w, f { u with w := w } = { f u with w := w })
    (hv : ∀ u : State, (f u).valued = u.valued) : AgreeOnValued (f s) (f t) := by
  obtain ⟨ht, hw⟩ := h
  have hfs : (f s).w = s.w := (congrArg State.w (hf s s.w) :)
  have hft : f t = { f s with w := t.w } := (congrArg f ht).trans (hf s t.w)
  refine ⟨by rw [hft], fun r j hr => ?_⟩
  rw [State.hasWord, hv] at hr
  rw [hft, State.reg, hfs]
  exact hw r j hr

theorem withInputs (rest : List Input) : AgreeOnValued { s with inputs := rest } { t with inputs := rest } :=
  h.map (f := fun u => { u with inputs := rest }) (fun _ _ => rfl) fun _ => rfl

theorem acked (rest : List Input) : AgreeOnValued (s.acked rest) (t.acked rest) :=
  h.map (f := fun u => u.acked rest) (fun _ _ => rfl) fun _ => rfl

theorem start (f : InFlight) : AgreeOnValued (s.start f) (t.start f) :=
  h.map (f := fun u => u.start f) (fun _ _ => rfl) fun _ => rfl

theorem writeCtrl (v : Word) : AgreeOnValued (s.writeCtrl v) (t.writeCtrl v) := by
  refine h.map (f := fun u => u.writeCtrl v) (fun u w => ?_) fun u => ?_
  · rw [State.writeCtrl_eq, State.writeCtrl_eq]
  · rw [State.writeCtrl_eq]

theorem recordError (c : ErrorCode) (r : Reg) (x : Word) :
    AgreeOnValued (s.recordError c r x) (t.recordError c r x) := by
  refine h.map (f := fun u => u.recordError c r x) (fun u w => ?_) fun u => State.recordError_valued ..
  cases he : u.err <;> simp [he]

theorem abort (c : ErrorCode) (r : Reg) (x : Word) : AgreeOnValued (s.abort c r x) (t.abort c r x) :=
  (h.recordError c r x).map (f := fun u => { u with done := true }) (fun _ _ => rfl) fun _ => rfl

/-- RESET leaves no trace of W (R281). -/
theorem applyReset : AgreeOnValued s.applyReset t.applyReset := by
  have hr : t.applyReset = s.applyReset := by
    rw [h.1]
    rfl
  exact hr ▸ refl _

theorem setReg (r : Reg) (v : W256) : AgreeOnValued (s.setReg r v) (t.setReg r v) := by
  refine ⟨by rw [h.1]; rfl, fun q j hq => ?_⟩
  rw [State.reg_setReg, State.reg_setReg]
  split_ifs with hqr
  · rfl
  · rw [State.hasWord_setReg_ne _ _ _ hqr] at hq
    exact h.2 q j hq

/-- A host write gives its word a value, and keeps the contents of the other words. -/
theorem setWord (i : Reg) (j : Fin 8) (x : Word) : AgreeOnValued (s.setWord i j x) (t.setWord i j x) := by
  refine ⟨by rw [h.1]; rfl, fun q k hq => ?_⟩
  rw [State.reg_setWord, State.reg_setWord]
  rw [State.hasWord_setWord] at hq
  by_cases hqi : q = i
  · subst hqi
    rw [if_pos rfl, if_pos rfl]
    by_cases hkj : k = j
    · subst hkj
      rw [getWord_putWord_self, getWord_putWord_self]
    · rw [getWord_putWord_ne _ _ hkj, getWord_putWord_ne _ _ hkj]
      exact h.2 q k (by simpa [hkj] using hq)
  · rw [if_neg hqi, if_neg hqi]
    exact h.2 q k (by simpa [hqi] using hq)

end

theorem setRegs (ws : List (Reg × W256)) {s t : State} (h : AgreeOnValued s t) :
    AgreeOnValued (s.setRegs ws) (t.setRegs ws) := by
  induction ws generalizing s t with
  | nil => exact h
  | cons x ws ih => exact ih (h.setReg x.1 x.2)

/-- The pending results were computed at acceptance, so a completion reads no register (log 5). -/
theorem complete {s t : State} (h : AgreeOnValued s t) : AgreeOnValued s.complete t.complete := by
  rcases s.complete_cases with ⟨hi, hc⟩ | ⟨f, hf, hc⟩
  · rw [hc, State.complete_idle (h.engine.trans hi)]
    exact h
  · rw [hc, State.complete_busy (h.engine.trans hf), h.flags]
    exact (h.setRegs f.result.writes).map
      (f := fun u => { u with flags := f.result.flags.apply s.flags, engine := .idle, done := true })
      (fun _ _ => rfl) fun _ => rfl

/-- While BUSY a W word gives a draw, whatever it holds; any other read returns an image on which the states agree. -/
theorem serveRead {s t : State} (h : AgreeOnValued s t) {off : Offset}
    (hp : s.busy = false → ∀ i j, windowReg off = .w i j → s.hasWord i j = true) :
    AgreeOnValued (s.serveRead off) (t.serveRead off) := by
  by_cases hdraw : s.busy = true ∧ ∃ i j, windowReg off = .w i j
  · obtain ⟨hb, i, j, hw⟩ := hdraw
    rw [State.serveRead_busy hb hw, State.serveRead_busy (h.busy.trans hb) hw]
    exact h.map (f := fun u => { u with reply := .data (Config.freeWord u.draws), draws := u.draws + 1 })
      (fun _ _ => rfl) fun _ => rfl
  · have hdraw' : ¬ (t.busy = true ∧ ∃ i j, windowReg off = .w i j) := by rwa [h.busy]
    have himage : t.image (windowReg off) = s.image (windowReg off) :=
      h.image_eq fun i j hw => hp (Bool.eq_false_iff.2 fun hb => hdraw ⟨hb, i, j, hw⟩) i j hw
    rw [State.serveRead_of_not_draw hdraw, State.serveRead_of_not_draw hdraw', himage]
    exact h.map (f := fun u => { u with reply := .data (s.image (windowReg off)) }) (fun _ _ => rfl) fun _ => rfl

end AgreeOnValued

end Sys2Proof.Machine
end

section
/-! SUPPORT. A command's check and results depend on the contents of its operand registers only (spec/30_encoding.md
R95), and a step that makes no uninitialised read (spec/10_state.md R40) keeps the agreement. -/

namespace Sys2Proof.Machine

/-- What a check looks at is all the operand registers (R95, R256). -/
theorem eq_sources_of_rangeTable {i : Instr} {b : Nat} {rs : List Reg} (h : rangeTable i = some (b, rs)) :
    rs = sources i := by
  cases i <;> cases h <;> rfl

section
variable {s t : State}

theorem firstOutOfRange_congr {i : Instr} (h : ∀ r ∈ sources i, t.reg r = s.reg r) :
    firstOutOfRange i t = firstOutOfRange i s := by
  unfold firstOutOfRange
  rcases hi : rangeTable i with _ | ⟨b, rs⟩
  · rfl
  · obtain rfl := eq_sources_of_rangeTable hi
    exact List.find?_congr fun r hr => by rw [h r hr]

theorem State.pair_congr {b : Reg} (h : ∀ r ∈ pairRegs b, t.reg r = s.reg r) : t.pair b = s.pair b := by
  simp only [pairRegs, List.forall_mem_cons] at h
  simp only [State.pair, h]

theorem State.jac_congr {b : Reg} (h : ∀ r ∈ jacRegs b, t.reg r = s.reg r) : t.jac b = s.jac b := by
  simp only [jacRegs, List.forall_mem_cons] at h
  simp only [State.jac, h]

theorem State.aff_congr {b : Reg} (h : ∀ r ∈ affRegs b, t.reg r = s.reg r) : t.aff b = s.aff b := by
  simp only [affRegs, List.forall_mem_cons] at h
  simp only [State.aff, h]

/-- Both states give a command the same results: each is computed from the operand registers, which agree. -/
theorem exec_form_of_sources {i : Instr} (h : ∀ r ∈ sources i, t.reg r = s.reg r) :
    ∃ res, exec i s = accept i (firstOutOfRange i s) res s ∧ exec i t = accept i (firstOutOfRange i t) res t := by
  cases i with
  | nop => exact ⟨_, rfl, rfl⟩
  | ldi rd imm | ldk rd imm | ldt rd imm => exact ⟨_, rfl, rfl⟩
  | mov rd a | sqr rd a | msb rd a | bswap rd a | sinv rd a | pmulg rd a | bit rd a imm =>
    have ha : t.reg a = s.reg a := h a List.mem_cons_self
    exact ⟨_, rfl, by rw [← ha]; rfl⟩
  | add rd a b | sub rd a b | mul rd a b | cmp a b =>
    have ha : t.reg a = s.reg a := h a List.mem_cons_self
    have hb : t.reg b = s.reg b := h b (List.mem_cons_of_mem _ List.mem_cons_self)
    exact ⟨_, rfl, by rw [← ha, ← hb]; rfl⟩
  | addw rd a b | subw rd a b =>
    have ha : t.pair a = s.pair a := State.pair_congr fun r hr => h r (List.mem_append_left _ hr)
    have hb : t.pair b = s.pair b := State.pair_congr fun r hr => h r (List.mem_append_right _ hr)
    exact ⟨_, rfl, by rw [← ha, ← hb]; rfl⟩
  | redp rd a => exact ⟨_, rfl, by rw [← State.pair_congr h]; rfl⟩
  | pdbl rd a => exact ⟨_, rfl, by rw [← State.jac_congr h]; rfl⟩
  | paddm rd a b =>
    have ha : t.jac a = s.jac a := State.jac_congr fun r hr => h r (List.mem_append_left _ hr)
    have hb : t.aff b = s.aff b := State.aff_congr fun r hr => h r (List.mem_append_right _ hr)
    exact ⟨_, rfl, by rw [← ha, ← hb]; rfl⟩

end

/-- The acceptance of a command, when its check and results and the values of its operands agree. -/
theorem AgreeOnValued.accept {s t s' : State} (h : AgreeOnValued s t) {i : Instr} {bad : Option Reg} {res : Result}
    (hsrc : ∀ r ∈ sources i, t.reg r = s.reg r) (hs : Machine.accept i bad res s = .next s') :
    ∃ t', Machine.accept i bad res t = .next t' ∧ AgreeOnValued s' t' := by
  have hops : (sources i).map t.reg = (sources i).map s.reg := List.map_congr_left hsrc
  rcases accept_cases i bad res s with ⟨hw, rfl, ha⟩ | ⟨hw, r, rfl, ha⟩ | ⟨hw, ha⟩ <;>
    rw [ha] at hs <;> cases hs
  · exact ⟨_, accept_start hw .., hops ▸ h.start _⟩
  · exact ⟨_, accept_range hw .., h.abort ..⟩
  · exact ⟨_, by simp [Machine.accept, hw], h.abort ..⟩

/-- A command accepted with the same operands starts with the same results, or is aborted for the same reason. -/
theorem AgreeOnValued.exec {s t s' : State} (h : AgreeOnValued s t) {i : Instr}
    (hsrc : ∀ r ∈ sources i, t.reg r = s.reg r) (hs : Machine.exec i s = .next s') :
    ∃ t', Machine.exec i t = .next t' ∧ AgreeOnValued s' t' := by
  obtain ⟨res, hxs, hxt⟩ := exec_form_of_sources hsrc
  rw [hxt, firstOutOfRange_congr hsrc]
  exact h.accept hsrc (hxs ▸ hs)

/-- A host read of a W word that is no uninitialised read finds a word with a value (R40). -/
theorem State.hasWord_of_uninitRead {s : State} {off : Offset} {i : Reg} {j : Fin 8} {rest : List Input}
    (hu : s.uninitRead = none) (ha : off.toNat % 4 = 0) (hin : s.inputs = hostRead off :: rest)
    (hb : s.busy = false) (hw : windowReg off = .w i j) : s.hasWord i j = true := by
  have hin' : s.inputs = .host (.read off 4) :: rest := hin
  simpa [State.uninitRead, hin', legalAccess, ha, hb, hw] using hu

/-- A command whose acceptance makes no uninitialised read has values in all its operand registers (R40). -/
theorem State.hasValue_of_uninitRead {s : State} {w : Word} {i : Instr} {rest : List Input}
    (hu : s.uninitRead = none) (hready : s.ready) (hin : s.inputs = cmdWrite w :: rest) (hd : decode w = .ok i) :
    ∀ r ∈ sources i, s.hasValue r = true := by
  rw [State.uninitRead_cmdWrite hready hin hd, List.find?_eq_none] at hu
  simpa using hu

theorem step_ctrlWrite {s : State} {v : Word} {rest : List Input} (h : s.inputs = ctrlWrite v :: rest) :
    step s = .next ((s.acked rest).writeCtrl v) :=
  step_hostWrite (by decide) h

/-- Settles O30, by the cases of a step: each operation keeps the agreement, the two that read W because what they read
has a value. -/
theorem unvaluedWordsAreNotSeen : Obligations.UnvaluedWordsAreNotSeen := by
  intro s t s' h hu hs
  have hbusy := h.busy
  have herr := h.err
  have hinputs := h.inputs
  cases step_cases hs with
  | idleOrDrain hin hs' => exact ⟨_, step_of_no_input (hinputs.trans hin), hs' ▸ h.complete⟩
  | engineTurn rest hin hs' =>
    exact ⟨_, step_complete (.inl (hinputs.trans hin)), hs' ▸ (h.withInputs rest).complete⟩
  | reset rest hin hs' => exact ⟨_, step_reset (hinputs.trans hin), hs' ▸ (h.withInputs rest).applyReset⟩
  | read off rest hin ha hs' =>
    have hword : s.busy = false → ∀ i j, windowReg off = .w i j → s.hasWord i j = true := fun hb i j =>
      State.hasWord_of_uninitRead hu ha hin hb
    exact ⟨_, step_hostRead ha (hinputs.trans hin), hs' ▸ (h.withInputs rest).serveRead hword⟩
  | ctrlWrite v rest hin hs' => exact ⟨_, step_ctrlWrite (hinputs.trans hin), hs' ▸ (h.acked rest).writeCtrl v⟩
  | ignoredWrite off v rest hin ha hc hr hw hs' =>
    have hoff : ¬ (0x100 ≤ off.toNat ∧ off.toNat < 0x300) := by
      rw [← exists_windowReg_eq_w_iff]
      rintro ⟨i, j, hij⟩
      exact hw i j hij
    have hcmd : off ≠ 0x00C := fun e => hc (e ▸ rfl)
    have hctrl : off ≠ 0x004 := fun e => hr (e ▸ rfl)
    exact ⟨_, step_ignoredWrite ha hcmd hctrl hoff (hinputs.trans hin), hs' ▸ h.acked rest⟩
  | wordOverrun i j v rest hin hb hs' =>
    have hoff := exists_windowReg_eq_w_iff.1 ⟨i, j, windowReg_wOffset i j⟩
    exact ⟨_, step_overrun (hbusy.trans hb) (wOffset_aligned i j) (.inr hoff) (hinputs.trans hin),
      hs' ▸ (h.acked rest).recordError ..⟩
  | wordWrite i j v rest hin hb hs' =>
    exact ⟨_, step_writeWord (hbusy.trans hb) (hinputs.trans hin), hs' ▸ (h.acked rest).setWord i j v⟩
  | cmdOverrun w rest hin hb hs' =>
    exact ⟨_, step_cmdWrite_of_busy (hbusy.trans hb) (hinputs.trans hin), hs' ▸ (h.acked rest).recordError ..⟩
  | cmdDiscarded w rest hin hb he hs' =>
    exact ⟨_, step_cmdWrite_of_err (hbusy.trans hb) (herr.trans he) (hinputs.trans hin), hs' ▸ h.acked rest⟩
  | cmdAborted w rest e hin hb he hd hs' =>
    have ht : t.ready := ⟨(State.busy_eq_false_iff t).1 (hbusy.trans hb), herr.trans he⟩
    have hstep := step_cmdWrite_of_decode_error ht (hinputs.trans hin) hd
    rw [← State.abort_of_not_err (s := t.acked rest) (herr.trans he)] at hstep
    exact ⟨_, hstep, hs' ▸ (h.acked rest).abort ..⟩
  | cmdAccepted w rest i hin hb he hd hx =>
    have hready : s.ready := ⟨(State.busy_eq_false_iff s).1 hb, he⟩
    have ht : t.ready := ⟨h.engine.trans hready.1, herr.trans he⟩
    have hsrc : ∀ r ∈ sources i, t.reg r = s.reg r := fun r hr =>
      h.reg_eq (State.hasValue_of_uninitRead hu hready hin hd r hr)
    obtain ⟨t', hxt, hagree⟩ := (h.acked rest).exec hsrc hx
    exact ⟨t', (stepRunsTheDecodedCommand t w i rest ht (hinputs.trans hin) hd).trans hxt, hagree⟩

end Sys2Proof.Machine
end
